-- ==== Sys2Proof/Word.lean ====
section
/-! DEFINITION. The word types of the CSC420 engine and the four-lane bundle of the 2x2 block. -/

namespace Sys2Proof

/-- A command word or a response word: 32 bits (R60, R12). -/
abbrev Word := BitVec 32

/-- A sample (`u8` of R13): what a window register and a plane location hold (R20, R40). -/
abbrev Byte := BitVec 8

/-- Four like things, one for each lane `q = 2*i + j` of a block or each neighbour slot (R15):
lane 0 top-left, 1 top-right, 2 bottom-left, 3 bottom-right;
slot 0 own, 1 right, 2 below, 3 diagonal. -/
structure Quad (α : Type) where
  l0 : α
  l1 : α
  l2 : α
  l3 : α
deriving DecidableEq, Repr

end Sys2Proof
end

