-- ==== Sys2Proof/Config.lean ====
section
/-! DEFINITION. The OPEN build-time parameters of the engine (R5, R6; 93_implementation_defined.md U9, U10). -/

namespace Sys2Proof

/-- The 17 parameters fixed when the hardware is built (R5, R6): the raster dimensions, the shift `K` and
the 14 coefficient magnitudes.  No value is chosen here: the state carries one `Config` which no step
changes, so that a statement about every state is a statement about every built engine (log entry 1).
`Config.wf` (Machine/Params.lean) says which of them are legal. -/
structure Config where
  rows : Nat
  cols : Nat
  k    : Nat
  c11  : Nat
  c12  : Nat
  c13  : Nat
  c21  : Nat
  c22  : Nat
  c23  : Nat
  c31  : Nat
  c32  : Nat
  c33  : Nat
  d1   : Nat
  d2   : Nat
  d3   : Nat
  d4   : Nat
  d5   : Nat
deriving DecidableEq, Repr

/-- The reference parameter set `REF601_K8` of R9, for a raster of the given dimensions.  It puts numbers
into examples and into `State.reset` (log entry 2); no meaning depends on it. -/
def Config.ref601K8 (rows cols : Nat) : Config :=
  { rows := rows, cols := cols, k := 8,
    c11 := 66,  c12 := 129, c13 := 25,
    c21 := 38,  c22 := 74,  c23 := 112,
    c31 := 112, c32 := 94,  c33 := 18,
    d1 := 298, d2 := 409, d3 := 208, d4 := 100, d5 := 516 }

end Sys2Proof
end

