-- ==== Sys2Proof/Machine/Params.lean ====
section
/-! DEFINITION. The constants derived from the parameters (R8) and the legality of a configuration (R5, R7). -/

namespace Sys2Proof

/-- `HROWS`: the rows of a chroma plane (R8). -/
def Config.hrows (c : Config) : Nat := c.rows / 2

/-- `HCOLS`: the columns of a chroma plane (R8). -/
def Config.hcols (c : Config) : Nat := c.cols / 2

/-- `BR_MAX`: the largest block row (R8). -/
def Config.brMax (c : Config) : Nat := c.hrows - 1

/-- `BC_MAX`: the largest block column (R8). -/
def Config.bcMax (c : Config) : Nat := c.hcols - 1

/-- `NPIX`: the samples of a full-resolution plane (R8). -/
def Config.npix (c : Config) : Nat := c.rows * c.cols

/-- `NCHR`: the samples of a chroma plane (R8). -/
def Config.nchr (c : Config) : Nat := c.hrows * c.hcols

/-- The 14 coefficients (R6). -/
def Config.coefficients (c : Config) : List Nat :=
  [c.c11, c.c12, c.c13, c.c21, c.c22, c.c23, c.c31, c.c32, c.c33, c.d1, c.d2, c.d3, c.d4, c.d5]

/-- A legal dimension: even, from 2 to 8192 (R5). -/
def legalDimension (n : Nat) : Bool := decide (2 ≤ n) && decide (n ≤ 8192) && decide (n % 2 = 0)

/-- A legal shift amount (R7). -/
def legalShift (k : Nat) : Bool := decide (1 ≤ k) && decide (k ≤ 16)

/-- A legal coefficient: 20 unsigned bits (R7). -/
def legalCoefficient (x : Nat) : Bool := decide (x < 2 ^ 20)

/-- The configuration is one that can be built (R5, R7). -/
def Config.wf (c : Config) : Bool :=
  legalDimension c.rows && legalDimension c.cols && legalShift c.k && c.coefficients.all legalCoefficient

end Sys2Proof
end

