-- ==== Sys2Proof/Machine/Arithmetic.lean ====
section
/-! DEFINITION. The fixed-point arithmetic: the laws of 40_constants_and_arithmetic.md and the functions of
41_forward.md and 42_inverse.md.  Every sum is an exact integer and is narrowed once, at the end (R83, R89). -/

namespace Sys2Proof.Machine

/-- A sample as an integer (R13). -/
def sample (v : Byte) : Int := (v.toNat : Int)

/-- `a << n` on integers: `a * 2^n` (R13). -/
def shl (a : Int) (n : Nat) : Int := a * ((2 ^ n : Nat) : Int)

/-- `asr(v, n) = floor(v / 2^n)`, the arithmetic right shift (R13, R82). -/
def asr (v : Int) (n : Nat) : Int := v / ((2 ^ n : Nat) : Int)

/-- The sample with an integer value of 0 to 255 (R13). -/
def toSample (v : Int) : Byte := BitVec.ofNat 8 v.toNat

/-- `clamp255` (R81): the document's `clamp_0_255` and its `saturate`. -/
def clamp255 (v : Int) : Byte := if v < 0 then 0 else if v > 255 then 255 else toSample v

/-- `luma(r, g, b)` (R90): all three products added, no rounding term. -/
def lumaPx (c : Config) (r g b : Byte) : Byte :=
  clamp255 (asr (shl 16 c.k + c.c11 * sample r + c.c12 * sample g + c.c13 * sample b) c.k)

/-- `cbpx(r, g, b)` (R91): red and green products subtracted, blue added. -/
def cbPx (c : Config) (r g b : Byte) : Byte :=
  clamp255 (asr (shl 128 c.k - c.c21 * sample r - c.c22 * sample g + c.c23 * sample b) c.k)

/-- `crpx(r, g, b)` (R92): red product added, green and blue subtracted. -/
def crPx (c : Config) (r g b : Byte) : Byte :=
  clamp255 (asr (shl 128 c.k + c.c31 * sample r - c.c32 * sample g - c.c33 * sample b) c.k)

/-- `down4` (R93): truncating average of the four lanes, no rounding term and no clamp. -/
def down4 (c : Quad Byte) : Byte :=
  toSample (asr (sample c.l0 + sample c.l1 + sample c.l2 + sample c.l3) 2)

/-- `up4` (R100): the neighbour slots (own, right, below, diagonal) to the four lanes. -/
def up4 (s : Quad Byte) : Quad Byte :=
  { l0 := s.l0,
    l1 := toSample (asr (sample s.l0 + sample s.l1) 1),
    l2 := toSample (asr (sample s.l0 + sample s.l2) 1),
    l3 := toSample (asr (sample s.l0 + sample s.l1 + sample s.l2 + sample s.l3) 2) }

/-- `RND = 1 << (K - 1)`, the rounding term of the inverse transform (R8, R85). -/
def rnd (c : Config) : Int := shl 1 (c.k - 1)

/-- The red output of `recon` (R101): it does not use Cb. -/
def reconRed (c : Config) (y cr : Byte) : Byte :=
  clamp255 (asr (c.d1 * (sample y - 16) + c.d2 * (sample cr - 128) + rnd c) c.k)

/-- The green output of `recon` (R101): both chroma terms subtracted. -/
def reconGreen (c : Config) (y cb cr : Byte) : Byte :=
  clamp255
    (asr (c.d1 * (sample y - 16) - c.d3 * (sample cr - 128) - c.d4 * (sample cb - 128) + rnd c) c.k)

/-- The blue output of `recon` (R101): it does not use Cr. -/
def reconBlue (c : Config) (y cb : Byte) : Byte :=
  clamp255 (asr (c.d1 * (sample y - 16) + c.d5 * (sample cb - 128) + rnd c) c.k)

/-! The four-lane datapath: every lane applies the scalar function to its own lane of the sources (R87). -/

/-- Lane-wise application of a two-argument function. -/
def lanes2 (f : Byte → Byte → Byte) (a b : Quad Byte) : Quad Byte :=
  ⟨f a.l0 b.l0, f a.l1 b.l1, f a.l2 b.l2, f a.l3 b.l3⟩

/-- Lane-wise application of a three-argument function. -/
def lanes3 (f : Byte → Byte → Byte → Byte) (a b c : Quad Byte) : Quad Byte :=
  ⟨f a.l0 b.l0 c.l0, f a.l1 b.l1 c.l1, f a.l2 b.l2 c.l2, f a.l3 b.l3 c.l3⟩

end Sys2Proof.Machine
end

