-- ==== Sys2Proof/Syntax.lean ====
section
/-! DEFINITION. The command set as syntax: one constructor per row of spec/opcode_table.json (R66). -/

namespace Sys2Proof

/-- A CSC420 command.  `br`, `bc` are block indices and `csr` a CSR number, unsigned integers with no
scaling (R62, R65, R67): `Instr.wf` says that they fit their fields.  `reg` is a window register number,
all 32 legal, and `imm8` a sample, all 256 legal (R63). -/
inductive Instr where
  | nop
  | wrw (reg : Fin 32) (imm8 : Byte)
  | rdw (reg : Fin 32)
  | rdcsr (csr : Nat)
  | ldrgb (br bc : Nat)
  | ldycc (br bc : Nat)
  | stycc (br bc : Nat)
  | strgb (br bc : Nat)
  | luma
  | chroma
  | ds
  | us
  | recon
  | fwdw
  | invw
  | fwdblk (br bc : Nat)
  | invblk (br bc : Nat)
  | fwdpln
  | invpln
deriving DecidableEq, Repr

end Sys2Proof
end

