-- ==== Sys2Proof/WellFormed.lean ====
section
/-! DEFINITION. Which commands can be written in the command word: every operand fits its field. -/

namespace Sys2Proof

/-- A block index fits a 12-bit field (R62). -/
abbrev fitsBlockField (n : Nat) : Bool := n < 4096

/-- A CSR number fits an 8-bit field (R65). -/
abbrev fitsCsrField (n : Nat) : Bool := n < 256

/-- Every operand fits its field of the command word (R61 to R65).  That a block lies inside the raster, or
that a CSR number is defined, is no part of it: those are checked at execution (R70, R137). -/
def Instr.wf : Instr → Bool
  | .nop => true
  | .wrw _ _ => true
  | .rdw _ => true
  | .rdcsr csr => fitsCsrField csr
  | .ldrgb br bc => fitsBlockField br && fitsBlockField bc
  | .ldycc br bc => fitsBlockField br && fitsBlockField bc
  | .stycc br bc => fitsBlockField br && fitsBlockField bc
  | .strgb br bc => fitsBlockField br && fitsBlockField bc
  | .luma => true
  | .chroma => true
  | .ds => true
  | .us => true
  | .recon => true
  | .fwdw => true
  | .invw => true
  | .fwdblk br bc => fitsBlockField br && fitsBlockField bc
  | .invblk br bc => fitsBlockField br && fitsBlockField bc
  | .fwdpln => true
  | .invpln => true

end Sys2Proof
end

