-- ==== Sys2Proof/Decode.lean ====
section
/-! DEFINITION. The decoder (R60 to R71), total on every word and on any bytes, and after it the encoder. -/

namespace Sys2Proof

/-- Why a word or a byte string is no command.  Both reasons about a word are the one result `illegal` of
R70, which raises `ILLEGAL_CMD` (R132); the third is about byte strings only. -/
inductive Illegal where
  /-- The opcode is none of the 19 of R66 (R69). -/
  | undefinedOpcode
  /-- A defined opcode with a non-zero reserved field (R68). -/
  | reservedField
  /-- Fewer than four bytes are left, and every command has four (R71). -/
  | truncated
deriving DecidableEq, Repr

/-- `w[hi:lo]` of R13: the bits `hi` down to `lo`, read as an unsigned integer. -/
def field (w : Word) (hi lo : Nat) : Nat := w.toNat / 2 ^ lo % 2 ^ (hi + 1 - lo)

/-- Format `N` (R61): no operand, bits 23:0 reserved. -/
def decodeN (w : Word) (i : Instr) : Except Illegal Instr :=
  if field w 23 0 = 0 then .ok i else .error .reservedField

/-- Format `B` (R62): `br = w[23:12]`, `bc = w[11:0]`, nothing reserved. -/
def decodeB (w : Word) (mk : Nat → Nat → Instr) : Except Illegal Instr :=
  .ok (mk (field w 23 12) (field w 11 0))

/-- The register field `w[12:8]` of formats `W` and `R`. -/
def regField (w : Word) : Fin 32 := Fin.ofNat 32 (field w 12 8)

/-- Format `W` (R63): `reg = w[12:8]`, `imm8 = w[7:0]`, bits 23:13 reserved. -/
def decodeW (w : Word) (mk : Fin 32 → Byte → Instr) : Except Illegal Instr :=
  if field w 23 13 = 0 then .ok (mk (regField w) (BitVec.ofNat 8 (field w 7 0)))
  else .error .reservedField

/-- Format `R` (R64): `reg = w[12:8]`, bits 23:13 and 7:0 reserved. -/
def decodeR (w : Word) (mk : Fin 32 → Instr) : Except Illegal Instr :=
  if field w 23 13 = 0 ∧ field w 7 0 = 0 then .ok (mk (regField w)) else .error .reservedField

/-- Format `C` (R65): `csr = w[7:0]`, bits 23:8 reserved. -/
def decodeC (w : Word) (mk : Nat → Instr) : Except Illegal Instr :=
  if field w 23 8 = 0 then .ok (mk (field w 7 0)) else .error .reservedField

/-- The decoding procedure of R70 over the opcode map of R66. -/
def decode (w : Word) : Except Illegal Instr :=
  match field w 31 24 with
  | 0x00 => decodeN w .nop
  | 0x01 => decodeW w .wrw
  | 0x02 => decodeR w .rdw
  | 0x03 => decodeC w .rdcsr
  | 0x10 => decodeB w .ldrgb
  | 0x11 => decodeB w .ldycc
  | 0x12 => decodeB w .stycc
  | 0x13 => decodeB w .strgb
  | 0x20 => decodeN w .luma
  | 0x21 => decodeN w .chroma
  | 0x22 => decodeN w .ds
  | 0x23 => decodeN w .us
  | 0x24 => decodeN w .recon
  | 0x28 => decodeN w .fwdw
  | 0x29 => decodeN w .invw
  | 0x30 => decodeB w .fwdblk
  | 0x31 => decodeB w .invblk
  | 0x40 => decodeN w .fwdpln
  | 0x41 => decodeN w .invpln
  | _ => .error .undefinedOpcode

/-- A word stored as bytes is little-endian: byte 0 is bits 7:0, byte 3 is bits 31:24 (R44). -/
def bytesOfWord (w : Word) : List Byte :=
  [BitVec.ofNat 8 (field w 7 0), BitVec.ofNat 8 (field w 15 8),
   BitVec.ofNat 8 (field w 23 16), BitVec.ofNat 8 (field w 31 24)]

/-- The word that four stored bytes stand for (R44). -/
def wordOfBytes (b0 b1 b2 b3 : Byte) : Word :=
  BitVec.ofNat 32 (b0.toNat + b1.toNat * 2 ^ 8 + b2.toNat * 2 ^ 16 + b3.toNat * 2 ^ 24)

/-- The decoder on stored bytes: the command of the first four and the bytes after them (R44, R71). -/
def decodeBytes : List Byte → Except Illegal (Instr × List Byte)
  | b0 :: b1 :: b2 :: b3 :: rest => (decode (wordOfBytes b0 b1 b2 b3)).map fun i => (i, rest)
  | _ => .error .truncated

/-- The word whose low `nbits` bits are those of `w` and whose other bits are 0. -/
def tableWord (nbits w : Nat) : Word := BitVec.ofNat 32 (w % 2 ^ nbits)

/-- The host's question about one row of the opcode table: what the decoder reads from the stored bytes of
the word. -/
def decodeTableWord (nbits w : Nat) : Option Instr :=
  match decodeBytes (bytesOfWord (tableWord nbits w)) with
  | .ok (i, _) => some i
  | .error _ => none

/-! The encoder, written from the same formats (R61 to R65) and opcodes (R66). -/

/-- Format `N` (R61). -/
def encodeN (op : Nat) : Word := BitVec.ofNat 32 (op * 2 ^ 24)

/-- Format `B` (R62). -/
def encodeB (op br bc : Nat) : Word := BitVec.ofNat 32 (op * 2 ^ 24 + br * 2 ^ 12 + bc)

/-- Format `W` (R63). -/
def encodeW (op : Nat) (reg : Fin 32) (imm8 : Byte) : Word :=
  BitVec.ofNat 32 (op * 2 ^ 24 + reg.val * 2 ^ 8 + imm8.toNat)

/-- Format `R` (R64). -/
def encodeR (op : Nat) (reg : Fin 32) : Word := BitVec.ofNat 32 (op * 2 ^ 24 + reg.val * 2 ^ 8)

/-- Format `C` (R65). -/
def encodeC (op csr : Nat) : Word := BitVec.ofNat 32 (op * 2 ^ 24 + csr)

/-- The command word of a command (R66).  No bit of a legal word is ignored by the decoder, so this is also
the word that a decoded command came from, which error entry records (R135; DEDUCED, log entry 8). -/
def encode : Instr → Word
  | .nop => encodeN 0x00
  | .wrw reg imm8 => encodeW 0x01 reg imm8
  | .rdw reg => encodeR 0x02 reg
  | .rdcsr csr => encodeC 0x03 csr
  | .ldrgb br bc => encodeB 0x10 br bc
  | .ldycc br bc => encodeB 0x11 br bc
  | .stycc br bc => encodeB 0x12 br bc
  | .strgb br bc => encodeB 0x13 br bc
  | .luma => encodeN 0x20
  | .chroma => encodeN 0x21
  | .ds => encodeN 0x22
  | .us => encodeN 0x23
  | .recon => encodeN 0x24
  | .fwdw => encodeN 0x28
  | .invw => encodeN 0x29
  | .fwdblk br bc => encodeB 0x30 br bc
  | .invblk br bc => encodeB 0x31 br bc
  | .fwdpln => encodeN 0x40
  | .invpln => encodeN 0x41

/-- A row of the opcode map: a word `w` is the command exactly when `(w & mask) == pattern` (R66). -/
structure OpcodeRow where
  mnemonic : String
  pattern  : Word
  mask     : Word
deriving DecidableEq, Repr

/-- The opcode map of R66, row by row, in the manual's own masks (its column `match` is `pattern` here). -/
def opcodeTable : List OpcodeRow :=
  [⟨"NOP",    0x00000000, 0xFFFFFFFF⟩, ⟨"WRW",    0x01000000, 0xFFFFE000⟩,
   ⟨"RDW",    0x02000000, 0xFFFFE0FF⟩, ⟨"RDCSR",  0x03000000, 0xFFFFFF00⟩,
   ⟨"LDRGB",  0x10000000, 0xFF000000⟩, ⟨"LDYCC",  0x11000000, 0xFF000000⟩,
   ⟨"STYCC",  0x12000000, 0xFF000000⟩, ⟨"STRGB",  0x13000000, 0xFF000000⟩] ++
  [⟨"LUMA",   0x20000000, 0xFFFFFFFF⟩, ⟨"CHROMA", 0x21000000, 0xFFFFFFFF⟩,
   ⟨"DS",     0x22000000, 0xFFFFFFFF⟩, ⟨"US",     0x23000000, 0xFFFFFFFF⟩,
   ⟨"RECON",  0x24000000, 0xFFFFFFFF⟩, ⟨"FWDW",   0x28000000, 0xFFFFFFFF⟩,
   ⟨"INVW",   0x29000000, 0xFFFFFFFF⟩, ⟨"FWDBLK", 0x30000000, 0xFF000000⟩,
   ⟨"INVBLK", 0x31000000, 0xFF000000⟩, ⟨"FWDPLN", 0x40000000, 0xFFFFFFFF⟩,
   ⟨"INVPLN", 0x41000000, 0xFFFFFFFF⟩]

/-- The mnemonic of a command, as R66 spells it. -/
def Instr.mnemonic : Instr → String
  | .nop => "NOP"
  | .wrw _ _ => "WRW"
  | .rdw _ => "RDW"
  | .rdcsr _ => "RDCSR"
  | .ldrgb _ _ => "LDRGB"
  | .ldycc _ _ => "LDYCC"
  | .stycc _ _ => "STYCC"
  | .strgb _ _ => "STRGB"
  | .luma => "LUMA"
  | .chroma => "CHROMA"
  | .ds => "DS"
  | .us => "US"
  | .recon => "RECON"
  | .fwdw => "FWDW"
  | .invw => "INVW"
  | .fwdblk _ _ => "FWDBLK"
  | .invblk _ _ => "INVBLK"
  | .fwdpln => "FWDPLN"
  | .invpln => "INVPLN"

end Sys2Proof
end

