-- ==== Sys2Proof/Machine/State.lean ====
section
/-! DEFINITION. The state of the engine and of the host's plane memories, as plain data (R37), with the
host's moves still to come and the responses already sent. -/

namespace Sys2Proof.Machine

/-- The eight banks of the window register file (R21). -/
inductive Bank where
  | r | g | b | y | cb | cr | cbs | crs
deriving DecidableEq, Repr

/-- The six plane spaces (R40). -/
inductive Plane where
  | pr | pg | pb | py | pcb | pcr
deriving DecidableEq, Repr

/-- The 20 control and status registers (R27), by name. -/
inductive Csr where
  | status | errcmd | wvalid | dim | kshift
  | c11 | c12 | c13 | c21 | c22 | c23 | c31 | c32 | c33
  | d1 | d2 | d3 | d4 | d5
  | version
deriving DecidableEq, Repr

/-- The four causes of a command error (R131).  A command error is no stop of the model: it is a next state,
by the error entry of R135. -/
inductive ErrCode where
  | illegalCmd | badCsr | badBlock | uninitReg
deriving DecidableEq, Repr

/-- What error entry records: the cause (`STATUS.ECODE`, R28) and the command word (`ERRCMD`, R29). -/
structure ErrRecord where
  code : ErrCode
  cmd  : Word
deriving DecidableEq, Repr

/-- One plane memory: address and sample pairs, addresses strictly rising, no sample equal to what an
unlisted address reads as (`Memory.unlisted`, Machine/Ops.lean). -/
abbrev Memory := List Host.Cell

/-- The six plane spaces, disjoint memories owned by the host (R40). -/
structure Planes where
  pr  : Memory
  pg  : Memory
  pb  : Memory
  py  : Memory
  pcb : Memory
  pcr : Memory
deriving DecidableEq, Repr

/-- What the host can do to the engine and its planes (R159).  Reading a plane, observing `err` and accepting
a response change nothing and are no moves (log entry 5). -/
inductive HostMove where
  /-- Send a command word (R12). -/
  | command (w : Word)
  /-- Assert `rst` between commands (R150). -/
  | reset
  /-- Send a command word and assert `rst` while it runs (R150).  `landed` lists the locations whose write, if
  the command writes them, was already made; which ones were is unspecified (93 U5), so it is any list
  (DEDUCED, log entry 4). -/
  | commandThenReset (w : Word) (landed : List (Plane × Nat))
  /-- Write a sample to a plane location between commands (R153). -/
  | writePlane (p : Plane) (a : Nat) (v : Byte)
deriving DecidableEq, Repr

/-- Why the machine stops with a fault.  No command stops it: every command error of R131 is a next state. -/
inductive Fault where
  /-- Raised by a host move that writes a location no plane has (R40: addresses 0 to the plane's size less 1).
  Safe: the spec gives such a write no meaning, and the model stops (DESIGN CHOICE, log entry 9). -/
  | hostPlaneAddress
deriving DecidableEq, Repr

/-- Why a step has no meaning. -/
inductive Refusal where
  /-- Raised by an arm of `exec` that has no meaning yet, by the row's mnemonic.  Safe.  No arm does. -/
  | notModelled (mnemonic : String)
  /-- Raised by every step of a state whose parameters are outside R5 or R7: "A configuration outside these
  bounds is ill-formed and a model refuses it" (R7; 93 U1, U8).  Safe (DESIGN CHOICE, log entry 10). -/
  | illFormedConfig
deriving DecidableEq, Repr

/-- The complete state.  `regs` (`none` is an invalid register, log entry 15), `err` and `planes` are the tuple of
R37; `cfg` holds the OPEN parameters, which no step changes (log entry 1); `inputs` and `responses` are the command
and the response port (R11, R12): the host's moves not yet made, first one first, and the response words sent since
reset, oldest first. -/
structure State where
  cfg       : Config
  regs      : Vector (Option Byte) 32
  err       : Option ErrRecord
  planes    : Planes
  inputs    : List HostMove
  responses : List Word
deriving DecidableEq, Repr

/-- Planes that list nothing. -/
def Planes.blank : Planes := { pr := [], pg := [], pb := [], py := [], pcb := [], pcr := [] }

/-- The engine right after reset (R36) with the given parameters, launch planes (R151: "a model takes the six
planes at the start of a run as given inputs") and host moves (R160). -/
def State.powerUp (cfg : Config) (planes : Planes) (inputs : List HostMove) : State :=
  { cfg := cfg, regs := Vector.replicate 32 none, err := none, planes := planes,
    inputs := inputs, responses := [] }

/-- The engine right after reset (R36), built for the 4 by 4 raster with `REF601_K8` (DESIGN CHOICE, log
entry 2), nothing listed in its planes (DESIGN CHOICE, log entry 3) and no host move to come. -/
def State.reset : State := State.powerUp (Config.ref601K8 4 4) Planes.blank []

end Sys2Proof.Machine
end

