-- ==== Sys2Proof/Machine/Operands.lean ====
section
/-! DEFINITION. The operand forms: window register numbers by bank (R21), block positions and the block-indexed
addresses (R15, R41, R115, R118). -/

namespace Sys2Proof.Machine

/-- The lane or slot of a bundle with the given number (R15). -/
def laneOf {α : Type} (v : Quad α) : Fin 4 → α
  | 0 => v.l0
  | 1 => v.l1
  | 2 => v.l2
  | 3 => v.l3

/-- The bundle whose lane `q` is `f q`. -/
def quadOf {α : Type} (f : Fin 4 → α) : Quad α := ⟨f 0, f 1, f 2, f 3⟩

/-- The number of a bank (R21). -/
def bankNumber : Bank → Fin 8
  | .r => 0
  | .g => 1
  | .b => 2
  | .y => 3
  | .cb => 4
  | .cr => 5
  | .cbs => 6
  | .crs => 7

/-- The window register of a bank and an index: number `4 * bank + index` (R21). -/
def bankReg (bank : Bank) (q : Fin 4) : Fin 32 :=
  ⟨4 * (bankNumber bank).val + q.val, by have := (bankNumber bank).isLt; have := q.isLt; omega⟩

/-- The block lies inside the raster: the check of every format `B` command (R62, R134). -/
def blockInRaster (c : Config) (br bc : Nat) : Bool := decide (br ≤ c.brMax) && decide (bc ≤ c.bcMax)

/-- `A(r, c) = r * COLS + c`: the address of a sample of a full-resolution plane (R41). -/
def addrFull (c : Config) (row col : Nat) : Nat := row * c.cols + col

/-- `AC(br, bc) = br * HCOLS + bc`: the address of a sample of a chroma plane (R41). -/
def addrChroma (c : Config) (br bc : Nat) : Nat := br * c.hcols + bc

/-- The address of pixel `(2*br + i, 2*bc + j)`, lane `q = 2*i + j` of the block (R15, R41). -/
def pixelAddr (c : Config) (br bc : Nat) (q : Fin 4) : Nat :=
  addrFull c (2 * br + q.val / 2) (2 * bc + q.val % 2)

/-- The chroma address of neighbour slot `n` of the block: own, right, below, diagonal, each index clamped to
the last valid one (R115, R105). -/
def neighbourAddr (c : Config) (br bc : Nat) (n : Fin 4) : Nat :=
  addrChroma c (min (br + n.val / 2) c.brMax) (min (bc + n.val % 2) c.bcMax)

/-- The number of locations of a plane (R40). -/
def planeSize (c : Config) : Plane → Nat
  | .pr => c.npix
  | .pg => c.npix
  | .pb => c.npix
  | .py => c.npix
  | .pcb => c.nchr
  | .pcr => c.nchr

/-- The blocks of the raster in the order of the ImageIterator: block rows outside, block columns inside
(R122; DEDUCED, log entry 11). -/
def rasterBlocks (c : Config) : List (Nat × Nat) :=
  (List.range (c.brMax + 1)).flatMap fun br => (List.range (c.bcMax + 1)).map fun bc => (br, bc)

end Sys2Proof.Machine
end

