-- ==== Sys2Proof/Machine/Ops.lean ====
section
/-! DEFINITION. The named operations over plane memory, window registers, responses and the error state, among
them error entry (R135) and reset (R36, R150), and the one shape of every command (R12, R14, R138). -/

namespace Sys2Proof.Machine

/-! Plane memory (R40, R42): one byte wide, no side effect (R46). -/

/-- What an unlisted address reads as.  DESIGN CHOICE (log entry 3): the spec leaves the content of a plane the
host never wrote unspecified (93 U3). -/
def Memory.unlisted : Byte := 0

/-- The canonical form: addresses strictly rising, no entry equal to what an unlisted address reads as. -/
def Memory.wf (m : Memory) : Bool :=
  decide (m.Pairwise (fun c d => c.1 < d.1)) && m.all (fun c => c.2 != Memory.unlisted)

/-- Every listed address is below `size`. -/
def Memory.inRange (size : Nat) (m : Memory) : Bool := m.all (fun c => decide (c.1 < size))

/-- The byte at an address. -/
def Memory.read : Memory → Nat → Byte
  | [], _ => Memory.unlisted
  | (a', v) :: m, a => if a = a' then v else Memory.read m a

/-- Put an entry before the first larger address. -/
def Memory.insert (a : Nat) (v : Byte) : Memory → Memory
  | [] => [(a, v)]
  | (a', v') :: m => if a < a' then (a, v) :: (a', v') :: m else (a', v') :: Memory.insert a v m

/-- Replace the byte at an address.  Writing what an unlisted address reads as removes the entry. -/
def Memory.write (m : Memory) (a : Nat) (v : Byte) : Memory :=
  if v = Memory.unlisted then m.filter (fun c => c.1 != a)
  else Memory.insert a v (m.filter (fun c => c.1 != a))

/-- The memory of a plane space. -/
def Planes.get (ps : Planes) : Plane → Memory
  | .pr => ps.pr
  | .pg => ps.pg
  | .pb => ps.pb
  | .py => ps.py
  | .pcb => ps.pcb
  | .pcr => ps.pcr

/-- Replace the memory of one plane space. -/
def Planes.set (ps : Planes) (p : Plane) (m : Memory) : Planes :=
  match p with
  | .pr => { ps with pr := m }
  | .pg => { ps with pg := m }
  | .pb => { ps with pb := m }
  | .py => { ps with py := m }
  | .pcb => { ps with pcb := m }
  | .pcr => { ps with pcr := m }

/-- Every plane is in canonical form and lists only locations it has (R40). -/
def Planes.wf (c : Config) (ps : Planes) : Bool :=
  [Plane.pr, Plane.pg, Plane.pb, Plane.py, Plane.pcb, Plane.pcr].all fun p =>
    Memory.wf (ps.get p) && Memory.inRange (planeSize c p) (ps.get p)

/-- `MemRead(S, a, 1)` (R42). -/
def State.peek (s : State) (p : Plane) (a : Nat) : Byte := Memory.read (s.planes.get p) a

/-- `MemWrite(S, a, 1, v)` (R42). -/
def State.poke (s : State) (p : Plane) (a : Nat) (v : Byte) : State :=
  { s with planes := s.planes.set p (Memory.write (s.planes.get p) a v) }

/-- The four samples of a block, lane by lane, from a full-resolution plane (R114, R115). -/
def State.loadPixels (s : State) (p : Plane) (br bc : Nat) : Quad Byte :=
  quadOf fun q => s.peek p (pixelAddr s.cfg br bc q)

/-- The four neighbour slots of a block from a chroma plane (R115). -/
def State.loadNeighbours (s : State) (p : Plane) (br bc : Nat) : Quad Byte :=
  quadOf fun n => s.peek p (neighbourAddr s.cfg br bc n)

/-- Store the four samples of a block, lane by lane, to a full-resolution plane (R116, R117). -/
def State.storePixels (s : State) (p : Plane) (br bc : Nat) (v : Quad Byte) : State :=
  (((s.poke p (pixelAddr s.cfg br bc 0) v.l0).poke p (pixelAddr s.cfg br bc 1) v.l1).poke p
    (pixelAddr s.cfg br bc 2) v.l2).poke p (pixelAddr s.cfg br bc 3) v.l3

/-! Window registers (R20 to R23). -/

/-- The content of window register `n`: `none` while `VALID[n] = 0` (R23, R37). -/
def State.reg (s : State) (n : Fin 32) : Option Byte := s.regs[n.val]

/-- `x[n]` as a source: an invalid register raises `UNINIT_REG` (R14, R23). -/
def State.readReg (s : State) (n : Fin 32) : Except ErrCode Byte :=
  match s.reg n with
  | some v => .ok v
  | none => .error .uninitReg

/-- `x[n] <- v`: the register holds `v` and is valid (R14, R23). -/
def State.writeReg (s : State) (n : Fin 32) (v : Byte) : State :=
  { s with regs := s.regs.set n.val (some v) n.isLt }

/-- Read the four registers of a bank; any invalid one raises `UNINIT_REG` (R22, R136). -/
def State.readBank (s : State) (bank : Bank) : Except ErrCode (Quad Byte) := do
  let v0 ← s.readReg (bankReg bank 0)
  let v1 ← s.readReg (bankReg bank 1)
  let v2 ← s.readReg (bankReg bank 2)
  let v3 ← s.readReg (bankReg bank 3)
  return ⟨v0, v1, v2, v3⟩

/-- Write (and validate) the four registers of a bank (R22). -/
def State.writeBank (s : State) (bank : Bank) (v : Quad Byte) : State :=
  (((s.writeReg (bankReg bank 0) v.l0).writeReg (bankReg bank 1) v.l1).writeReg (bankReg bank 2) v.l2).writeReg
    (bankReg bank 3) v.l3

/-- `VALID[n] <- 0` for all 32 registers (R23, R36, R122, R123). -/
def State.invalidateAll (s : State) : State := { s with regs := Vector.replicate 32 none }

/-! Responses, errors, reset. -/

/-- `rsp <- v` (R12, R14). -/
def State.respond (s : State) (v : Word) : State := { s with responses := s.responses ++ [v] }

/-- `STATUS.ERR = 1`: a command error has been taken since reset, and the engine is halted (R28, R138). -/
def State.halted (s : State) : Bool := s.err.isSome

/-- ERROR ENTRY (R135), the one way a command error is taken: with `STATUS.ERR = 0` the cause and the command
word are recorded and nothing else changes; in the halted state no second error is recorded (R138). -/
def State.takeError (s : State) (code : ErrCode) (w : Word) : State :=
  match s.err with
  | none => { s with err := some { code := code, cmd := w } }
  | some _ => s

/-- RESET (R36, R150), the only way out of the halted state (R139): every register invalid, no error; the planes
are not touched (R151), and the run's response sequence starts again (R160; DESIGN CHOICE, log entry 6). -/
def State.resetEngine (s : State) : State :=
  { s with regs := Vector.replicate 32 none, err := none, responses := [] }

/-- The position check of a format `B` command (R134). -/
def checkBlock (c : Config) (br bc : Nat) : Except ErrCode Unit :=
  if blockInRaster c br bc then .ok () else .error .badBlock

/-- What becomes of a command whose body has been worked out: it completes entirely, or it takes its error and
changes nothing else (R12, R14, R135). -/
def State.settle (s : State) (w : Word) : Except ErrCode State → State
  | .ok t => t
  | .error code => s.takeError code w

/-- ONE COMMAND, the shape of every meaning: discarded while the engine is halted (R138), else its body runs as
one atomic step (R12; DEDUCED, log entry 14). -/
def runCommand (i : Instr) (body : State → Except ErrCode State) (s : State) :
    Host.Outcome State Fault Refusal :=
  if s.halted then .next s else .next (s.settle (encode i) (body s))

/-- A word that decodes to nothing: discarded while the engine is halted (R138), else `ILLEGAL_CMD` (R132). -/
def runIllegal (w : Word) (s : State) : Host.Outcome State Fault Refusal :=
  if s.halted then .next s else .next (s.takeError .illegalCmd w)

end Sys2Proof.Machine
end

