-- ==== Sys2Proof/Machine/Forward.lean ====
section
/-! DEFINITION. The meanings of `LUMA`, `CHROMA`, `DS` and `FWDW` (41_forward.md). -/

namespace Sys2Proof.Machine

/-- `LUMA` (R94): the luma of the four pixels. -/
def lumaBody (s : State) : Except ErrCode State := do
  let r ← s.readBank .r
  let g ← s.readBank .g
  let b ← s.readBank .b
  return s.writeBank .y (lanes3 (lumaPx s.cfg) r g b)

/-- `CHROMA` (R95): the clamped chroma of the four pixels. -/
def chromaBody (s : State) : Except ErrCode State := do
  let r ← s.readBank .r
  let g ← s.readBank .g
  let b ← s.readBank .b
  return (s.writeBank .cb (lanes3 (cbPx s.cfg) r g b)).writeBank .cr (lanes3 (crPx s.cfg) r g b)

/-- `DS` (R96): downsample the clamped chroma of the block (R98) into slot 0. -/
def dsBody (s : State) : Except ErrCode State := do
  let cb ← s.readBank .cb
  let cr ← s.readBank .cr
  return (s.writeReg (bankReg .cbs 0) (down4 cb)).writeReg (bankReg .crs 0) (down4 cr)

/-- `FWDW` (R97): the whole forward transform on the window registers; the downsample works on the chroma just
written. -/
def fwdwBody (s : State) : Except ErrCode State := do
  let r ← s.readBank .r
  let g ← s.readBank .g
  let b ← s.readBank .b
  let cb := lanes3 (cbPx s.cfg) r g b
  let cr := lanes3 (crPx s.cfg) r g b
  return ((((s.writeBank .y (lanes3 (lumaPx s.cfg) r g b)).writeBank .cb cb).writeBank .cr cr).writeReg
    (bankReg .cbs 0) (down4 cb)).writeReg (bankReg .crs 0) (down4 cr)

/-- The meaning of `LUMA` (R94). -/
def execLuma (s : State) : Host.Outcome State Fault Refusal := runCommand .luma lumaBody s

/-- The meaning of `CHROMA` (R95). -/
def execChroma (s : State) : Host.Outcome State Fault Refusal := runCommand .chroma chromaBody s

/-- The meaning of `DS` (R96). -/
def execDs (s : State) : Host.Outcome State Fault Refusal := runCommand .ds dsBody s

/-- The meaning of `FWDW` (R97). -/
def execFwdw (s : State) : Host.Outcome State Fault Refusal := runCommand .fwdw fwdwBody s

end Sys2Proof.Machine
end

