-- ==== Sys2Proof/Machine/Inverse.lean ====
section
/-! DEFINITION. The meanings of `US`, `RECON` and `INVW` (42_inverse.md). -/

namespace Sys2Proof.Machine

/-- Write the RGB banks with the reconstruction of the four pixels (R101, R103). -/
def State.writeRecon (s : State) (y cb cr : Quad Byte) : State :=
  ((s.writeBank .r (lanes2 (reconRed s.cfg) y cr)).writeBank .g (lanes3 (reconGreen s.cfg) y cb cr)).writeBank
    .b (lanes2 (reconBlue s.cfg) y cb)

/-- `US` (R102): upsample both chroma channels from their neighbour slots. -/
def usBody (s : State) : Except ErrCode State := do
  let cbs ← s.readBank .cbs
  let crs ← s.readBank .crs
  return (s.writeBank .cb (up4 cbs)).writeBank .cr (up4 crs)

/-- `RECON` (R103): the RGB of the four pixels from their luma and upsampled chroma. -/
def reconBody (s : State) : Except ErrCode State := do
  let y ← s.readBank .y
  let cb ← s.readBank .cb
  let cr ← s.readBank .cr
  return s.writeRecon y cb cr

/-- `INVW` (R104): the whole inverse transform on the window registers; only the external sources are checked,
so an invalid `Y` register leaves `CB`, `CR` unchanged. -/
def invwBody (s : State) : Except ErrCode State := do
  let y ← s.readBank .y
  let cbs ← s.readBank .cbs
  let crs ← s.readBank .crs
  return ((s.writeBank .cb (up4 cbs)).writeBank .cr (up4 crs)).writeRecon y (up4 cbs) (up4 crs)

/-- The meaning of `US` (R102). -/
def execUs (s : State) : Host.Outcome State Fault Refusal := runCommand .us usBody s

/-- The meaning of `RECON` (R103). -/
def execRecon (s : State) : Host.Outcome State Fault Refusal := runCommand .recon reconBody s

/-- The meaning of `INVW` (R104). -/
def execInvw (s : State) : Host.Outcome State Fault Refusal := runCommand .invw invwBody s

end Sys2Proof.Machine
end

