-- ==== Sys2Proof/Machine/LoadStore.lean ====
section
/-! DEFINITION. The meanings of `LDRGB`, `LDYCC`, `STYCC` and `STRGB` (43_window_access.md section 2). -/

namespace Sys2Proof.Machine

/-- Write the forward results of a block to the YCbCr planes: four luma samples and one chroma pair (R116). -/
def State.storeYcc (s : State) (br bc : Nat) (y : Quad Byte) (cb cr : Byte) : State :=
  ((s.storePixels .py br bc y).poke .pcb (addrChroma s.cfg br bc) cb).poke .pcr (addrChroma s.cfg br bc) cr

/-- Write the RGB samples of a block to the RGB planes (R117). -/
def State.storeRgb (s : State) (br bc : Nat) (r g b : Quad Byte) : State :=
  ((s.storePixels .pr br bc r).storePixels .pg br bc g).storePixels .pb br bc b

/-- `LDRGB br, bc` (R114): load the RGB window of a block. -/
def ldrgbBody (br bc : Nat) (s : State) : Except ErrCode State := do
  checkBlock s.cfg br bc
  return ((s.writeBank .r (s.loadPixels .pr br bc)).writeBank .g (s.loadPixels .pg br bc)).writeBank .b
    (s.loadPixels .pb br bc)

/-- `LDYCC br, bc` (R115): load the luma window and the eight chroma neighbour slots of a block. -/
def ldyccBody (br bc : Nat) (s : State) : Except ErrCode State := do
  checkBlock s.cfg br bc
  return ((s.writeBank .y (s.loadPixels .py br bc)).writeBank .cbs (s.loadNeighbours .pcb br bc)).writeBank
    .crs (s.loadNeighbours .pcr br bc)

/-- `STYCC br, bc` (R116): store the forward results of a block; the position is checked before the registers. -/
def styccBody (br bc : Nat) (s : State) : Except ErrCode State := do
  checkBlock s.cfg br bc
  let y ← s.readBank .y
  let cb ← s.readReg (bankReg .cbs 0)
  let cr ← s.readReg (bankReg .crs 0)
  return s.storeYcc br bc y cb cr

/-- `STRGB br, bc` (R117): store the reconstructed RGB of a block. -/
def strgbBody (br bc : Nat) (s : State) : Except ErrCode State := do
  checkBlock s.cfg br bc
  let r ← s.readBank .r
  let g ← s.readBank .g
  let b ← s.readBank .b
  return s.storeRgb br bc r g b

/-- The meaning of `LDRGB` (R114). -/
def execLdrgb (br bc : Nat) (s : State) : Host.Outcome State Fault Refusal :=
  runCommand (.ldrgb br bc) (ldrgbBody br bc) s

/-- The meaning of `LDYCC` (R115). -/
def execLdycc (br bc : Nat) (s : State) : Host.Outcome State Fault Refusal :=
  runCommand (.ldycc br bc) (ldyccBody br bc) s

/-- The meaning of `STYCC` (R116). -/
def execStycc (br bc : Nat) (s : State) : Host.Outcome State Fault Refusal :=
  runCommand (.stycc br bc) (styccBody br bc) s

/-- The meaning of `STRGB` (R117). -/
def execStrgb (br bc : Nat) (s : State) : Host.Outcome State Fault Refusal :=
  runCommand (.strgb br bc) (strgbBody br bc) s

end Sys2Proof.Machine
end

