-- ==== Sys2Proof/Machine/BlockPlane.lean ====
section
/-! DEFINITION. The meanings of `FWDBLK`, `INVBLK`, `FWDPLN` and `INVPLN` (44_block_and_plane.md). -/

namespace Sys2Proof.Machine

/-- `FWDBLK br, bc` (R120): the effects, in order, of `LDRGB br, bc`, `FWDW`, `STYCC br, bc`. -/
def fwdblkBody (br bc : Nat) (s : State) : Except ErrCode State := do
  let loaded ← ldrgbBody br bc s
  let transformed ← fwdwBody loaded
  styccBody br bc transformed

/-- `INVBLK br, bc` (R121): the effects, in order, of `LDYCC br, bc`, `INVW`, `STRGB br, bc`. -/
def invblkBody (br bc : Nat) (s : State) : Except ErrCode State := do
  let loaded ← ldyccBody br bc s
  let transformed ← invwBody loaded
  strgbBody br bc transformed

/-- The effects of a block command on each block of a list, one after the other. -/
def overBlocks (body : Nat → Nat → State → Except ErrCode State) :
    List (Nat × Nat) → State → Except ErrCode State
  | [], s => .ok s
  | (br, bc) :: rest, s => do
    let t ← body br bc s
    overBlocks body rest t

/-- `FWDPLN` (R122): the effects of `FWDBLK` for every block, then every valid bit cleared. -/
def fwdplnBody (s : State) : Except ErrCode State := do
  let t ← overBlocks fwdblkBody (rasterBlocks s.cfg) s
  return t.invalidateAll

/-- `INVPLN` (R123): the effects of `INVBLK` for every block, then every valid bit cleared. -/
def invplnBody (s : State) : Except ErrCode State := do
  let t ← overBlocks invblkBody (rasterBlocks s.cfg) s
  return t.invalidateAll

/-- The meaning of `FWDBLK` (R120). -/
def execFwdblk (br bc : Nat) (s : State) : Host.Outcome State Fault Refusal :=
  runCommand (.fwdblk br bc) (fwdblkBody br bc) s

/-- The meaning of `INVBLK` (R121). -/
def execInvblk (br bc : Nat) (s : State) : Host.Outcome State Fault Refusal :=
  runCommand (.invblk br bc) (invblkBody br bc) s

/-- The meaning of `FWDPLN` (R122). -/
def execFwdpln (s : State) : Host.Outcome State Fault Refusal := runCommand .fwdpln fwdplnBody s

/-- The meaning of `INVPLN` (R123). -/
def execInvpln (s : State) : Host.Outcome State Fault Refusal := runCommand .invpln invplnBody s

end Sys2Proof.Machine
end

