-- ==== Sys2Proof/Machine/Flags.lean ====
section
/-! DEFINITION. What the host sees of the engine's status: the 20 CSRs (R27 to R32) and the output ports (R11).
There are no arithmetic flags and no command writes one (R26): the only status bits are those of `STATUS`. -/

namespace Sys2Proof.Machine

/-- The value of `STATUS.ECODE` for a cause (R131). -/
def errCodeNumber : ErrCode → Nat
  | .illegalCmd => 1
  | .badCsr => 2
  | .badBlock => 3
  | .uninitReg => 4

/-- `STATUS` (R28): bit 0 `ERR`, bits 7:4 `ECODE`, every other bit 0. -/
def statusWord (s : State) : Word :=
  match s.err with
  | none => 0
  | some e => BitVec.ofNat 32 (1 + errCodeNumber e.code * 2 ^ 4)

/-- `ERRCMD` (R29): the command word of the first error, 0 when there is none. -/
def errcmdWord (s : State) : Word :=
  match s.err with
  | none => 0
  | some e => e.cmd

/-- The number whose bit `n` is element `n` of the list. -/
def maskOf : List Bool → Nat
  | [] => 0
  | b :: bs => Nat.bit b (maskOf bs)

/-- `WVALID` (R30): bit `n` is `VALID[n]`. -/
def wvalidWord (s : State) : Word := BitVec.ofNat 32 (maskOf (s.regs.toList.map Option.isSome))

/-- `DIM` (R31): `ROWS` in bits 15:0, `COLS` in bits 31:16. -/
def dimWord (c : Config) : Word := BitVec.ofNat 32 (c.cols * 2 ^ 16 + c.rows)

/-- The CSR with a number, or `none` for an undefined number (R27, R133). -/
def csrOfNumber (n : Nat) : Option Csr :=
  match n with
  | 0x00 => some .status
  | 0x01 => some .errcmd
  | 0x02 => some .wvalid
  | 0x03 => some .dim
  | 0x04 => some .kshift
  | 0x10 => some .c11
  | 0x11 => some .c12
  | 0x12 => some .c13
  | 0x13 => some .c21
  | 0x14 => some .c22
  | 0x15 => some .c23
  | 0x16 => some .c31
  | 0x17 => some .c32
  | 0x18 => some .c33
  | 0x20 => some .d1
  | 0x21 => some .d2
  | 0x22 => some .d3
  | 0x23 => some .d4
  | 0x24 => some .d5
  | 0x3F => some .version
  | _ => none

/-- The 32-bit word of a CSR (R28 to R32). -/
def csrWord (s : State) : Csr → Word
  | .status => statusWord s
  | .errcmd => errcmdWord s
  | .wvalid => wvalidWord s
  | .dim => dimWord s.cfg
  | .kshift => BitVec.ofNat 32 s.cfg.k
  | .c11 => BitVec.ofNat 32 s.cfg.c11
  | .c12 => BitVec.ofNat 32 s.cfg.c12
  | .c13 => BitVec.ofNat 32 s.cfg.c13
  | .c21 => BitVec.ofNat 32 s.cfg.c21
  | .c22 => BitVec.ofNat 32 s.cfg.c22
  | .c23 => BitVec.ofNat 32 s.cfg.c23
  | .c31 => BitVec.ofNat 32 s.cfg.c31
  | .c32 => BitVec.ofNat 32 s.cfg.c32
  | .c33 => BitVec.ofNat 32 s.cfg.c33
  | .d1 => BitVec.ofNat 32 s.cfg.d1
  | .d2 => BitVec.ofNat 32 s.cfg.d2
  | .d3 => BitVec.ofNat 32 s.cfg.d3
  | .d4 => BitVec.ofNat 32 s.cfg.d4
  | .d5 => BitVec.ofNat 32 s.cfg.d5
  | .version => 0x00010000

/-! The output ports as they stand between two steps (R11, R36).  A step is one whole command, so no command is
in progress and no response is waiting there (DEDUCED, log entry 5). -/

/-- `err`: equal to `STATUS.ERR` (R11, R28). -/
def errPort (s : State) : Bool := s.halted

/-- `cmd_ready`: 1 between commands, in the halted state too (R36, R138). -/
def cmdReadyPort (_ : State) : Bool := true

/-- `rsp_valid`: 0 between commands (R36, R153). -/
def rspValidPort (_ : State) : Bool := false

end Sys2Proof.Machine
end

