-- ==== Sys2Proof/Machine/RegisterAccess.lean ====
section
/-! DEFINITION. The meanings of `NOP`, `WRW`, `RDW` and `RDCSR` (43_window_access.md section 1). -/

namespace Sys2Proof.Machine

/-- `NOP` (R110): nothing. -/
def nopBody (s : State) : Except ErrCode State := .ok s

/-- `WRW reg, imm8` (R111): the host writes one window register. -/
def wrwBody (reg : Fin 32) (imm8 : Byte) (s : State) : Except ErrCode State := .ok (s.writeReg reg imm8)

/-- `RDW reg` (R112): the host reads one window register; bits 31:8 of the response are 0. -/
def rdwBody (reg : Fin 32) (s : State) : Except ErrCode State := do
  let v ← s.readReg reg
  return s.respond (BitVec.setWidth 32 v)

/-- `RDCSR csr` with an undefined number (R113, R133). -/
def undefinedCsrBody (_ : State) : Except ErrCode State := .error .badCsr

/-- The meaning of `NOP` (R110). -/
def execNop (s : State) : Host.Outcome State Fault Refusal := runCommand .nop nopBody s

/-- The meaning of `WRW` (R111). -/
def execWrw (reg : Fin 32) (imm8 : Byte) (s : State) : Host.Outcome State Fault Refusal :=
  runCommand (.wrw reg imm8) (wrwBody reg imm8) s

/-- The meaning of `RDW` (R112). -/
def execRdw (reg : Fin 32) (s : State) : Host.Outcome State Fault Refusal :=
  runCommand (.rdw reg) (rdwBody reg) s

/-- The meaning of `RDCSR` (R113): of a defined number it responds whether or not the engine is halted (R138);
an undefined number raises `BAD_CSR`, or is discarded while the engine is halted. -/
def execRdcsr (csr : Nat) (s : State) : Host.Outcome State Fault Refusal :=
  match csrOfNumber csr with
  | some c => .next (s.respond (csrWord s c))
  | none => runCommand (.rdcsr csr) undefinedCsrBody s

end Sys2Proof.Machine
end

