-- ==== Sys2Proof/Machine/Dispatch.lean ====
section
/-! DEFINITION. One arm per command of the opcode table (R66). -/

namespace Sys2Proof.Machine

def exec (i : Instr) (s : State) : Host.Outcome State Fault Refusal :=
  match i with
  | .nop => Sys2Proof.Machine.execNop s
  | .wrw reg imm8 => Sys2Proof.Machine.execWrw reg imm8 s
  | .rdw reg => Sys2Proof.Machine.execRdw reg s
  | .rdcsr csr => Sys2Proof.Machine.execRdcsr csr s
  | .ldrgb br bc => Sys2Proof.Machine.execLdrgb br bc s
  | .ldycc br bc => Sys2Proof.Machine.execLdycc br bc s
  | .stycc br bc => Sys2Proof.Machine.execStycc br bc s
  | .strgb br bc => Sys2Proof.Machine.execStrgb br bc s
  | .luma => Sys2Proof.Machine.execLuma s
  | .chroma => Sys2Proof.Machine.execChroma s
  | .ds => Sys2Proof.Machine.execDs s
  | .us => Sys2Proof.Machine.execUs s
  | .recon => Sys2Proof.Machine.execRecon s
  | .fwdw => Sys2Proof.Machine.execFwdw s
  | .invw => Sys2Proof.Machine.execInvw s
  | .fwdblk br bc => Sys2Proof.Machine.execFwdblk br bc s
  | .invblk br bc => Sys2Proof.Machine.execInvblk br bc s
  | .fwdpln => Sys2Proof.Machine.execFwdpln s
  | .invpln => Sys2Proof.Machine.execInvpln s

end Sys2Proof.Machine
end

