-- ==== Sys2Proof/Machine/HostPort.lean ====
section
/-! DEFINITION. What each move of the host does (R159): the command port (R12), reset (R150), plane writes
between commands (R153). -/

namespace Sys2Proof.Machine

/-- A command word arrives: it is decoded and executed, or it is illegal (R12, R70, R132). -/
def runWord (w : Word) (s : State) : Host.Outcome State Fault Refusal :=
  match decode w with
  | .ok i => exec i s
  | .error _ => runIllegal w s

/-- The planes when a command that would end in `t` is abandoned after the writes listed in `landed` were made:
each listed location holds what `t` holds there, every other location its old value (R150, 93 U5). -/
def State.landWrites (t : State) : List (Plane × Nat) → State → State
  | [], s => s
  | (p, a) :: rest, s => State.landWrites t rest (s.poke p a (t.peek p a))

/-- A command word whose execution is cut short by `rst` (R150): some of its writes land, then the engine is
reset. -/
def runWordThenReset (w : Word) (landed : List (Plane × Nat)) (s : State) :
    Host.Outcome State Fault Refusal :=
  match runWord w s with
  | .next t => .next (State.landWrites t landed s).resetEngine
  | .fault f => .fault f
  | .refused r => .refused r

/-- The host writes a plane location (R153); a location the plane does not have stops the run (R40, 93 U2). -/
def hostWrite (p : Plane) (a : Nat) (v : Byte) (s : State) : Host.Outcome State Fault Refusal :=
  if a < planeSize s.cfg p then .next (s.poke p a v) else .fault .hostPlaneAddress

/-- One move of the host (R159). -/
def applyMove (m : HostMove) (s : State) : Host.Outcome State Fault Refusal :=
  match m with
  | .command w => runWord w s
  | .reset => .next s.resetEngine
  | .commandThenReset w landed => runWordThenReset w landed s
  | .writePlane p a v => hostWrite p a v s

/-- The next move is made; with no move to come the engine is idle and holds its state (R147, R150;
DEDUCED, log entry 12). -/
def serveInputs (s : State) : Host.Outcome State Fault Refusal :=
  match s.inputs with
  | [] => .next s
  | m :: rest => applyMove m { s with inputs := rest }

/-- The host sends a word as its next move: where the next step takes its command from (R25). -/
def State.sendNext (s : State) (w : Word) : State := { s with inputs := .command w :: s.inputs }

end Sys2Proof.Machine
end

