-- ==== Sys2Proof/Machine/Step.lean ====
section
/-! DEFINITION. One step: one move of the host, served to its end (R12); an engine with ill-formed parameters is
refused (R5, R7). -/

namespace Sys2Proof.Machine

/-- One step of the engine.  There is no program counter and no fetch: what executes next is whatever word the
host sends next (R25), so the step takes the first of the host's moves. -/
def step (s : State) : Host.Outcome State Fault Refusal :=
  if s.cfg.wf then serveInputs s else .refused .illFormedConfig

/-- The command word of a table row made the very next thing the host sends (log entry 7). -/
def State.withFetchWord (s : State) (nbits w : Nat) : State := s.sendNext (tableWord nbits w)

end Sys2Proof.Machine
end

