-- ==== Sys2Proof/Safety.lean ====
section
/-! DEFINITION. The terms claims are stated in: the invariant, a clean run, which registers and locations a command
reads and writes by the manual's own tables (R22, R43), and what it means that the rest is unchanged. -/

namespace Sys2Proof.Machine

/-- The invariant of the model: the parameters can be built (R5, R7), and every plane memory is in canonical form
and lists only locations the plane has (R40). -/
def State.Inv (s : State) : Prop := s.cfg.wf = true ∧ s.planes.wf s.cfg = true

/-- A run is clean when no command error has been taken at its end (R160). -/
def State.clean (s : State) : Prop := s.err = none

/-- The four window registers of a bank (R21). -/
def bankRegs (bank : Bank) : List (Fin 32) := [bankReg bank 0, bankReg bank 1, bankReg bank 2, bankReg bank 3]

/-- The "reads" column of the table of R22: the registers that must be valid. -/
def sources : Instr → List (Fin 32)
  | .nop => []
  | .wrw _ _ => []
  | .rdw reg => [reg]
  | .rdcsr _ => []
  | .ldrgb _ _ => []
  | .ldycc _ _ => []
  | .stycc _ _ => bankRegs .y ++ [bankReg .cbs 0, bankReg .crs 0]
  | .strgb _ _ => bankRegs .r ++ bankRegs .g ++ bankRegs .b
  | .luma => bankRegs .r ++ bankRegs .g ++ bankRegs .b
  | .chroma => bankRegs .r ++ bankRegs .g ++ bankRegs .b
  | .ds => bankRegs .cb ++ bankRegs .cr
  | .us => bankRegs .cbs ++ bankRegs .crs
  | .recon => bankRegs .y ++ bankRegs .cb ++ bankRegs .cr
  | .fwdw => bankRegs .r ++ bankRegs .g ++ bankRegs .b
  | .invw => bankRegs .y ++ bankRegs .cbs ++ bankRegs .crs
  | .fwdblk _ _ => []
  | .invblk _ _ => []
  | .fwdpln => []
  | .invpln => []

/-- The "writes (and validates)" column of the table of R22.  The plane commands keep nothing: they end with every
register invalid (R23), so their list is empty and `State.reg` is `none` everywhere after them. -/
def destinations : Instr → List (Fin 32)
  | .nop => []
  | .wrw reg _ => [reg]
  | .rdw _ => []
  | .rdcsr _ => []
  | .ldrgb _ _ => bankRegs .r ++ bankRegs .g ++ bankRegs .b
  | .ldycc _ _ => bankRegs .y ++ bankRegs .cbs ++ bankRegs .crs
  | .stycc _ _ => []
  | .strgb _ _ => []
  | .luma => bankRegs .y
  | .chroma => bankRegs .cb ++ bankRegs .cr
  | .ds => [bankReg .cbs 0, bankReg .crs 0]
  | .us => bankRegs .cb ++ bankRegs .cr
  | .recon => bankRegs .r ++ bankRegs .g ++ bankRegs .b
  | .fwdw => bankRegs .y ++ bankRegs .cb ++ bankRegs .cr ++ [bankReg .cbs 0, bankReg .crs 0]
  | .invw => bankRegs .cb ++ bankRegs .cr ++ bankRegs .r ++ bankRegs .g ++ bankRegs .b
  | .fwdblk _ _ =>
    bankRegs .r ++ bankRegs .g ++ bankRegs .b ++ bankRegs .y ++ bankRegs .cb ++ bankRegs .cr ++
      [bankReg .cbs 0, bankReg .crs 0]
  | .invblk _ _ =>
    bankRegs .r ++ bankRegs .g ++ bankRegs .b ++ bankRegs .y ++ bankRegs .cb ++ bankRegs .cr ++
      bankRegs .cbs ++ bankRegs .crs
  | .fwdpln => []
  | .invpln => []

/-- The four locations of a block in one full-resolution plane (R41). -/
def pixelLocations (c : Config) (p : Plane) (br bc : Nat) : List (Plane × Nat) :=
  [(p, pixelAddr c br bc 0), (p, pixelAddr c br bc 1), (p, pixelAddr c br bc 2), (p, pixelAddr c br bc 3)]

/-- What storing the forward results of a block writes (R116). -/
def yccLocations (c : Config) (br bc : Nat) : List (Plane × Nat) :=
  pixelLocations c .py br bc ++ [(.pcb, addrChroma c br bc), (.pcr, addrChroma c br bc)]

/-- What storing the RGB of a block writes (R117). -/
def rgbLocations (c : Config) (br bc : Nat) : List (Plane × Nat) :=
  pixelLocations c .pr br bc ++ pixelLocations c .pg br bc ++ pixelLocations c .pb br bc

/-- The "writes" column of the table of R43: the plane locations a command stores to. -/
def storedLocations (c : Config) : Instr → List (Plane × Nat)
  | .nop => []
  | .wrw _ _ => []
  | .rdw _ => []
  | .rdcsr _ => []
  | .ldrgb _ _ => []
  | .ldycc _ _ => []
  | .stycc br bc => yccLocations c br bc
  | .strgb br bc => rgbLocations c br bc
  | .luma => []
  | .chroma => []
  | .ds => []
  | .us => []
  | .recon => []
  | .fwdw => []
  | .invw => []
  | .fwdblk br bc => yccLocations c br bc
  | .invblk br bc => rgbLocations c br bc
  | .fwdpln => (rasterBlocks c).flatMap fun b => yccLocations c b.1 b.2
  | .invpln => (rasterBlocks c).flatMap fun b => rgbLocations c b.1 b.2

/-- The block position of a format `B` command (R62). -/
def blockOf : Instr → Option (Nat × Nat)
  | .nop => none
  | .wrw _ _ => none
  | .rdw _ => none
  | .rdcsr _ => none
  | .ldrgb br bc => some (br, bc)
  | .ldycc br bc => some (br, bc)
  | .stycc br bc => some (br, bc)
  | .strgb br bc => some (br, bc)
  | .luma => none
  | .chroma => none
  | .ds => none
  | .us => none
  | .recon => none
  | .fwdw => none
  | .invw => none
  | .fwdblk br bc => some (br, bc)
  | .invblk br bc => some (br, bc)
  | .fwdpln => none
  | .invpln => none

/-- A format `B` command names a block of the raster: `br <= BR_MAX` and `bc <= BC_MAX` (R62, R134). -/
def positionLegal (c : Config) (i : Instr) : Prop :=
  ∀ br bc, blockOf i = some (br, bc) → br ≤ c.brMax ∧ bc ≤ c.bcMax

/-- The 20 defined CSR numbers (R133). -/
def definedCsrNumbers : List Nat :=
  [0x00, 0x01, 0x02, 0x03, 0x04,
   0x10, 0x11, 0x12, 0x13, 0x14, 0x15, 0x16, 0x17, 0x18,
   0x20, 0x21, 0x22, 0x23, 0x24, 0x3F]

/-- An `RDCSR` names a defined CSR (R133). -/
def csrLegal (i : Instr) : Prop := ∀ csr, i = .rdcsr csr → csr ∈ definedCsrNumbers

/-- The two plane commands, which end with every register invalid (R23). -/
def isPlaneCommand (i : Instr) : Bool := decide (i = .fwdpln) || decide (i = .invpln)

/-- The command takes a command error (R135): the cause and its own word are recorded, nothing else changes. -/
def Raises (i : Instr) (s : State) (code : ErrCode) : Prop :=
  exec i s = .next { s with err := some { code := code, cmd := encode i } }

/-- Commands executed one after the other, each to completion before the next (R12). -/
def execAll : List Instr → State → Host.Outcome State Fault Refusal
  | [], s => .next s
  | i :: rest, s =>
    match exec i s with
    | .next t => execAll rest t
    | .fault f => .fault f
    | .refused r => .refused r

/-- Between `s` and `t` no window register changes, value or valid bit, except those of `regs`. -/
def SameRegistersBut (regs : List (Fin 32)) (s t : State) : Prop := ∀ n, n ∉ regs → t.reg n = s.reg n

/-- Between `s` and `t` no byte of any plane changes except those of `locations`. -/
def SameBytesBut (locations : List (Plane × Nat)) (s t : State) : Prop :=
  ∀ p a, (p, a) ∉ locations → t.peek p a = s.peek p a

/-- `t` differs from `s` in the given registers and plane locations at most, and has sent the given responses
besides: the parameters, the error state and the host's moves to come are the same. -/
structure FrameBut (regs : List (Fin 32)) (locations : List (Plane × Nat)) (sent : List Word)
    (s t : State) : Prop where
  registers : SameRegistersBut regs s t
  bytes     : SameBytesBut locations s t
  responses : t.responses = s.responses ++ sent
  config    : t.cfg = s.cfg
  error     : t.err = s.err
  inputs    : t.inputs = s.inputs

end Sys2Proof.Machine
end

