-- ==== Sys2Proof/Certificates/Slice0/Obligations.lean ====
section
/-! DEFINITION. The statements about the model, for the provers.  Each docstring names the rule of the spec, or says
that a clause is the model's choice and names its log entry. -/

open Sys2Proof Sys2Proof.Machine

/-! ## Encoding -/

/-- Thirteen words mean the commands that the opcode map says, or nothing: eleven of them stand in 95_test_vectors.md 2.6
and 2.7; the words of `LUMA` and `INVW` stand in R66. -/
def Obligations.SpecWordsDecodeAsListed : Prop :=
  decode 0x00000000 = .ok .nop ∧
  decode 0x00000001 = .error .reservedField ∧
  decode 0x010013FF = .ok (.wrw 19 255) ∧
  decode 0x01002000 = .error .reservedField ∧
  decode 0x02001F00 = .ok (.rdw 31) ∧
  decode 0x0300003F = .ok (.rdcsr 0x3F) ∧
  decode 0x30FFFFFF = .ok (.fwdblk 4095 4095) ∧
  decode 0x10001002 = .ok (.ldrgb 1 2) ∧
  decode 0x20000000 = .ok .luma ∧
  decode 0x29000000 = .ok .invw ∧
  decode 0x25000000 = .error .undefinedOpcode ∧
  decode 0xFFFFFFFF = .error .undefinedOpcode ∧
  decode 0x41000000 = .ok .invpln

/-- Encoding and decoding agree on every well-formed command of every family, every operand at every value its field
admits (R61 to R67, R70). -/
def Obligations.EncodedCommandDecodesBack : Prop :=
  ∀ i : Instr, i.wf = true → decode (encode i) = .ok i

/-- The other direction: a word that decodes is the encoding of what it decodes to, so no bit of a legal word is
ignored and no two words mean one command. -/
def Obligations.DecodedWordIsItsEncoding : Prop :=
  ∀ (w : Word) (i : Instr), decode w = .ok i → i.wf = true ∧ encode i = w

/-- The decoder's rows are those of R66: a word decodes to a command of a mnemonic exactly when the row of that
mnemonic has `(w & mask) == match` (R70). -/
def Obligations.DecodeMatchesTheOpcodeMap : Prop :=
  (∀ (w : Word) (i : Instr), decode w = .ok i →
    ∃ row ∈ opcodeTable, row.mnemonic = i.mnemonic ∧ w &&& row.mask = row.pattern) ∧
  (∀ (w : Word) (row : OpcodeRow), row ∈ opcodeTable → w &&& row.mask = row.pattern →
    ∃ i, decode w = .ok i ∧ i.mnemonic = row.mnemonic)

/-- A stored word is four bytes, the least significant first, and the decoder takes exactly those four (R44, R71). -/
def Obligations.StoredBytesDecodeLittleEndian : Prop :=
  ∀ (w : Word) (rest : List Byte),
    (bytesOfWord w).length = 4 ∧
    (∀ k : Nat, k < 4 → ∃ v, (bytesOfWord w)[k]? = some v ∧ v.toNat = w.toNat / 2 ^ (8 * k) % 2 ^ 8) ∧
    (∀ i, decode w = .ok i → decodeBytes (bytesOfWord w ++ rest) = .ok (i, rest)) ∧
    (∀ e, decode w = .error e → decodeBytes (bytesOfWord w ++ rest) = .error e)

/-! ## The step -/

/-- A step runs the decoded command: with a command word first among the host's moves, the step is `exec` of what the
word decodes to, the move taken off (R12, R25). -/
def Obligations.StepRunsTheDecodedCommand : Prop :=
  ∀ (s : State) (w : Word) (rest : List HostMove) (i : Instr),
    s.cfg.wf = true → s.inputs = .command w :: rest → decode w = .ok i →
    step s = exec i { s with inputs := rest }

/-- A word that matches no row of the opcode map, its opcode being undefined or a reserved field not 0, raises
`ILLEGAL_CMD` (R132, R68, R69) by error entry: the cause and the word are recorded and nothing else changes. -/
def Obligations.IllegalWordTakesIllegalCmd : Prop :=
  ∀ (s : State) (w : Word) (rest : List HostMove),
    s.cfg.wf = true → s.err = none → s.inputs = .command w :: rest →
    (∀ row ∈ opcodeTable, w &&& row.mask ≠ row.pattern) →
    step s = .next { s with inputs := rest, err := some ⟨.illegalCmd, w⟩ }

/-- The other moves of the host between commands (R147, R153): none to come leaves the engine idle; a plane write
changes that one location; a write to a location no plane has is the model's fault (93 U2). -/
def Obligations.HostMovesBetweenCommands : Prop :=
  ∀ (s : State), s.cfg.wf = true →
    (s.inputs = [] → step s = .next s) ∧
    (∀ p a v rest, s.inputs = .writePlane p a v :: rest → a < planeSize s.cfg p →
      ∃ t, step s = .next t ∧ t.peek p a = v ∧ t.regs = s.regs ∧
        FrameBut [] [(p, a)] [] { s with inputs := rest } t) ∧
    (∀ p a v rest, s.inputs = .writePlane p a v :: rest → ¬a < planeSize s.cfg p →
      step s = .fault .hostPlaneAddress)

/-- What reset leaves (R36): every register invalid, no error, the three status CSRs zero, the ports at rest; the
planes and the parameters as they were.  So it is after the reset move (R150, R151), and so it is at power-up with any
parameters and any planes. -/
def Obligations.ResetLeavesTheEngineIdle : Prop :=
  (∀ (s : State) (rest : List HostMove), s.cfg.wf = true → s.inputs = .reset :: rest →
    ∃ t, step s = .next t ∧ (∀ n, t.reg n = none) ∧ t.err = none ∧ csrWord t .status = 0 ∧
      csrWord t .errcmd = 0 ∧ csrWord t .wvalid = 0 ∧ errPort t = false ∧ cmdReadyPort t = true ∧
      rspValidPort t = false ∧ t.planes = s.planes ∧ t.cfg = s.cfg ∧ t.inputs = rest) ∧
  (∀ (c : Config) (ps : Planes) (ms : List HostMove) (t : State), t = State.powerUp c ps ms →
    (∀ n, t.reg n = none) ∧ t.err = none ∧ csrWord t .status = 0 ∧
      csrWord t .errcmd = 0 ∧ csrWord t .wvalid = 0 ∧ errPort t = false ∧ cmdReadyPort t = true ∧
      rspValidPort t = false ∧ t.planes = ps ∧ t.cfg = c ∧ t.inputs = ms)

/-- A reset while a command runs (R150, 93 U5): the engine is reset, and each plane location holds its old value or the
command's, as the host's move says; which ones is unspecified, so the list is any list. -/
def Obligations.AbandonedCommandLandsAnySubset : Prop :=
  ∀ (s u : State) (w : Word) (landed : List (Plane × Nat)) (rest : List HostMove),
    s.cfg.wf = true → s.inputs = .commandThenReset w landed :: rest →
    runWord w { s with inputs := rest } = .next u →
    ∃ t, step s = .next t ∧ (∀ n, t.reg n = none) ∧ t.err = none ∧ t.cfg = s.cfg ∧ t.inputs = rest ∧
      ∀ p a, t.peek p a = if (p, a) ∈ landed then u.peek p a else s.peek p a

/-- Exactly the configurations outside R5 and R7 are refused, and they are refused whatever the host does. -/
def Obligations.ExactlyIllFormedConfigurationsAreRefused : Prop :=
  ∀ s : State,
    (step s = .refused .illFormedConfig ↔
      ¬((2 ≤ s.cfg.rows ∧ s.cfg.rows ≤ 8192 ∧ s.cfg.rows % 2 = 0) ∧
        (2 ≤ s.cfg.cols ∧ s.cfg.cols ≤ 8192 ∧ s.cfg.cols % 2 = 0) ∧
        (1 ≤ s.cfg.k ∧ s.cfg.k ≤ 16) ∧
        ∀ x ∈ [s.cfg.c11, s.cfg.c12, s.cfg.c13, s.cfg.c21, s.cfg.c22, s.cfg.c23, s.cfg.c31, s.cfg.c32,
          s.cfg.c33, s.cfg.d1, s.cfg.d2, s.cfg.d3, s.cfg.d4, s.cfg.d5], x ≤ 2 ^ 20 - 1))

/-! ## Invariants -/

/-- Every step keeps the invariant: a legal configuration, and planes in canonical form that list only locations they
have (R5, R7, R40; the canonical form is the model's own, log entry 3). -/
def Obligations.EveryStepKeepsTheInvariant : Prop :=
  ∀ s t : State, s.Inv → step s = .next t → t.Inv

/-- The invariant holds at reset, and at power-up with any legal parameters and well-formed planes. -/
def Obligations.ResetMeetsTheInvariant : Prop :=
  State.reset.Inv ∧
  ∀ (c : Config) (ps : Planes) (ms : List HostMove), c.wf = true → ps.wf c = true →
    (State.powerUp c ps ms).Inv

/-- No step changes a parameter: the parameters are fixed when the hardware is built (R5, R6, R31, R32). -/
def Obligations.NoStepChangesAParameter : Prop :=
  ∀ s t : State, step s = .next t → t.cfg = s.cfg

/-- Register and error state change only as R23, R28 and R29 say: a valid register turns invalid only by a reset or by
a plane command. -/
def Obligations.ValidBitsFallOnlyByResetOrPlaneCommand : Prop :=
  ∀ (s t : State) (n : Fin 32), step s = .next t → s.reg n ≠ none → t.reg n = none →
    ∃ m rest, s.inputs = m :: rest ∧
      (m = .reset ∨ (∃ w landed, m = .commandThenReset w landed) ∨
        ∃ w, m = .command w ∧ (decode w = .ok .fwdpln ∨ decode w = .ok .invpln))

/-! ## Command errors -/

/-- Error entry is precise (R135): whatever the word, if the step ends in an error then `ERRCMD` is that word, the `err`
port is 1, and nothing else has changed. -/
def Obligations.StepErrorRecordsTheWordItself : Prop :=
  ∀ (s t : State) (w : Word) (rest : List HostMove) (e : ErrRecord),
    s.err = none → s.inputs = .command w :: rest → step s = .next t → t.err = some e →
    e.cmd = w ∧ t = { s with inputs := rest, err := some e } ∧ errPort t = true

/-- The halted state (R138): every word is discarded, unchecked, except an `RDCSR` of a defined number, which responds.
-/
def Obligations.HaltedEngineDiscardsWords : Prop :=
  ∀ (s : State) (w : Word) (rest : List HostMove),
    s.cfg.wf = true → s.err ≠ none → s.inputs = .command w :: rest →
    (∀ csr c, decode w = .ok (.rdcsr csr) → csrOfNumber csr = some c →
      step s = .next { s with inputs := rest, responses := s.responses ++ [csrWord s c] }) ∧
    ((∀ csr c, decode w = .ok (.rdcsr csr) → csrOfNumber csr ≠ some c) →
      step s = .next { s with inputs := rest }) ∧
    cmdReadyPort s = true

/-- No way out of the halted state but reset (R139): any step of a halted engine that is no reset keeps the record. -/
def Obligations.OnlyResetClearsAnError : Prop :=
  ∀ (s t : State) (e : ErrRecord), s.err = some e → step s = .next t →
    t.err = some e ∨
      ∃ rest, s.inputs = .reset :: rest ∨ ∃ w landed, s.inputs = .commandThenReset w landed :: rest

/-- The rest of a run that is not clean (R160): over any number of steps of a halted engine that is sent nothing but
command words, registers, planes and error record stay, and only responses are added. -/
def Obligations.HaltedRunOnlyAddsResponses : Prop :=
  ∀ (n : Nat) (s t : State), s.err ≠ none → (∀ m ∈ s.inputs, ∃ w, m = .command w) →
    Host.Core.run Sys2Proof.core n s = .next t →
    t.regs = s.regs ∧ t.planes = s.planes ∧ t.err = s.err ∧ t.cfg = s.cfg ∧
      ∃ sent, t.responses = s.responses ++ sent

/-- `BAD_BLOCK` (R134) before `UNINIT_REG` (R137): a format `B` command of a block outside the raster takes it, whatever
the registers hold, and no command takes it otherwise: neighbours are not checked. -/
def Obligations.BlockOutsideRasterTakesBadBlock : Prop :=
  (∀ (i : Instr) (br bc : Nat) (s : State), blockOf i = some (br, bc) → s.err = none →
    s.cfg.brMax < br ∨ s.cfg.bcMax < bc → Raises i s .badBlock) ∧
  (∀ (i : Instr) (s t : State) (w : Word), s.err = none → exec i s = .next t → t.err = some ⟨.badBlock, w⟩ →
    ∃ br bc, blockOf i = some (br, bc) ∧ (s.cfg.brMax < br ∨ s.cfg.bcMax < bc))

/-- `UNINIT_REG` (R136): a command that reads an invalid register, by the table of R22, takes it, whatever its other
sources hold, and changes nothing else; no command takes it otherwise, so the block and plane commands, which have no
external source, never do. -/
def Obligations.InvalidSourceTakesUninitReg : Prop :=
  (∀ (i : Instr) (n : Fin 32) (s : State), s.err = none → positionLegal s.cfg i → n ∈ sources i →
    s.reg n = none → Raises i s .uninitReg) ∧
  (∀ (i : Instr) (s t : State) (w : Word), s.err = none → exec i s = .next t →
    t.err = some ⟨.uninitReg, w⟩ → ∃ n ∈ sources i, s.reg n = none)

/-- `RDCSR` (R113, R133): of the 20 defined numbers it responds with the CSR's word in any state and changes nothing
else; any other number raises `BAD_CSR`, or is discarded while the engine is halted. -/
def Obligations.RdcsrRespondsOrTakesBadCsr : Prop :=
  ∀ (csr : Nat) (s : State),
    encode (.rdcsr csr) = BitVec.ofNat 32 (0x03000000 + csr) ∧
    (csr ∈ [0x00, 0x01, 0x02, 0x03, 0x04, 0x10, 0x11, 0x12, 0x13, 0x14, 0x15, 0x16, 0x17, 0x18,
      0x20, 0x21, 0x22, 0x23, 0x24, 0x3F] →
      ∃ c, csrOfNumber csr = some c ∧
        exec (.rdcsr csr) s = .next { s with responses := s.responses ++ [csrWord s c] }) ∧
    (csr ∉ [0x00, 0x01, 0x02, 0x03, 0x04, 0x10, 0x11, 0x12, 0x13, 0x14, 0x15, 0x16, 0x17, 0x18,
      0x20, 0x21, 0x22, 0x23, 0x24, 0x3F] →
      (s.err = none → Raises (.rdcsr csr) s .badCsr) ∧ (s.err ≠ none → exec (.rdcsr csr) s = .next s))

/-! ## What every command does and leaves alone -/

/-- Every command completes when its position and CSR number are legal and its sources are valid (R131, R137), it
raises nothing then, and its destinations by the table of R22 are valid after it. -/
def Obligations.LegalCommandsComplete : Prop :=
  ∀ (i : Instr) (s : State), s.err = none → positionLegal s.cfg i → csrLegal i →
    (∀ n ∈ sources i, s.reg n ≠ none) →
    ∃ t, exec i s = .next t ∧ t.err = none ∧ t.cfg = s.cfg ∧ t.inputs = s.inputs ∧
      ∀ n ∈ destinations i, t.reg n ≠ none

/-- No command changes a window register outside the "writes" column of R22, value or valid bit; the two plane commands
end with every register invalid. -/
def Obligations.CommandsWriteOnlyTheirRegisters : Prop :=
  ∀ (i : Instr) (s t : State), exec i s = .next t →
    (isPlaneCommand i = false → ∀ n, n ∉ destinations i → t.reg n = s.reg n) ∧
    (isPlaneCommand i = true → s.err = none → ∀ n, t.reg n = none)

/-- No command changes a byte of any plane outside the locations it stores to (R43), each computed by the address
functions the meaning uses. -/
def Obligations.CommandsStoreOnlyTheirLocations : Prop :=
  ∀ (i : Instr) (s t : State), exec i s = .next t →
    ∀ p a, (p, a) ∉ storedLocations s.cfg i → t.peek p a = s.peek p a

/-- No command writes a space it could have read its input from (R43, R48): only `STRGB`, `INVBLK`, `INVPLN` change an
RGB byte and only `STYCC`, `FWDBLK`, `FWDPLN` a YCbCr byte. -/
def Obligations.EachDirectionKeepsItsSourcePlanes : Prop :=
  ∀ (i : Instr) (s t : State), exec i s = .next t →
    ((∀ br bc, i ≠ .strgb br bc ∧ i ≠ .invblk br bc) → i ≠ .invpln →
      ∀ a, t.peek .pr a = s.peek .pr a ∧ t.peek .pg a = s.peek .pg a ∧ t.peek .pb a = s.peek .pb a) ∧
    ((∀ br bc, i ≠ .stycc br bc ∧ i ≠ .fwdblk br bc) → i ≠ .fwdpln →
      ∀ a, t.peek .py a = s.peek .py a ∧ t.peek .pcb a = s.peek .pcb a ∧ t.peek .pcr a = s.peek .pcr a)

/-- Exactly two commands produce a response, one word each (R12). -/
def Obligations.OnlyRdwAndRdcsrRespond : Prop :=
  ∀ (i : Instr) (s t : State), exec i s = .next t →
    t.responses = s.responses ∨
      (((∃ reg, i = .rdw reg) ∨ ∃ csr, i = .rdcsr csr) ∧ ∃ v, t.responses = s.responses ++ [v])

/-! ## Register access -/

/-- `NOP` (R110): nothing, in the running and in the halted state alike. -/
def Obligations.NopChangesNothing : Prop :=
  encode .nop = 0x00000000 ∧ ∀ s : State, exec .nop s = .next s

/-- `WRW` (R111): the register is valid with the sample, and nothing else changes. -/
def Obligations.WrwWritesOneRegister : Prop :=
  ∀ (s : State) (reg : Fin 32) (v : Byte),
    encode (.wrw reg v) = BitVec.ofNat 32 (0x01000000 + reg.val * 256 + v.toNat) ∧
    (s.err = none →
      ∃ t, exec (.wrw reg v) s = .next t ∧ t.reg reg = some v ∧ FrameBut [reg] [] [] s t)

/-- `RDW` (R112): a valid register's sample is sent, bits 31:8 zero, and nothing else changes; an invalid one raises
`UNINIT_REG` and no response is sent. -/
def Obligations.RdwRespondsWithTheRegister : Prop :=
  ∀ (s : State) (reg : Fin 32),
    encode (.rdw reg) = BitVec.ofNat 32 (0x02000000 + reg.val * 256) ∧
    (s.err = none →
      (∀ v, s.reg reg = some v →
        ∃ w : Word, w.toNat = v.toNat ∧
          exec (.rdw reg) s = .next { s with responses := s.responses ++ [w] }) ∧
      (s.reg reg = none → Raises (.rdw reg) s .uninitReg))

/-- `STATUS` (R28) and `ERRCMD` (R29): bit 0 `ERR`, bits 7:4 `ECODE` by R131, every other bit 0, the `err` port equal
to `ERR`; the word of the first error, 0 when there is none; and both change only by error entry, whose word is the
command word, and by reset. -/
def Obligations.StatusAndErrcmdReadAndChange : Prop :=
  ∀ s : State,
    (∃ v : Word, exec (.rdcsr 0x00) s = .next { s with responses := s.responses ++ [v] } ∧
      v.getLsbD 0 = s.err.isSome ∧ errPort s = v.getLsbD 0 ∧
      (∀ j, (1 ≤ j ∧ j ≤ 3) ∨ 8 ≤ j → v.getLsbD j = false) ∧
      v.toNat / 2 ^ 4 % 2 ^ 4 = (match s.err with
        | none => 0
        | some ⟨.illegalCmd, _⟩ => 1
        | some ⟨.badCsr, _⟩ => 2
        | some ⟨.badBlock, _⟩ => 3
        | some ⟨.uninitReg, _⟩ => 4)) ∧
    (s.err = none → exec (.rdcsr 0x01) s = .next { s with responses := s.responses ++ [0] }) ∧
    (∀ e, s.err = some e → exec (.rdcsr 0x01) s = .next { s with responses := s.responses ++ [e.cmd] }) ∧
    (∀ t, step s = .next t →
      t.err = s.err ∨
      (s.err = none ∧ ∃ code w rest, s.inputs = .command w :: rest ∧ t.err = some ⟨code, w⟩) ∨
      (t.err = none ∧ ∃ rest, s.inputs = .reset :: rest ∨
        ∃ w landed, s.inputs = .commandThenReset w landed :: rest))

/-- `WVALID` (R30): bit `n` is `VALID[n]`; reading it has no side effect and never raises. -/
def Obligations.WvalidReadsTheValidBits : Prop :=
  ∀ s : State, ∃ v : Word, exec (.rdcsr 0x02) s = .next { s with responses := s.responses ++ [v] } ∧
    ∀ n : Fin 32, v.getLsbD n.val = (s.reg n).isSome

/-- `DIM`, `KSHIFT`, `VERSION` (R31) and the coefficient CSRs (R32): the hardwired fields, upper bits 0; reset does not
change them. -/
def Obligations.HardwiredCsrsReadTheParameters : Prop :=
  ∀ s : State, s.cfg.wf = true →
    (∃ v : Word, exec (.rdcsr 0x03) s = .next { s with responses := s.responses ++ [v] } ∧
      v.toNat % 2 ^ 16 = s.cfg.rows ∧ v.toNat / 2 ^ 16 = s.cfg.cols ∧ csrWord s.resetEngine .dim = v) ∧
    exec (.rdcsr 0x3F) s = .next { s with responses := s.responses ++ [0x00010000] } ∧
    csrWord s.resetEngine .version = 0x00010000 ∧
    ∀ x ∈ [(0x04, Csr.kshift, s.cfg.k),
        (0x10, .c11, s.cfg.c11), (0x11, .c12, s.cfg.c12), (0x12, .c13, s.cfg.c13), (0x13, .c21, s.cfg.c21),
        (0x14, .c22, s.cfg.c22), (0x15, .c23, s.cfg.c23), (0x16, .c31, s.cfg.c31), (0x17, .c32, s.cfg.c32),
        (0x18, .c33, s.cfg.c33), (0x20, .d1, s.cfg.d1), (0x21, .d2, s.cfg.d2), (0x22, .d3, s.cfg.d3),
        (0x23, .d4, s.cfg.d4), (0x24, .d5, s.cfg.d5)],
      ∃ v : Word, exec (.rdcsr x.1) s = .next { s with responses := s.responses ++ [v] } ∧
        v.toNat = x.2.2 ∧ csrWord s.resetEngine x.2.1 = v

/-! ## Loads and stores -/

/-- `LDRGB` (R114): lane `q = 2*i + j` of the three banks is the sample at `(2*br + i) * COLS + 2*bc + j` of its plane;
nothing else changes.  A block outside the raster raises `BAD_BLOCK`. -/
def Obligations.LdrgbLoadsTheBlock : Prop :=
  ∀ (s : State) (br bc : Nat), s.err = none →
    encode (.ldrgb br bc) = BitVec.ofNat 32 (0x10000000 + br * 4096 + bc) ∧
    (br ≤ s.cfg.brMax → bc ≤ s.cfg.bcMax →
      ∃ t, exec (.ldrgb br bc) s = .next t ∧
        (∀ q : Fin 4, ∀ a, a = (2 * br + q.val / 2) * s.cfg.cols + (2 * bc + q.val % 2) →
          t.reg (bankReg .r q) = some (s.peek .pr a) ∧ t.reg (bankReg .g q) = some (s.peek .pg a) ∧
          t.reg (bankReg .b q) = some (s.peek .pb a)) ∧
        FrameBut (bankRegs .r ++ bankRegs .g ++ bankRegs .b) [] [] s t) ∧
    (s.cfg.brMax < br ∨ s.cfg.bcMax < bc → Raises (.ldrgb br bc) s .badBlock)

/-- `LDYCC` (R115): the luma lanes, and the eight neighbour slots with `br + 1` and `bc + 1` clamped to the last valid
index; nothing else changes.  A block outside the raster raises `BAD_BLOCK`. -/
def Obligations.LdyccLoadsTheBlockAndItsNeighbours : Prop :=
  ∀ (s : State) (br bc : Nat), s.err = none →
    encode (.ldycc br bc) = BitVec.ofNat 32 (0x11000000 + br * 4096 + bc) ∧
    (br ≤ s.cfg.brMax → bc ≤ s.cfg.bcMax →
      ∃ t, exec (.ldycc br bc) s = .next t ∧
        (∀ q : Fin 4, t.reg (bankReg .y q) =
          some (s.peek .py ((2 * br + q.val / 2) * s.cfg.cols + (2 * bc + q.val % 2)))) ∧
        (∀ br1 bc1, br1 = min (br + 1) s.cfg.brMax → bc1 = min (bc + 1) s.cfg.bcMax →
          ∀ x ∈ [(0, br * s.cfg.hcols + bc), (1, br * s.cfg.hcols + bc1), (2, br1 * s.cfg.hcols + bc),
            (3, br1 * s.cfg.hcols + bc1)],
            t.reg (bankReg .cbs x.1) = some (s.peek .pcb x.2) ∧
            t.reg (bankReg .crs x.1) = some (s.peek .pcr x.2)) ∧
        FrameBut (bankRegs .y ++ bankRegs .cbs ++ bankRegs .crs) [] [] s t) ∧
    (s.cfg.brMax < br ∨ s.cfg.bcMax < bc → Raises (.ldycc br bc) s .badBlock)

/-- `STYCC` (R116): the four luma registers go to the block's pixels, slot 0 of `CBS` and `CRS` to its chroma location;
no other byte and no register changes.  `BAD_BLOCK` comes before `UNINIT_REG`. -/
def Obligations.StyccStoresTheBlock : Prop :=
  ∀ (s : State) (br bc : Nat), s.cfg.wf = true → s.err = none →
    encode (.stycc br bc) = BitVec.ofNat 32 (0x12000000 + br * 4096 + bc) ∧
    (br ≤ s.cfg.brMax → bc ≤ s.cfg.bcMax →
      (∀ (y : Fin 4 → Byte) (u v : Byte), (∀ q, s.reg (bankReg .y q) = some (y q)) →
        s.reg (bankReg .cbs 0) = some u → s.reg (bankReg .crs 0) = some v →
        ∃ t, exec (.stycc br bc) s = .next t ∧
          (∀ q : Fin 4, t.peek .py ((2 * br + q.val / 2) * s.cfg.cols + (2 * bc + q.val % 2)) = y q) ∧
          t.peek .pcb (br * s.cfg.hcols + bc) = u ∧ t.peek .pcr (br * s.cfg.hcols + bc) = v ∧
          t.regs = s.regs ∧ FrameBut [] (storedLocations s.cfg (.stycc br bc)) [] s t) ∧
      (∀ n ∈ bankRegs .y ++ [bankReg .cbs 0, bankReg .crs 0], s.reg n = none →
        Raises (.stycc br bc) s .uninitReg)) ∧
    (s.cfg.brMax < br ∨ s.cfg.bcMax < bc → Raises (.stycc br bc) s .badBlock)

/-- `STRGB` (R117): the twelve RGB registers go to the block's pixels of the three planes; no other byte and no
register changes.  `BAD_BLOCK` comes before `UNINIT_REG`. -/
def Obligations.StrgbStoresTheBlock : Prop :=
  ∀ (s : State) (br bc : Nat), s.cfg.wf = true → s.err = none →
    encode (.strgb br bc) = BitVec.ofNat 32 (0x13000000 + br * 4096 + bc) ∧
    (br ≤ s.cfg.brMax → bc ≤ s.cfg.bcMax →
      (∀ r g b : Fin 4 → Byte, (∀ q, s.reg (bankReg .r q) = some (r q)) →
        (∀ q, s.reg (bankReg .g q) = some (g q)) → (∀ q, s.reg (bankReg .b q) = some (b q)) →
        ∃ t, exec (.strgb br bc) s = .next t ∧
          (∀ q : Fin 4, ∀ a, a = (2 * br + q.val / 2) * s.cfg.cols + (2 * bc + q.val % 2) →
            t.peek .pr a = r q ∧ t.peek .pg a = g q ∧ t.peek .pb a = b q) ∧
          t.regs = s.regs ∧ FrameBut [] (storedLocations s.cfg (.strgb br bc)) [] s t) ∧
      (∀ n ∈ bankRegs .r ++ bankRegs .g ++ bankRegs .b, s.reg n = none →
        Raises (.strgb br bc) s .uninitReg)) ∧
    (s.cfg.brMax < br ∨ s.cfg.bcMax < bc → Raises (.strgb br bc) s .badBlock)

/-! ## The datapath -/

/-- `LUMA` (R90, R94): each lane of `Y` is the scaled sum, truncated, 255 at most (the sum is never negative); nothing
else changes.  An invalid source raises `UNINIT_REG`. -/
def Obligations.LumaComputesTheFourLanes : Prop :=
  encode .luma = 0x20000000 ∧
  ∀ s : State, s.err = none →
    (∀ r g b : Fin 4 → Byte, (∀ q, s.reg (bankReg .r q) = some (r q)) →
      (∀ q, s.reg (bankReg .g q) = some (g q)) → (∀ q, s.reg (bankReg .b q) = some (b q)) →
      ∃ t, exec .luma s = .next t ∧
        (∀ q, ∃ v : Byte, t.reg (bankReg .y q) = some v ∧
          v.toNat = min 255 ((16 * 2 ^ s.cfg.k + s.cfg.c11 * (r q).toNat + s.cfg.c12 * (g q).toNat +
            s.cfg.c13 * (b q).toNat) / 2 ^ s.cfg.k)) ∧
        FrameBut (bankRegs .y) [] [] s t) ∧
    (∀ n ∈ bankRegs .r ++ bankRegs .g ++ bankRegs .b, s.reg n = none → Raises .luma s .uninitReg)

/-- `CHROMA` (R91, R92, R95): each lane of `CB` and `CR` is the scaled sum, floored, brought into 0 to 255; nothing else
changes.  An invalid source raises `UNINIT_REG`. -/
def Obligations.ChromaComputesTheFourLanes : Prop :=
  encode .chroma = 0x21000000 ∧
  ∀ s : State, s.err = none →
    (∀ r g b : Fin 4 → Byte, (∀ q, s.reg (bankReg .r q) = some (r q)) →
      (∀ q, s.reg (bankReg .g q) = some (g q)) → (∀ q, s.reg (bankReg .b q) = some (b q)) →
      ∃ t, exec .chroma s = .next t ∧
        (∀ q, ∃ u v : Byte, t.reg (bankReg .cb q) = some u ∧ t.reg (bankReg .cr q) = some v ∧
          (u.toNat : Int) = max 0 (min 255 ((128 * 2 ^ s.cfg.k - s.cfg.c21 * (r q).toNat -
            s.cfg.c22 * (g q).toNat + s.cfg.c23 * (b q).toNat : Int) / 2 ^ s.cfg.k)) ∧
          (v.toNat : Int) = max 0 (min 255 ((128 * 2 ^ s.cfg.k + s.cfg.c31 * (r q).toNat -
            s.cfg.c32 * (g q).toNat - s.cfg.c33 * (b q).toNat : Int) / 2 ^ s.cfg.k))) ∧
        FrameBut (bankRegs .cb ++ bankRegs .cr) [] [] s t) ∧
    (∀ n ∈ bankRegs .r ++ bankRegs .g ++ bankRegs .b, s.reg n = none → Raises .chroma s .uninitReg)

/-- `DS` (R93, R96): slot 0 of `CBS` and `CRS` is the truncated average of the four lanes; slots 1 to 3 and all else
stay.  An invalid source raises `UNINIT_REG`. -/
def Obligations.DsAveragesTheFourLanes : Prop :=
  encode .ds = 0x22000000 ∧
  ∀ s : State, s.err = none →
    (∀ u v : Fin 4 → Byte, (∀ q, s.reg (bankReg .cb q) = some (u q)) →
      (∀ q, s.reg (bankReg .cr q) = some (v q)) →
      ∃ t, exec .ds s = .next t ∧
        (∃ x : Byte, t.reg (bankReg .cbs 0) = some x ∧
          x.toNat = ((u 0).toNat + (u 1).toNat + (u 2).toNat + (u 3).toNat) / 4) ∧
        (∃ x : Byte, t.reg (bankReg .crs 0) = some x ∧
          x.toNat = ((v 0).toNat + (v 1).toNat + (v 2).toNat + (v 3).toNat) / 4) ∧
        FrameBut [bankReg .cbs 0, bankReg .crs 0] [] [] s t) ∧
    (∀ n ∈ bankRegs .cb ++ bankRegs .cr, s.reg n = none → Raises .ds s .uninitReg)

/-- `US` (R100, R102): top-left is the own sample, top-right and bottom-left truncated averages of two, bottom-right of
all four slots; nothing else changes.  An invalid source raises `UNINIT_REG`. -/
def Obligations.UsInterpolatesTheFourSlots : Prop :=
  encode .us = 0x23000000 ∧
  ∀ s : State, s.err = none →
    (∀ u v : Fin 4 → Byte, (∀ n, s.reg (bankReg .cbs n) = some (u n)) →
      (∀ n, s.reg (bankReg .crs n) = some (v n)) →
      ∃ t, exec .us s = .next t ∧
        (∀ x ∈ [(Bank.cb, u), (Bank.cr, v)],
          t.reg (bankReg x.1 0) = some (x.2 0) ∧
          (∃ w : Byte, t.reg (bankReg x.1 1) = some w ∧ w.toNat = ((x.2 0).toNat + (x.2 1).toNat) / 2) ∧
          (∃ w : Byte, t.reg (bankReg x.1 2) = some w ∧ w.toNat = ((x.2 0).toNat + (x.2 2).toNat) / 2) ∧
          (∃ w : Byte, t.reg (bankReg x.1 3) = some w ∧
            w.toNat = ((x.2 0).toNat + (x.2 1).toNat + (x.2 2).toNat + (x.2 3).toNat) / 4)) ∧
        FrameBut (bankRegs .cb ++ bankRegs .cr) [] [] s t) ∧
    (∀ n ∈ bankRegs .cbs ++ bankRegs .crs, s.reg n = none → Raises .us s .uninitReg)

/-- `RECON` (R101, R103): each lane's red, green and blue from its biased luma and chroma, rounded to nearest and
saturated; nothing else changes.  An invalid source raises `UNINIT_REG`. -/
def Obligations.ReconComputesTheFourLanes : Prop :=
  encode .recon = 0x24000000 ∧
  ∀ s : State, s.err = none →
    (∀ y u v : Fin 4 → Byte, (∀ q, s.reg (bankReg .y q) = some (y q)) →
      (∀ q, s.reg (bankReg .cb q) = some (u q)) → (∀ q, s.reg (bankReg .cr q) = some (v q)) →
      ∃ t, exec .recon s = .next t ∧
        (∀ q, ∃ r g b : Byte, t.reg (bankReg .r q) = some r ∧ t.reg (bankReg .g q) = some g ∧
          t.reg (bankReg .b q) = some b ∧
          ∀ y' cb cr rnd : Int, y' = (y q).toNat - 16 → cb = (u q).toNat - 128 → cr = (v q).toNat - 128 →
            rnd = 2 ^ (s.cfg.k - 1) →
            (r.toNat : Int) = max 0 (min 255 ((s.cfg.d1 * y' + s.cfg.d2 * cr + rnd) / 2 ^ s.cfg.k)) ∧
            (g.toNat : Int) =
              max 0 (min 255 ((s.cfg.d1 * y' - s.cfg.d3 * cr - s.cfg.d4 * cb + rnd) / 2 ^ s.cfg.k)) ∧
            (b.toNat : Int) = max 0 (min 255 ((s.cfg.d1 * y' + s.cfg.d5 * cb + rnd) / 2 ^ s.cfg.k))) ∧
        FrameBut (bankRegs .r ++ bankRegs .g ++ bankRegs .b) [] [] s t) ∧
    (∀ n ∈ bankRegs .y ++ bankRegs .cb ++ bankRegs .cr, s.reg n = none → Raises .recon s .uninitReg)

/-- `FWDW` (R97): with its twelve sources valid it completes, and its end state is that of `LUMA; CHROMA; DS`; only its
destinations change.  An invalid source raises `UNINIT_REG`. -/
def Obligations.FwdwEqualsItsThreeStages : Prop :=
  encode .fwdw = 0x28000000 ∧
  ∀ s : State, s.err = none →
    ((∀ n ∈ bankRegs .r ++ bankRegs .g ++ bankRegs .b, s.reg n ≠ none) →
      ∃ t, exec .fwdw s = .next t ∧ execAll [.luma, .chroma, .ds] s = .next t ∧
        FrameBut (bankRegs .y ++ bankRegs .cb ++ bankRegs .cr ++ [bankReg .cbs 0, bankReg .crs 0]) [] [] s t) ∧
    (∀ n ∈ bankRegs .r ++ bankRegs .g ++ bankRegs .b, s.reg n = none → Raises .fwdw s .uninitReg)

/-- `INVW` (R104): with its twelve sources valid it completes, and its end state is that of `US; RECON`; only its
destinations change.  An invalid source raises `UNINIT_REG`; so, unlike after the two commands, an invalid `Y` register
leaves `CB` and `CR` unchanged. -/
def Obligations.InvwEqualsItsTwoStages : Prop :=
  encode .invw = 0x29000000 ∧
  ∀ s : State, s.err = none →
    ((∀ n ∈ bankRegs .y ++ bankRegs .cbs ++ bankRegs .crs, s.reg n ≠ none) →
      ∃ t, exec .invw s = .next t ∧ execAll [.us, .recon] s = .next t ∧
        FrameBut (bankRegs .cb ++ bankRegs .cr ++ bankRegs .r ++ bankRegs .g ++ bankRegs .b) [] [] s t) ∧
    (∀ n ∈ bankRegs .y ++ bankRegs .cbs ++ bankRegs .crs, s.reg n = none → Raises .invw s .uninitReg)

/-- The datapath commands are pure functions (R107): what they write depends on the parameters and on the source
registers of R22, and on nothing else. -/
def Obligations.DatapathDependsOnlyOnItsSources : Prop :=
  ∀ (i : Instr) (s s' t t' : State), i ∈ [Instr.luma, .chroma, .ds, .us, .recon, .fwdw, .invw] →
    s.cfg = s'.cfg → s.err = none → s'.err = none →
    (∀ n ∈ sources i, s.reg n ≠ none ∧ s'.reg n = s.reg n) →
    exec i s = .next t → exec i s' = .next t' →
    ∀ n ∈ destinations i, t'.reg n = t.reg n

/-! ## Arithmetic laws -/

/-- Saturation (R81): `clamp255` is 0 below, 255 above, the value between; after the shift a negative sum gives 0 and a
sum of `256 << K` or more gives 255. -/
def Obligations.SaturationAtBothBounds : Prop :=
  (∀ v : Int, ((clamp255 v).toNat : Int) = if v < 0 then 0 else if v > 255 then 255 else v) ∧
  (∀ (v : Int) (k : Nat), v < 0 → clamp255 (asr v k) = 0) ∧
  (∀ (v : Int) (k : Nat), 256 * 2 ^ k ≤ v → clamp255 (asr v k) = 255)

/-- Rounding (R82, R85): the shift alone is the floor of the scaled value; with `RND` added it is the nearest integer,
ties going up. -/
def Obligations.ShiftTruncatesAndRndRounds : Prop :=
  ∀ (c : Config) (v : Int), 1 ≤ c.k →
    asr v c.k = ⌊(v : ℚ) / 2 ^ c.k⌋ ∧ asr (v + rnd c) c.k = ⌊(v : ℚ) / 2 ^ c.k + 1 / 2⌋

/-- Range of intermediates (R86): under legal parameters every partial sum of the six formulas' terms, taken in any
order, and every complete sum, is below `2^30` in magnitude, so that wrapping and saturating 32-bit accumulation give
the exact value; and each function of the model shifts and clamps the complete sum of its own terms. -/
def Obligations.IntermediatesFitThirtyTwoBits : Prop :=
  ∀ (c : Config) (r g b y cb cr : Byte) (formula : List Int × Byte), c.wf = true →
    formula ∈ ([
      ([16 * 2 ^ c.k, c.c11 * r.toNat, c.c12 * g.toNat, c.c13 * b.toNat], lumaPx c r g b),
      ([128 * 2 ^ c.k, -(c.c21 * r.toNat), -(c.c22 * g.toNat), c.c23 * b.toNat], cbPx c r g b),
      ([128 * 2 ^ c.k, c.c31 * r.toNat, -(c.c32 * g.toNat), -(c.c33 * b.toNat)], crPx c r g b),
      ([c.d1 * (y.toNat - 16 : Int), c.d2 * (cr.toNat - 128 : Int), 2 ^ (c.k - 1)], reconRed c y cr),
      ([c.d1 * (y.toNat - 16 : Int), -(c.d3 * (cr.toNat - 128 : Int)), -(c.d4 * (cb.toNat - 128 : Int)),
        2 ^ (c.k - 1)], reconGreen c y cb cr),
      ([c.d1 * (y.toNat - 16 : Int), c.d5 * (cb.toNat - 128 : Int), 2 ^ (c.k - 1)], reconBlue c y cb)] :
        List (List Int × Byte)) →
    (∀ part : List Int, part.Sublist formula.1 → -2 ^ 30 < part.sum ∧ part.sum < 2 ^ 30 ∧
      (BitVec.ofInt 32 part.sum).toInt = part.sum ∧
      max (-2 ^ 31) (min (2 ^ 31 - 1) part.sum) = part.sum) ∧
    formula.2 = clamp255 (asr formula.1.sum c.k)

/-- Known values (R99): every parameter set turns a block of four black pixels into luma 16 and chroma 128; the white-point
values hold exactly when the parameters satisfy the three conditions, and `REF601_K8` satisfies them. -/
def Obligations.BlackAndWhitePoints : Prop :=
  (∀ s : State, s.err = none →
    (∀ n ∈ bankRegs .r ++ bankRegs .g ++ bankRegs .b, s.reg n = some 0) →
    ∃ t, exec .fwdw s = .next t ∧
      (∀ q, t.reg (bankReg .y q) = some 16 ∧ t.reg (bankReg .cb q) = some 128 ∧
        t.reg (bankReg .cr q) = some 128) ∧
      t.reg (bankReg .cbs 0) = some 128 ∧ t.reg (bankReg .crs 0) = some 128) ∧
  (∀ c : Config,
    (cbPx c 255 255 255 = 128 ↔
      0 ≤ 255 * (c.c23 - c.c21 - c.c22 : Int) ∧ 255 * (c.c23 - c.c21 - c.c22 : Int) < 2 ^ c.k) ∧
    (crPx c 255 255 255 = 128 ↔
      0 ≤ 255 * (c.c31 - c.c32 - c.c33 : Int) ∧ 255 * (c.c31 - c.c32 - c.c33 : Int) < 2 ^ c.k) ∧
    (lumaPx c 255 255 255 = 235 ↔
      219 * 2 ^ c.k ≤ 255 * (c.c11 + c.c12 + c.c13) ∧ 255 * (c.c11 + c.c12 + c.c13) < 220 * 2 ^ c.k)) ∧
  (∀ rows cols c, c = Config.ref601K8 rows cols →
    cbPx c 255 255 255 = 128 ∧ crPx c 255 255 255 = 128 ∧ lumaPx c 255 255 255 = 235)

/-- Uniform chroma (R106): four equal slots give four equal lanes; and where a chroma plane holds one value, loading and
upsampling any block gives that value in all four lanes, edge blocks too. -/
def Obligations.UniformChromaUpsamplesToItself : Prop :=
  (∀ v : Byte, up4 ⟨v, v, v, v⟩ = ⟨v, v, v, v⟩) ∧
  ∀ (s : State) (br bc : Nat) (u v : Byte), s.cfg.wf = true → s.err = none →
    br ≤ s.cfg.brMax → bc ≤ s.cfg.bcMax → (∀ a, a < s.cfg.nchr → s.peek .pcb a = u ∧ s.peek .pcr a = v) →
    ∃ t, execAll [.ldycc br bc, .us] s = .next t ∧
      ∀ q, t.reg (bankReg .cb q) = some u ∧ t.reg (bankReg .cr q) = some v

/-! ## Addresses -/

/-- Every address the engine generates is in range (R42): the pixels and the chroma location of a block of the raster,
and the clamped neighbours of any block. -/
def Obligations.GeneratedAddressesAreInRange : Prop :=
  ∀ (c : Config) (br bc : Nat) (q : Fin 4), c.wf = true → br ≤ c.brMax → bc ≤ c.bcMax →
    pixelAddr c br bc q < c.rows * c.cols ∧ addrChroma c br bc < (c.rows / 2) * (c.cols / 2) ∧
    neighbourAddr c br bc q < (c.rows / 2) * (c.cols / 2) ∧
    ∀ i ∈ [Instr.stycc br bc, .strgb br bc, .fwdblk br bc, .invblk br bc, .fwdpln, .invpln],
      ∀ x ∈ storedLocations c i, x.2 < planeSize c x.1

/-- The blocks partition the planes (R41, R122, R125): every pixel and every chroma location belongs to exactly one
block and lane. -/
def Obligations.BlocksPartitionThePlanes : Prop :=
  ∀ c : Config, c.wf = true →
    (∀ a, a < c.rows * c.cols →
      ∃! x : Nat × Nat × Fin 4, x.1 ≤ c.brMax ∧ x.2.1 ≤ c.bcMax ∧ pixelAddr c x.1 x.2.1 x.2.2 = a) ∧
    (∀ a, a < (c.rows / 2) * (c.cols / 2) →
      ∃! x : Nat × Nat, x.1 ≤ c.brMax ∧ x.2 ≤ c.bcMax ∧ addrChroma c x.1 x.2 = a)

/-! ## Block and plane commands -/

/-- `FWDBLK` (R120): inside the raster it completes whatever the registers hold, with the end state of
`LDRGB; FWDW; STYCC`; outside it raises `BAD_BLOCK`. -/
def Obligations.FwdblkEqualsItsThreeCommands : Prop :=
  ∀ (s : State) (br bc : Nat), s.err = none →
    encode (.fwdblk br bc) = BitVec.ofNat 32 (0x30000000 + br * 4096 + bc) ∧
    (br ≤ s.cfg.brMax → bc ≤ s.cfg.bcMax →
      ∃ t, exec (.fwdblk br bc) s = .next t ∧
        execAll [.ldrgb br bc, .fwdw, .stycc br bc] s = .next t ∧ t.err = none) ∧
    (s.cfg.brMax < br ∨ s.cfg.bcMax < bc → Raises (.fwdblk br bc) s .badBlock)

/-- `INVBLK` (R121): inside the raster it completes whatever the registers hold, with the end state of
`LDYCC; INVW; STRGB` and all 32 registers valid; outside it raises `BAD_BLOCK`. -/
def Obligations.InvblkEqualsItsThreeCommands : Prop :=
  ∀ (s : State) (br bc : Nat), s.err = none →
    encode (.invblk br bc) = BitVec.ofNat 32 (0x31000000 + br * 4096 + bc) ∧
    (br ≤ s.cfg.brMax → bc ≤ s.cfg.bcMax →
      ∃ t, exec (.invblk br bc) s = .next t ∧
        execAll [.ldycc br bc, .invw, .strgb br bc] s = .next t ∧ t.err = none ∧
        ∀ n, t.reg n ≠ none) ∧
    (s.cfg.brMax < br ∨ s.cfg.bcMax < bc → Raises (.invblk br bc) s .badBlock)

/-- `FWDPLN` and `INVPLN` (R122, R123): the block commands of every block, block row by block row, then every valid bit
cleared; neither raises anything. -/
def Obligations.PlaneCommandsEqualTheirBlockCommands : Prop :=
  encode .fwdpln = 0x40000000 ∧ encode .invpln = 0x41000000 ∧
  ∀ (s : State) (blocks : List (Nat × Nat)), s.err = none →
    (blocks = (List.range (s.cfg.brMax + 1)).flatMap fun br =>
      (List.range (s.cfg.bcMax + 1)).map fun bc => (br, bc)) →
    (∃ t, execAll (blocks.map fun b => .fwdblk b.1 b.2) s = .next t ∧ t.err = none ∧
      exec .fwdpln s = .next t.invalidateAll) ∧
    (∃ t, execAll (blocks.map fun b => .invblk b.1 b.2) s = .next t ∧ t.err = none ∧
      exec .invpln s = .next t.invalidateAll)

/-- `FWDPLN` plane-wise (R122, R125): every pixel's luma, and every block's downsampled chroma, is that of the source
planes before the command; the source planes stay, every register is invalid. -/
def Obligations.FwdplnConvertsTheWholeRaster : Prop :=
  ∀ s : State, s.cfg.wf = true → s.err = none →
    ∃ t, exec .fwdpln s = .next t ∧
      (∀ r c, r < s.cfg.rows → c < s.cfg.cols → ∀ a, a = r * s.cfg.cols + c →
        t.peek .py a = lumaPx s.cfg (s.peek .pr a) (s.peek .pg a) (s.peek .pb a)) ∧
      (∀ br bc, br < s.cfg.rows / 2 → bc < s.cfg.cols / 2 →
        ∀ px : Nat → Nat → Nat, (∀ i j, px i j = (2 * br + i) * s.cfg.cols + (2 * bc + j)) →
        ∀ cb cr : Nat → Byte,
          (∀ a, cb a = cbPx s.cfg (s.peek .pr a) (s.peek .pg a) (s.peek .pb a)) →
          (∀ a, cr a = crPx s.cfg (s.peek .pr a) (s.peek .pg a) (s.peek .pb a)) →
          (t.peek .pcb (br * (s.cfg.cols / 2) + bc)).toNat =
            ((cb (px 0 0)).toNat + (cb (px 0 1)).toNat + (cb (px 1 0)).toNat + (cb (px 1 1)).toNat) / 4 ∧
          (t.peek .pcr (br * (s.cfg.cols / 2) + bc)).toNat =
            ((cr (px 0 0)).toNat + (cr (px 0 1)).toNat + (cr (px 1 0)).toNat + (cr (px 1 1)).toNat) / 4) ∧
      (∀ a, t.peek .pr a = s.peek .pr a ∧ t.peek .pg a = s.peek .pg a ∧ t.peek .pb a = s.peek .pb a) ∧
      (∀ n, t.reg n = none) ∧ t.err = none ∧ t.responses = s.responses ∧ t.inputs = s.inputs

/-- `INVPLN` plane-wise (R123, R125): every pixel is reconstructed from its luma and the chroma interpolated from its
block and the clamped neighbours, all of the source planes before the command; the source planes stay, every register
is invalid. -/
def Obligations.InvplnConvertsTheWholeRaster : Prop :=
  ∀ s : State, s.cfg.wf = true → s.err = none →
    ∃ t, exec .invpln s = .next t ∧
      (∀ br bc i j, br < s.cfg.rows / 2 → bc < s.cfg.cols / 2 → i < 2 → j < 2 →
        ∀ a, a = (2 * br + i) * s.cfg.cols + (2 * bc + j) →
        ∀ ch : Plane → Nat → Nat → Byte,
          (∀ p m n, ch p m n = s.peek p (min (br + m) (s.cfg.rows / 2 - 1) * (s.cfg.cols / 2) +
            min (bc + n) (s.cfg.cols / 2 - 1))) →
        ∀ up : Plane → Byte,
          (∀ p, (up p).toNat =
            if i = 0 ∧ j = 0 then (ch p 0 0).toNat
            else if i = 0 then ((ch p 0 0).toNat + (ch p 0 1).toNat) / 2
            else if j = 0 then ((ch p 0 0).toNat + (ch p 1 0).toNat) / 2
            else ((ch p 0 0).toNat + (ch p 0 1).toNat + (ch p 1 0).toNat + (ch p 1 1).toNat) / 4) →
        t.peek .pr a = reconRed s.cfg (s.peek .py a) (up .pcr) ∧
        t.peek .pg a = reconGreen s.cfg (s.peek .py a) (up .pcb) (up .pcr) ∧
        t.peek .pb a = reconBlue s.cfg (s.peek .py a) (up .pcb)) ∧
      (∀ a, t.peek .py a = s.peek .py a ∧ t.peek .pcb a = s.peek .pcb a ∧ t.peek .pcr a = s.peek .pcr a) ∧
      (∀ n, t.reg n = none) ∧ t.err = none ∧ t.responses = s.responses ∧ t.inputs = s.inputs

/-- Order independence (R125): the block commands in any order whatever leave the same six planes as the plane command.
-/
def Obligations.PlaneCommandsAreOrderIndependent : Prop :=
  ∀ (s : State) (blocks : List (Nat × Nat)), s.cfg.wf = true → s.err = none →
    blocks.Perm (rasterBlocks s.cfg) →
    (∃ t u, execAll (blocks.map fun b => .fwdblk b.1 b.2) s = .next t ∧ exec .fwdpln s = .next u ∧
      ∀ p a, t.peek p a = u.peek p a) ∧
    (∃ t u, execAll (blocks.map fun b => .invblk b.1 b.2) s = .next t ∧ exec .invpln s = .next u ∧
      ∀ p a, t.peek p a = u.peek p a)

/-- Independence from prior engine state (R124): what the block and plane commands write to the planes is a function of
the planes they read, the block position and the parameters; it depends on no window register or valid bit and on
nothing the planes they write held; the one piece of engine state that matters is the error state, in which the command
is discarded. -/
def Obligations.PlanesDoNotDependOnTheWindow : Prop :=
  ∀ (i : Instr) (read : List Plane),
    (read = [.pr, .pg, .pb] ∧ (i = .fwdpln ∨ ∃ br bc, i = .fwdblk br bc)) ∨
      (read = [.py, .pcb, .pcr] ∧ (i = .invpln ∨ ∃ br bc, i = .invblk br bc)) →
    (∀ s s' t t' : State, s.cfg = s'.cfg → s.err = none → s'.err = none →
      exec i s = .next t → exec i s' = .next t' →
      (s.planes = s'.planes → t'.planes = t.planes) ∧
      (s.cfg.wf = true → positionLegal s.cfg i → (∀ p ∈ read, ∀ a, s'.peek p a = s.peek p a) →
        ∀ x ∈ storedLocations s.cfg i, t'.peek x.1 x.2 = t.peek x.1 x.2)) ∧
    (∀ s : State, s.err ≠ none → exec i s = .next s)

/-- The grey round trip (R127): under `REF601_K8` a solid 128 image of any legal dimensions becomes luma 126 and chroma
128 everywhere, and comes back exactly. -/
def Obligations.SolidGreyRoundTripIsExact : Prop :=
  ∀ (s : State) (rows cols : Nat), s.cfg = Config.ref601K8 rows cols → s.cfg.wf = true → s.err = none →
    (∀ a, a < rows * cols → s.peek .pr a = 128 ∧ s.peek .pg a = 128 ∧ s.peek .pb a = 128) →
    ∃ t u, exec .fwdpln s = .next t ∧ exec .invpln t = .next u ∧
      (∀ a, a < rows * cols → t.peek .py a = 126) ∧
      (∀ a, a < (rows / 2) * (cols / 2) → t.peek .pcb a = 128 ∧ t.peek .pcr a = 128) ∧
      (∀ a, a < rows * cols → u.peek .pr a = 128 ∧ u.peek .pg a = 128 ∧ u.peek .pb a = 128)
end

