-- ==== Sys2Proof/Laws/Memory.lean ====
section
/-! SUPPORT. Plane memory: a read after a write, the canonical form, and equal reads make equal memories. -/

namespace Sys2Proof.Machine

theorem Memory.read_filter_ne (m : Memory) (a b : Nat) :
    Memory.read (m.filter (fun c => c.1 != a)) b = if b = a then Memory.unlisted else Memory.read m b := by
  induction m with
  | nil => simp [Memory.read]
  | cons c m ih =>
    obtain ⟨x, v⟩ := c
    by_cases hx : x = a
    · subst hx
      simp only [List.filter_cons, bne_self_eq_false, Bool.false_eq_true, if_false, ih, Memory.read]
      split <;> simp_all
    · have : (x != a) = true := by simpa using hx
      simp only [List.filter_cons, this, if_true, Memory.read, ih]
      split <;> simp_all

theorem Memory.read_insert (m : Memory) (a b : Nat) (v : Byte) (h : ∀ c ∈ m, c.1 ≠ a) :
    Memory.read (Memory.insert a v m) b = if b = a then v else Memory.read m b := by
  induction m with
  | nil => simp [Memory.insert, Memory.read]
  | cons c m ih =>
    obtain ⟨x, w⟩ := c
    have hx : x ≠ a := h _ List.mem_cons_self
    have ih := ih fun c hc => h c (by simp [hc])
    simp only [Memory.insert]
    split
    · simp [Memory.read]
    · simp only [Memory.read, ih]
      split <;> simp_all

/-- A READ AFTER A WRITE: the written byte at the written address, the old byte everywhere else. -/
@[simp] theorem Memory.read_write (m : Memory) (a b : Nat) (v : Byte) :
    Memory.read (Memory.write m a v) b = if b = a then v else Memory.read m b := by
  unfold Memory.write
  split
  · simp_all [Memory.read_filter_ne]
  · rw [Memory.read_insert _ _ _ _ (by simp), Memory.read_filter_ne]
    split <;> rfl

theorem Memory.wf_iff (m : Memory) :
    Memory.wf m = true ↔ m.Pairwise (fun c d => c.1 < d.1) ∧ ∀ c ∈ m, c.2 ≠ Memory.unlisted := by
  simp [Memory.wf]

theorem Memory.inRange_iff (n : Nat) (m : Memory) :
    Memory.inRange n m = true ↔ ∀ c ∈ m, c.1 < n := by
  simp [Memory.inRange]

theorem Memory.mem_insert (m : Memory) (a : Nat) (v : Byte) (c : Host.Cell) :
    c ∈ Memory.insert a v m ↔ c = (a, v) ∨ c ∈ m := by
  induction m with
  | nil => simp [Memory.insert]
  | cons d m ih =>
    simp only [Memory.insert]
    split
    · simp
    · simp only [List.mem_cons, ih]; tauto

theorem Memory.pairwise_insert (m : Memory) (a : Nat) (v : Byte) (h : ∀ c ∈ m, c.1 ≠ a)
    (hp : m.Pairwise (fun c d => c.1 < d.1)) :
    (Memory.insert a v m).Pairwise (fun c d => c.1 < d.1) := by
  induction m with
  | nil => simp [Memory.insert]
  | cons d m ih =>
    obtain ⟨x, w⟩ := d
    have hx : x ≠ a := h _ List.mem_cons_self
    rw [List.pairwise_cons] at hp
    simp only [Memory.insert]
    split
    · rename_i hlt
      rw [List.pairwise_cons]
      refine ⟨?_, List.pairwise_cons.2 hp⟩
      intro c hc
      rcases List.mem_cons.1 hc with rfl | hc
      · exact hlt
      · exact Nat.lt_trans hlt (hp.1 c hc)
    · rw [List.pairwise_cons]
      refine ⟨?_, ih (fun c hc => h c (by simp [hc])) hp.2⟩
      intro c hc
      rcases (Memory.mem_insert m a v c).1 hc with rfl | hc
      · show x < a; omega
      · exact hp.1 c hc

/-- A write keeps the canonical form. -/
theorem Memory.wf_write (m : Memory) (a : Nat) (v : Byte) (h : Memory.wf m = true) :
    Memory.wf (Memory.write m a v) = true := by
  rw [Memory.wf_iff] at h ⊢
  unfold Memory.write
  split
  · exact ⟨h.1.filter _, fun c hc => h.2 c (List.mem_of_mem_filter hc)⟩
  · refine ⟨Memory.pairwise_insert _ _ _ (by simp) (h.1.filter _), fun c hc => ?_⟩
    rcases (Memory.mem_insert _ a v c).1 hc with rfl | hc
    · assumption
    · exact h.2 c (List.mem_of_mem_filter hc)

/-- A write to a location the plane has lists no other. -/
theorem Memory.inRange_write (n : Nat) (m : Memory) (a : Nat) (v : Byte) (ha : a < n)
    (h : Memory.inRange n m = true) : Memory.inRange n (Memory.write m a v) = true := by
  rw [Memory.inRange_iff] at h ⊢
  unfold Memory.write
  split
  · exact fun c hc => h c (List.mem_of_mem_filter hc)
  · intro c hc
    rcases (Memory.mem_insert _ a v c).1 hc with rfl | hc
    · exact ha
    · exact h c (List.mem_of_mem_filter hc)

/-- Writing what an unlisted address reads as lists nothing new. -/
theorem Memory.inRange_write_unlisted (n : Nat) (m : Memory) (a : Nat)
    (h : Memory.inRange n m = true) : Memory.inRange n (Memory.write m a Memory.unlisted) = true := by
  rw [Memory.inRange_iff] at h ⊢
  simpa [Memory.write] using fun x v hc _ => h (x, v) hc

/-- An address no entry lists reads as the unlisted byte. -/
theorem Memory.read_of_not_listed (m : Memory) (a : Nat) (h : ∀ c ∈ m, c.1 ≠ a) :
    Memory.read m a = Memory.unlisted := by
  induction m with
  | nil => rfl
  | cons c m ih =>
    obtain ⟨x, v⟩ := c
    have hx : a ≠ x := fun e => h (x, v) (by simp) e.symm
    rw [Memory.read, if_neg hx]
    exact ih fun c hc => h c (by simp [hc])

/-- EQUAL MEMORIES ARE EQUAL DATA: two canonical memories that read alike everywhere are the same list. -/
theorem Memory.ext_of_wf (m n : Memory) (hm : Memory.wf m = true) (hn : Memory.wf n = true)
    (h : ∀ a, Memory.read m a = Memory.read n a) : m = n := by
  rw [Memory.wf_iff] at hm hn
  induction m generalizing n with
  | nil =>
    cases n with
    | nil => rfl
    | cons d n =>
      obtain ⟨x, v⟩ := d
      have := h x
      simp only [Memory.read, if_true] at this
      exact absurd this.symm (hn.2 _ List.mem_cons_self)
  | cons c m ih =>
    obtain ⟨x, v⟩ := c
    have hm1 := List.pairwise_cons.1 hm.1
    have hv : v ≠ Memory.unlisted := hm.2 (x, v) (by simp)
    cases n with
    | nil =>
      have := h x
      simp only [Memory.read, if_true] at this
      exact absurd this hv
    | cons d n =>
      obtain ⟨y, w⟩ := d
      have hn1 := List.pairwise_cons.1 hn.1
      have hw : w ≠ Memory.unlisted := hn.2 (y, w) (by simp)
      have small : ∀ (l : Memory) (z : Nat), (∀ c ∈ l, z < c.1) → Memory.read l z = Memory.unlisted :=
        fun l z hl => Memory.read_of_not_listed l z fun c hc e => by have := hl c hc; omega
      have hxy : x = y := by
        rcases Nat.lt_trichotomy x y with hlt | heq | hlt
        · have h1 := h x
          simp only [Memory.read, if_true, if_neg (Nat.ne_of_lt hlt)] at h1
          rw [small n x fun c hc => Nat.lt_trans hlt (hn1.1 c hc)] at h1
          exact absurd h1 hv
        · exact heq
        · have h1 := h y
          simp only [Memory.read, if_true, if_neg (Nat.ne_of_lt hlt)] at h1
          rw [small m y fun c hc => Nat.lt_trans hlt (hm1.1 c hc)] at h1
          exact absurd h1.symm hw
      subst hxy
      have hvw : v = w := by simpa [Memory.read] using h x
      subst hvw
      congr 1
      refine ih n ⟨hm1.2, fun c hc => hm.2 c (by simp [hc])⟩ ⟨hn1.2, fun c hc => hn.2 c (by simp [hc])⟩ ?_
      intro a
      by_cases ha : a = x
      · subst ha
        rw [small m a hm1.1, small n a hn1.1]
      · have h1 := h a
        simpa only [Memory.read, if_neg ha] using h1

/-- Reading one plane after replacing one. -/
@[simp] theorem Planes.get_set (ps : Planes) (p q : Plane) (m : Memory) :
    (ps.set p m).get q = if q = p then m else ps.get q := by
  cases p <;> cases q <;> rfl

/-- Every plane is canonical and in range, plane by plane. -/
theorem Planes.wf_iff (c : Config) (ps : Planes) :
    ps.wf c = true ↔
      ∀ p, Memory.wf (ps.get p) = true ∧ Memory.inRange (planeSize c p) (ps.get p) = true := by
  constructor
  · intro h p
    simp only [Planes.wf, List.all_eq_true, Bool.and_eq_true] at h
    exact h p (by cases p <;> simp)
  · intro h
    simp only [Planes.wf, List.all_eq_true, Bool.and_eq_true]
    exact fun p _ => h p

/-- Replacing one plane by a canonical memory in range keeps the planes well formed. -/
theorem Planes.wf_set (c : Config) (ps : Planes) (p : Plane) (m : Memory) (h : ps.wf c = true)
    (hm : Memory.wf m = true) (hr : Memory.inRange (planeSize c p) m = true) :
    (ps.set p m).wf c = true := by
  rw [Planes.wf_iff] at h ⊢
  intro q
  by_cases hq : q = p
  · subst hq; simp [hm, hr]
  · simpa [hq] using h q

/-- Well-formed planes that read alike everywhere are the same data. -/
theorem Planes.ext_of_wf (c : Config) (ps qs : Planes) (hp : ps.wf c = true) (hq : qs.wf c = true)
    (h : ∀ p a, Memory.read (ps.get p) a = Memory.read (qs.get p) a) : ps = qs := by
  have key : ∀ p, ps.get p = qs.get p := fun p =>
    Memory.ext_of_wf _ _ ((Planes.wf_iff c ps).1 hp p).1 ((Planes.wf_iff c qs).1 hq p).1 (h p)
  obtain ⟨a1, a2, a3, a4, a5, a6⟩ := ps
  obtain ⟨b1, b2, b3, b4, b5, b6⟩ := qs
  have h1 : a1 = b1 := key .pr
  have h2 : a2 = b2 := key .pg
  have h3 : a3 = b3 := key .pb
  have h4 : a4 = b4 := key .py
  have h5 : a5 = b5 := key .pcb
  have h6 : a6 = b6 := key .pcr
  subst h1 h2 h3 h4 h5 h6
  rfl

end Sys2Proof.Machine
end

