-- ==== Sys2Proof/Laws/State.lean ====
section
/-! SUPPORT. One lemma per field per update, so that no later proof unfolds a record update, and the two read laws:
a register after a write and a byte after a store. -/

namespace Sys2Proof.Machine

variable (s : State) (p : Plane) (a : Nat) (v : Byte) (n : Fin 32) (w : Word) (k : Bank) (x : Quad Byte)
  (br bc : Nat)

@[simp] theorem State.poke_cfg : (s.poke p a v).cfg = s.cfg := rfl
@[simp] theorem State.poke_regs : (s.poke p a v).regs = s.regs := rfl
@[simp] theorem State.poke_err : (s.poke p a v).err = s.err := rfl
@[simp] theorem State.poke_inputs : (s.poke p a v).inputs = s.inputs := rfl
@[simp] theorem State.poke_responses : (s.poke p a v).responses = s.responses := rfl
@[simp] theorem State.poke_reg (m : Fin 32) : (s.poke p a v).reg m = s.reg m := rfl
@[simp] theorem State.poke_readReg (m : Fin 32) : (s.poke p a v).readReg m = s.readReg m := rfl
@[simp] theorem State.poke_readBank (k : Bank) : (s.poke p a v).readBank k = s.readBank k := rfl

@[simp] theorem State.storePixels_cfg : (s.storePixels p br bc x).cfg = s.cfg := rfl
@[simp] theorem State.storePixels_regs : (s.storePixels p br bc x).regs = s.regs := rfl
@[simp] theorem State.storePixels_err : (s.storePixels p br bc x).err = s.err := rfl
@[simp] theorem State.storePixels_inputs : (s.storePixels p br bc x).inputs = s.inputs := rfl
@[simp] theorem State.storePixels_responses : (s.storePixels p br bc x).responses = s.responses := rfl
@[simp] theorem State.storePixels_reg (m : Fin 32) : (s.storePixels p br bc x).reg m = s.reg m := rfl

@[simp] theorem State.writeReg_cfg : (s.writeReg n v).cfg = s.cfg := rfl
@[simp] theorem State.writeReg_err : (s.writeReg n v).err = s.err := rfl
@[simp] theorem State.writeReg_planes : (s.writeReg n v).planes = s.planes := rfl
@[simp] theorem State.writeReg_inputs : (s.writeReg n v).inputs = s.inputs := rfl
@[simp] theorem State.writeReg_responses : (s.writeReg n v).responses = s.responses := rfl
@[simp] theorem State.writeReg_peek : (s.writeReg n v).peek p a = s.peek p a := rfl

@[simp] theorem State.writeBank_cfg : (s.writeBank k x).cfg = s.cfg := rfl
@[simp] theorem State.writeBank_err : (s.writeBank k x).err = s.err := rfl
@[simp] theorem State.writeBank_planes : (s.writeBank k x).planes = s.planes := rfl
@[simp] theorem State.writeBank_inputs : (s.writeBank k x).inputs = s.inputs := rfl
@[simp] theorem State.writeBank_responses : (s.writeBank k x).responses = s.responses := rfl
@[simp] theorem State.writeBank_peek : (s.writeBank k x).peek p a = s.peek p a := rfl
@[simp] theorem State.writeBank_loadPixels :
    (s.writeBank k x).loadPixels p br bc = s.loadPixels p br bc := rfl
@[simp] theorem State.writeBank_loadNeighbours :
    (s.writeBank k x).loadNeighbours p br bc = s.loadNeighbours p br bc := rfl

@[simp] theorem State.respond_cfg : (s.respond w).cfg = s.cfg := rfl
@[simp] theorem State.respond_regs : (s.respond w).regs = s.regs := rfl
@[simp] theorem State.respond_err : (s.respond w).err = s.err := rfl
@[simp] theorem State.respond_planes : (s.respond w).planes = s.planes := rfl
@[simp] theorem State.respond_inputs : (s.respond w).inputs = s.inputs := rfl
@[simp] theorem State.respond_responses : (s.respond w).responses = s.responses ++ [w] := rfl
@[simp] theorem State.respond_reg (m : Fin 32) : (s.respond w).reg m = s.reg m := rfl
@[simp] theorem State.respond_peek : (s.respond w).peek p a = s.peek p a := rfl

@[simp] theorem State.invalidateAll_cfg : s.invalidateAll.cfg = s.cfg := rfl
@[simp] theorem State.invalidateAll_err : s.invalidateAll.err = s.err := rfl
@[simp] theorem State.invalidateAll_planes : s.invalidateAll.planes = s.planes := rfl
@[simp] theorem State.invalidateAll_inputs : s.invalidateAll.inputs = s.inputs := rfl
@[simp] theorem State.invalidateAll_responses : s.invalidateAll.responses = s.responses := rfl
@[simp] theorem State.invalidateAll_peek : s.invalidateAll.peek p a = s.peek p a := rfl
@[simp] theorem State.invalidateAll_reg (m : Fin 32) : s.invalidateAll.reg m = none := by
  simp [State.reg, State.invalidateAll]

@[simp] theorem State.resetEngine_cfg : s.resetEngine.cfg = s.cfg := rfl
@[simp] theorem State.resetEngine_err : s.resetEngine.err = none := rfl
@[simp] theorem State.resetEngine_planes : s.resetEngine.planes = s.planes := rfl
@[simp] theorem State.resetEngine_inputs : s.resetEngine.inputs = s.inputs := rfl
@[simp] theorem State.resetEngine_peek : s.resetEngine.peek p a = s.peek p a := rfl
@[simp] theorem State.resetEngine_reg (m : Fin 32) : s.resetEngine.reg m = none := by
  simp [State.reg, State.resetEngine]

@[simp] theorem State.writeRecon_cfg (y cb cr : Quad Byte) : (s.writeRecon y cb cr).cfg = s.cfg := rfl
@[simp] theorem State.writeRecon_err (y cb cr : Quad Byte) : (s.writeRecon y cb cr).err = s.err := rfl
@[simp] theorem State.writeRecon_planes (y cb cr : Quad Byte) : (s.writeRecon y cb cr).planes = s.planes := rfl
@[simp] theorem State.writeRecon_inputs (y cb cr : Quad Byte) : (s.writeRecon y cb cr).inputs = s.inputs := rfl
@[simp] theorem State.writeRecon_responses (y cb cr : Quad Byte) :
    (s.writeRecon y cb cr).responses = s.responses := rfl
@[simp] theorem State.writeRecon_peek (y cb cr : Quad Byte) : (s.writeRecon y cb cr).peek p a = s.peek p a := rfl

@[simp] theorem State.storeYcc_cfg (u t : Byte) : (s.storeYcc br bc x u t).cfg = s.cfg := by simp [State.storeYcc]
@[simp] theorem State.storeYcc_regs (u t : Byte) : (s.storeYcc br bc x u t).regs = s.regs := by simp [State.storeYcc]
@[simp] theorem State.storeYcc_err (u t : Byte) : (s.storeYcc br bc x u t).err = s.err := by simp [State.storeYcc]
@[simp] theorem State.storeYcc_inputs (u t : Byte) : (s.storeYcc br bc x u t).inputs = s.inputs := by simp [State.storeYcc]
@[simp] theorem State.storeYcc_responses (u t : Byte) :
    (s.storeYcc br bc x u t).responses = s.responses := by simp [State.storeYcc]
@[simp] theorem State.storeYcc_reg (u t : Byte) (m : Fin 32) : (s.storeYcc br bc x u t).reg m = s.reg m := by simp [State.storeYcc]

@[simp] theorem State.storeRgb_cfg (y z : Quad Byte) : (s.storeRgb br bc x y z).cfg = s.cfg := by simp [State.storeRgb]
@[simp] theorem State.storeRgb_regs (y z : Quad Byte) : (s.storeRgb br bc x y z).regs = s.regs := by simp [State.storeRgb]
@[simp] theorem State.storeRgb_err (y z : Quad Byte) : (s.storeRgb br bc x y z).err = s.err := by simp [State.storeRgb]
@[simp] theorem State.storeRgb_inputs (y z : Quad Byte) : (s.storeRgb br bc x y z).inputs = s.inputs := by simp [State.storeRgb]
@[simp] theorem State.storeRgb_responses (y z : Quad Byte) :
    (s.storeRgb br bc x y z).responses = s.responses := by simp [State.storeRgb]
@[simp] theorem State.storeRgb_reg (y z : Quad Byte) (m : Fin 32) :
    (s.storeRgb br bc x y z).reg m = s.reg m := by simp [State.storeRgb]

/-- A BYTE AFTER A STORE: the stored byte at its location, the old byte everywhere else. -/
@[simp] theorem State.peek_poke (q : Plane) (b : Nat) :
    (s.poke p a v).peek q b = if q = p ∧ b = a then v else s.peek q b := by
  unfold State.peek State.poke
  by_cases hq : q = p
  · subst hq; simp
  · simp [hq]

/-- A REGISTER AFTER A WRITE: valid with the written value, every other register as before (R14, R23). -/
@[simp] theorem State.reg_writeReg (m : Fin 32) :
    (s.writeReg n v).reg m = if m = n then some v else s.reg m := by
  unfold State.reg State.writeReg
  rw [Vector.getElem_set]
  by_cases h : m = n
  · subst h; simp
  · rw [if_neg h, if_neg]
    intro e; exact h (Fin.ext e.symm)

/-- Two bank registers are the same register only when bank and index are the same (R21: no register aliases
another). -/
@[simp] theorem bankReg_inj (k k' : Bank) (q q' : Fin 4) :
    bankReg k q = bankReg k' q' ↔ k = k' ∧ q = q' := by
  cases k <;> cases k' <;> revert q q' <;> decide

/-- Every window register is a register of a bank (R21). -/
theorem exists_bankReg (m : Fin 32) : ∃ k q, m = bankReg k q := by
  have h : ∀ m : Fin 32, ∃ k ∈ [Bank.r, .g, .b, .y, .cb, .cr, .cbs, .crs], ∃ q : Fin 4, m = bankReg k q := by
    decide
  obtain ⟨k, -, q, hq⟩ := h m
  exact ⟨k, q, hq⟩

@[simp] theorem laneOf_quadOf {α : Type} (f : Fin 4 → α) (q : Fin 4) : laneOf (quadOf f) q = f q := by
  match q with
  | 0 => rfl
  | 1 => rfl
  | 2 => rfl
  | 3 => rfl

/-- A bundle is its four lanes. -/
theorem Quad.ext_laneOf {α : Type} (u v : Quad α) (h : ∀ q, laneOf u q = laneOf v q) : u = v := by
  obtain ⟨u0, u1, u2, u3⟩ := u
  obtain ⟨v0, v1, v2, v3⟩ := v
  have h0 : u0 = v0 := h 0
  have h1 : u1 = v1 := h 1
  have h2 : u2 = v2 := h 2
  have h3 : u3 = v3 := h 3
  subst h0 h1 h2 h3
  rfl

@[simp] theorem laneOf_lanes2 (f : Byte → Byte → Byte) (u t : Quad Byte) (q : Fin 4) :
    laneOf (lanes2 f u t) q = f (laneOf u q) (laneOf t q) := by
  match q with
  | 0 => rfl
  | 1 => rfl
  | 2 => rfl
  | 3 => rfl

@[simp] theorem laneOf_lanes3 (f : Byte → Byte → Byte → Byte) (u t y : Quad Byte) (q : Fin 4) :
    laneOf (lanes3 f u t y) q = f (laneOf u q) (laneOf t q) (laneOf y q) := by
  match q with
  | 0 => rfl
  | 1 => rfl
  | 2 => rfl
  | 3 => rfl

/-- A BANK AFTER A BANK WRITE: the written lanes in the written bank, every other bank as before. -/
@[simp] theorem State.reg_writeBank (k' : Bank) (q : Fin 4) :
    (s.writeBank k x).reg (bankReg k' q) = if k' = k then some (laneOf x q) else s.reg (bankReg k' q) := by
  unfold State.writeBank
  simp only [State.reg_writeReg, bankReg_inj]
  by_cases hk : k' = k
  · subst hk
    match q with
    | 0 => simp [laneOf]
    | 1 => simp [laneOf]
    | 2 => simp [laneOf]
    | 3 => simp [laneOf]
  · simp [hk]

end Sys2Proof.Machine
end

