-- ==== Sys2Proof/Laws/Ops.lean ====
section
/-! SUPPORT. One lemma per shared operation, saying once everything it can do: reading registers, checking a block,
settling a command, error entry, storing a block. -/

namespace Sys2Proof.Machine

@[simp] theorem except_ok_bind {ε α β : Type} (a : α) (f : α → Except ε β) : (Except.ok a >>= f) = f a := rfl

@[simp] theorem except_error_bind {ε α β : Type} (e : ε) (f : α → Except ε β) :
    ((Except.error e : Except ε α) >>= f) = .error e := rfl

@[simp] theorem except_pure {ε α : Type} (a : α) : (pure a : Except ε α) = .ok a := rfl

/-! Register reads (R14, R23, R136). -/

theorem State.readReg_ok {s : State} {n : Fin 32} {v : Byte} (h : s.reg n = some v) :
    s.readReg n = .ok v := by simp [State.readReg, h]

theorem State.readReg_error {s : State} {n : Fin 32} (h : s.reg n = none) :
    s.readReg n = .error .uninitReg := by simp [State.readReg, h]

/-- A bank read succeeds with `v` exactly when its four registers hold the lanes of `v`. -/
theorem State.readBank_ok_iff (s : State) (k : Bank) (v : Quad Byte) :
    s.readBank k = .ok v ↔ ∀ q, s.reg (bankReg k q) = some (laneOf v q) := by
  obtain ⟨v0, v1, v2, v3⟩ := v
  constructor
  · intro h
    unfold State.readBank State.readReg at h
    rcases h0 : s.reg (bankReg k 0) with _ | x0
    · simp [h0] at h
    rcases h1 : s.reg (bankReg k 1) with _ | x1
    · simp [h0, h1] at h
    rcases h2 : s.reg (bankReg k 2) with _ | x2
    · simp [h0, h1, h2] at h
    rcases h3 : s.reg (bankReg k 3) with _ | x3
    · simp [h0, h1, h2, h3] at h
    simp only [h0, h1, h2, h3, except_ok_bind, except_pure, Except.ok.injEq, Quad.mk.injEq] at h
    obtain ⟨rfl, rfl, rfl, rfl⟩ := h
    intro q
    match q with
    | 0 => exact h0
    | 1 => exact h1
    | 2 => exact h2
    | 3 => exact h3
  · intro h
    unfold State.readBank
    rw [State.readReg_ok (h 0), State.readReg_ok (h 1), State.readReg_ok (h 2), State.readReg_ok (h 3)]
    rfl

/-- A bank read with an invalid register raises `UNINIT_REG`. -/
theorem State.readBank_error {s : State} {k : Bank} {q : Fin 4} (h : s.reg (bankReg k q) = none) :
    s.readBank k = .error .uninitReg := by
  have key : (∃ v, s.readBank k = .ok v) ∨ s.readBank k = .error .uninitReg := by
    unfold State.readBank State.readReg
    rcases s.reg (bankReg k 0) with _ | x0
    · exact .inr rfl
    rcases s.reg (bankReg k 1) with _ | x1
    · exact .inr rfl
    rcases s.reg (bankReg k 2) with _ | x2
    · exact .inr rfl
    rcases s.reg (bankReg k 3) with _ | x3
    · exact .inr rfl
    exact .inl ⟨_, rfl⟩
  rcases key with ⟨v, hv⟩ | h'
  · have := (State.readBank_ok_iff s k v).1 hv q
    rw [h] at this
    cases this
  · exact h'

/-- EVERYTHING A BANK READ CAN DO: four valid registers give their lanes, an invalid one raises. -/
theorem State.readBank_cases (s : State) (k : Bank) :
    (∃ v, s.readBank k = .ok v ∧ ∀ q, s.reg (bankReg k q) = some (laneOf v q)) ∨
      (s.readBank k = .error .uninitReg ∧ ∃ q, s.reg (bankReg k q) = none) := by
  by_cases h : ∃ q, s.reg (bankReg k q) = none
  · obtain ⟨q, hq⟩ := h
    exact .inr ⟨State.readBank_error hq, q, hq⟩
  · refine .inl ?_
    have some_of : ∀ q, ∃ x, s.reg (bankReg k q) = some x := fun q =>
      Option.ne_none_iff_exists'.1 fun e => h ⟨q, e⟩
    choose f hf using some_of
    refine ⟨quadOf f, (State.readBank_ok_iff s k _).2 fun q => by simp [hf], fun q => by simp [hf]⟩

/-- A bank read after a bank write: the written bundle, or the other bank as before. -/
@[simp] theorem State.readBank_writeBank (s : State) (k k' : Bank) (x : Quad Byte) :
    (s.writeBank k x).readBank k' = if k' = k then .ok x else s.readBank k' := by
  split
  · subst k'
    exact (State.readBank_ok_iff _ _ _).2 fun q => by simp
  · rename_i h
    unfold State.readBank State.readReg
    simp only [State.reg_writeBank, h, if_false]

/-- A bank read after a write to a register of another bank. -/
@[simp] theorem State.readBank_writeReg_of_ne (s : State) (k k' : Bank) (q : Fin 4) (v : Byte) (h : k' ≠ k) :
    (s.writeReg (bankReg k q) v).readBank k' = s.readBank k' := by
  unfold State.readBank State.readReg
  simp only [State.reg_writeReg, bankReg_inj, h, false_and, if_false]

/-- A register read after a write of that register. -/
@[simp] theorem State.readReg_writeReg (s : State) (n m : Fin 32) (v : Byte) :
    (s.writeReg n v).readReg m = if m = n then .ok v else s.readReg m := by
  unfold State.readReg
  by_cases h : m = n <;> simp [h]

/-! The block check, and what becomes of a command. -/

theorem blockInRaster_iff (c : Config) (br bc : Nat) :
    blockInRaster c br bc = true ↔ br ≤ c.brMax ∧ bc ≤ c.bcMax := by
  simp [blockInRaster]

theorem checkBlock_ok {c : Config} {br bc : Nat} (h : br ≤ c.brMax ∧ bc ≤ c.bcMax) :
    checkBlock c br bc = .ok () := by
  simp [checkBlock, (blockInRaster_iff c br bc).2 h]

theorem checkBlock_error {c : Config} {br bc : Nat} (h : ¬(br ≤ c.brMax ∧ bc ≤ c.bcMax)) :
    checkBlock c br bc = .error .badBlock := by
  have : blockInRaster c br bc ≠ true := fun e => h ((blockInRaster_iff c br bc).1 e)
  simp [checkBlock, this]

theorem State.halted_iff (s : State) : s.halted = true ↔ s.err ≠ none := by
  simp [State.halted, Option.isSome_iff_ne_none]

/-- Error entry in the running state: the record and nothing else (R135). -/
theorem State.takeError_of_running {s : State} (h : s.err = none) (code : ErrCode) (w : Word) :
    s.takeError code w = { s with err := some ⟨code, w⟩ } := by
  simp [State.takeError, h]

/-- Error entry in the halted state: nothing (R138). -/
theorem State.takeError_of_halted {s : State} (h : s.err ≠ none) (code : ErrCode) (w : Word) :
    s.takeError code w = s := by
  unfold State.takeError
  split
  · contradiction
  · rfl

/-- EVERYTHING A COMMAND CAN DO: it is discarded in the halted state; else it completes as its body says, or its body
raises and only the error record changes. -/
theorem runCommand_cases (i : Instr) (body : State → Except ErrCode State) (s : State) :
    (s.err ≠ none ∧ runCommand i body s = .next s) ∨
      (s.err = none ∧ ∃ t, body s = .ok t ∧ runCommand i body s = .next t) ∨
      (s.err = none ∧ ∃ code, body s = .error code ∧
        runCommand i body s = .next { s with err := some ⟨code, encode i⟩ }) := by
  by_cases h : s.err = none
  · have hh : s.halted = false := by simp [State.halted, h]
    refine .inr ?_
    rcases hb : body s with code | t
    · exact .inr ⟨h, code, rfl, by simp [runCommand, hh, hb, State.settle, State.takeError_of_running h]⟩
    · exact .inl ⟨h, t, rfl, by simp [runCommand, hh, hb, State.settle]⟩
  · exact .inl ⟨h, by simp [runCommand, (State.halted_iff s).2 h]⟩

theorem runCommand_ok {i : Instr} {body : State → Except ErrCode State} {s t : State} (h : s.err = none)
    (hb : body s = .ok t) : runCommand i body s = .next t := by
  simp [runCommand, State.halted, h, hb, State.settle]

theorem runCommand_error {i : Instr} {body : State → Except ErrCode State} {s : State} {code : ErrCode}
    (h : s.err = none) (hb : body s = .error code) :
    runCommand i body s = .next { s with err := some ⟨code, encode i⟩ } := by
  simp [runCommand, State.halted, h, hb, State.settle, State.takeError]

theorem runCommand_halted {i : Instr} {body : State → Except ErrCode State} {s : State} (h : s.err ≠ none) :
    runCommand i body s = .next s := by
  simp [runCommand, (State.halted_iff s).2 h]

theorem runIllegal_running {w : Word} {s : State} (h : s.err = none) :
    runIllegal w s = .next { s with err := some ⟨.illegalCmd, w⟩ } := by
  simp [runIllegal, State.halted, h, State.takeError]

theorem runIllegal_halted {w : Word} {s : State} (h : s.err ≠ none) : runIllegal w s = .next s := by
  simp [runIllegal, (State.halted_iff s).2 h]

/-! Storing a block. -/

/-- A byte after a block store: outside the four locations of the block it is as before. -/
theorem State.peek_storePixels_of_not_mem (s : State) (p q : Plane) (br bc a : Nat) (v : Quad Byte)
    (h : (q, a) ∉ pixelLocations s.cfg p br bc) : (s.storePixels p br bc v).peek q a = s.peek q a := by
  simp only [pixelLocations, List.mem_cons, Prod.mk.injEq, List.not_mem_nil, or_false, not_or] at h
  obtain ⟨h0, h1, h2, h3⟩ := h
  simp [State.storePixels, h0, h1, h2, h3]

/-- A byte of another plane after a block store. -/
@[simp] theorem State.peek_storePixels_of_ne (s : State) (p q : Plane) (br bc a : Nat) (v : Quad Byte)
    (h : q ≠ p) : (s.storePixels p br bc v).peek q a = s.peek q a := by
  simp [State.storePixels, h]

end Sys2Proof.Machine
end

