-- ==== Sys2Proof/Laws/Addresses.lean ====
section
/-! SUPPORT. The parameters' bounds in plain arithmetic, and the block-indexed addresses: in range, and different for
different blocks and lanes (R42, R125). -/

namespace Sys2Proof.Machine

/-- The bounds of R5 and R7, one by one. -/
theorem wf_config_iff (c : Config) :
    c.wf = true ↔
      (2 ≤ c.rows ∧ c.rows ≤ 8192 ∧ c.rows % 2 = 0) ∧ (2 ≤ c.cols ∧ c.cols ≤ 8192 ∧ c.cols % 2 = 0) ∧
        (1 ≤ c.k ∧ c.k ≤ 16) ∧ ∀ x ∈ c.coefficients, x < 2 ^ 20 := by
  simp only [Config.wf, legalDimension, legalShift, legalCoefficient, Bool.and_eq_true, decide_eq_true_eq,
    List.all_eq_true]
  tauto

/-- The dimensions of a legal raster through the derived constants (R8). -/
theorem wf_dims {c : Config} (h : c.wf = true) :
    c.rows = 2 * c.hrows ∧ c.cols = 2 * c.hcols ∧ c.hrows = c.brMax + 1 ∧ c.hcols = c.bcMax + 1 := by
  obtain ⟨⟨h1, -, h2⟩, ⟨h3, -, h4⟩, -⟩ := (wf_config_iff c).1 h
  unfold Config.brMax Config.bcMax Config.hrows Config.hcols
  omega

/-- A row and a column below the dimensions determine the address and are determined by it. -/
theorem addr_inj {n r c r' c' : Nat} (hc : c < n) (hc' : c' < n) (h : r * n + c = r' * n + c') :
    r = r' ∧ c = c' := by
  have h1 : (r * n + c) / n = r := by rw [Nat.mul_comm, Nat.mul_add_div (by omega)]; simp [Nat.div_eq_of_lt hc]
  have h2 : (r' * n + c') / n = r' := by
    rw [Nat.mul_comm, Nat.mul_add_div (by omega)]; simp [Nat.div_eq_of_lt hc']
  have hr : r = r' := by rw [← h1, ← h2, h]
  subst hr
  exact ⟨rfl, by omega⟩

theorem addr_lt {m n r c : Nat} (hr : r < m) (hc : c < n) : r * n + c < m * n := by
  calc r * n + c < r * n + n := by omega
    _ = (r + 1) * n := by rw [Nat.succ_mul]
    _ ≤ m * n := Nat.mul_le_mul_right _ hr

/-- Every pixel address of a block of the raster is a location of a full-resolution plane (R42). -/
theorem pixelAddr_lt {c : Config} (h : c.wf = true) {br bc : Nat} (hb : br ≤ c.brMax ∧ bc ≤ c.bcMax)
    (q : Fin 4) : pixelAddr c br bc q < c.npix := by
  obtain ⟨h1, h2, h3, h4⟩ := wf_dims h
  have := q.isLt
  unfold pixelAddr addrFull Config.npix
  exact addr_lt (by omega) (by omega)

/-- The chroma address of a block of the raster is a location of a chroma plane (R42). -/
theorem addrChroma_lt {c : Config} (h : c.wf = true) {br bc : Nat} (hb : br ≤ c.brMax ∧ bc ≤ c.bcMax) :
    addrChroma c br bc < c.nchr := by
  obtain ⟨-, -, h3, h4⟩ := wf_dims h
  unfold addrChroma Config.nchr
  exact addr_lt (by omega) (by omega)

/-- Every neighbour address is a location of a chroma plane, whatever the block (R42, R115: clamped). -/
theorem neighbourAddr_lt {c : Config} (h : c.wf = true) (br bc : Nat) (n : Fin 4) :
    neighbourAddr c br bc n < c.nchr :=
  addrChroma_lt h ⟨Nat.min_le_right _ _, Nat.min_le_right _ _⟩

/-- Different blocks or lanes have different pixel addresses (R125). -/
theorem pixelAddr_inj {c : Config} (h : c.wf = true) {br bc br' bc' : Nat} {q q' : Fin 4}
    (hb : br ≤ c.brMax ∧ bc ≤ c.bcMax) (hb' : br' ≤ c.brMax ∧ bc' ≤ c.bcMax)
    (he : pixelAddr c br bc q = pixelAddr c br' bc' q') : br = br' ∧ bc = bc' ∧ q = q' := by
  obtain ⟨h1, h2, h3, h4⟩ := wf_dims h
  have hq := q.isLt
  have hq' := q'.isLt
  unfold pixelAddr addrFull at he
  obtain ⟨e1, e2⟩ := addr_inj (by omega) (by omega) he
  exact ⟨by omega, by omega, Fin.ext (by omega)⟩

/-- Different blocks have different chroma addresses (R125). -/
theorem addrChroma_inj {c : Config} (h : c.wf = true) {br bc br' bc' : Nat}
    (hb : br ≤ c.brMax ∧ bc ≤ c.bcMax) (hb' : br' ≤ c.brMax ∧ bc' ≤ c.bcMax)
    (he : addrChroma c br bc = addrChroma c br' bc') : br = br' ∧ bc = bc' := by
  obtain ⟨-, -, h3, h4⟩ := wf_dims h
  exact addr_inj (by omega) (by omega) he

/-- The lanes of one block are stored at different addresses. -/
theorem pixelAddr_lane_inj {c : Config} (h : c.wf = true) {br bc : Nat} {q q' : Fin 4}
    (hb : br ≤ c.brMax ∧ bc ≤ c.bcMax) : pixelAddr c br bc q = pixelAddr c br bc q' ↔ q = q' :=
  ⟨fun e => (pixelAddr_inj h hb hb e).2.2, fun e => by rw [e]⟩

/-- The raster's blocks are those of R15. -/
theorem mem_rasterBlocks (c : Config) (br bc : Nat) :
    (br, bc) ∈ rasterBlocks c ↔ br ≤ c.brMax ∧ bc ≤ c.bcMax := by
  simp [rasterBlocks]

/-- The ImageIterator visits no block twice (R122). -/
theorem nodup_rasterBlocks (c : Config) : (rasterBlocks c).Nodup := by
  unfold rasterBlocks
  rw [List.nodup_flatMap]
  refine ⟨fun br _ => (List.nodup_range).map fun _ _ e => (Prod.mk.inj e).2, ?_⟩
  refine List.nodup_range.imp fun hne => ?_
  intro x h1 h2
  simp only [List.mem_map, List.mem_range] at h1 h2
  obtain ⟨_, _, rfl⟩ := h1
  obtain ⟨_, _, e⟩ := h2
  exact hne (Prod.mk.inj e).1.symm

theorem mem_pixelLocations (c : Config) (p q : Plane) (br bc a : Nat) :
    (q, a) ∈ pixelLocations c p br bc ↔ q = p ∧ ∃ l, a = pixelAddr c br bc l := by
  simp only [pixelLocations, List.mem_cons, Prod.mk.injEq, List.not_mem_nil, or_false]
  constructor
  · rintro (⟨h, e⟩ | ⟨h, e⟩ | ⟨h, e⟩ | ⟨h, e⟩)
    · exact ⟨h, 0, e⟩
    · exact ⟨h, 1, e⟩
    · exact ⟨h, 2, e⟩
    · exact ⟨h, 3, e⟩
  · rintro ⟨h, l, e⟩
    match l with
    | 0 => exact .inl ⟨h, e⟩
    | 1 => exact .inr (.inl ⟨h, e⟩)
    | 2 => exact .inr (.inr (.inl ⟨h, e⟩))
    | 3 => exact .inr (.inr (.inr ⟨h, e⟩))

/-- What a block of the raster stores forward, location by location. -/
theorem mem_yccLocations (c : Config) (br bc : Nat) (p : Plane) (a : Nat) :
    (p, a) ∈ yccLocations c br bc ↔
      (p = .py ∧ ∃ l, a = pixelAddr c br bc l) ∨ ((p = .pcb ∨ p = .pcr) ∧ a = addrChroma c br bc) := by
  simp only [yccLocations, List.mem_append, mem_pixelLocations, List.mem_cons, Prod.mk.injEq,
    List.not_mem_nil, or_false]
  tauto

/-- What a block of the raster stores inverse, location by location. -/
theorem mem_rgbLocations (c : Config) (br bc : Nat) (p : Plane) (a : Nat) :
    (p, a) ∈ rgbLocations c br bc ↔
      (p = .pr ∨ p = .pg ∨ p = .pb) ∧ ∃ l, a = pixelAddr c br bc l := by
  simp only [rgbLocations, List.mem_append, mem_pixelLocations]
  tauto

/-- A lane after its block is stored. -/
@[simp] theorem State.peek_storePixels_lane (s : State) (p : Plane) (br bc : Nat) (v : Quad Byte) (q : Fin 4)
    (h : s.cfg.wf = true) (hb : br ≤ s.cfg.brMax ∧ bc ≤ s.cfg.bcMax) :
    (s.storePixels p br bc v).peek p (pixelAddr s.cfg br bc q) = laneOf v q := by
  simp only [State.storePixels, State.peek_poke, pixelAddr_lane_inj h hb, true_and]
  match q with
  | 0 => rfl
  | 1 => rfl
  | 2 => rfl
  | 3 => rfl

/-- The three RGB planes after a block is stored to them: each location of the block holds its lane. -/
theorem State.peek_storeRgb (s : State) (br bc : Nat) (r g b : Quad Byte) (q : Fin 4) (hw : s.cfg.wf = true)
    (hk : br ≤ s.cfg.brMax ∧ bc ≤ s.cfg.bcMax) :
    (s.storeRgb br bc r g b).peek .pr (pixelAddr s.cfg br bc q) = laneOf r q ∧
      (s.storeRgb br bc r g b).peek .pg (pixelAddr s.cfg br bc q) = laneOf g q ∧
      (s.storeRgb br bc r g b).peek .pb (pixelAddr s.cfg br bc q) = laneOf b q := by
  unfold State.storeRgb
  refine ⟨?_, ?_, ?_⟩
  · rw [State.peek_storePixels_of_ne _ _ _ _ _ _ _ (by simp),
      State.peek_storePixels_of_ne _ _ _ _ _ _ _ (by simp), State.peek_storePixels_lane _ _ _ _ _ _ hw hk]
  · rw [State.peek_storePixels_of_ne _ _ _ _ _ _ _ (by simp)]
    have e := State.peek_storePixels_lane (s.storePixels .pr br bc r) .pg br bc g q
    rw [State.storePixels_cfg] at e
    exact e hw hk
  · have e := State.peek_storePixels_lane ((s.storePixels .pr br bc r).storePixels .pg br bc g) .pb br bc b q
    rw [State.storePixels_cfg, State.storePixels_cfg] at e
    exact e hw hk

/-- The YCbCr planes after a block is stored to them. -/
theorem State.peek_storeYcc (s : State) (br bc : Nat) (y : Quad Byte) (cb cr : Byte) :
    (s.cfg.wf = true → br ≤ s.cfg.brMax ∧ bc ≤ s.cfg.bcMax → ∀ q,
        (s.storeYcc br bc y cb cr).peek .py (pixelAddr s.cfg br bc q) = laneOf y q) ∧
      (s.storeYcc br bc y cb cr).peek .pcb (addrChroma s.cfg br bc) = cb ∧
      (s.storeYcc br bc y cb cr).peek .pcr (addrChroma s.cfg br bc) = cr := by
  refine ⟨fun hw hk q => ?_, ?_, ?_⟩
  · simp only [State.storeYcc, State.peek_poke, reduceCtorEq, false_and, if_false,
      State.peek_storePixels_lane _ _ _ _ _ _ hw hk]
  · simp [State.storeYcc]
  · simp [State.storeYcc]

end Sys2Proof.Machine
end

