-- ==== Sys2Proof/Laws/Arithmetic.lean ====
section
/-! SUPPORT. The arithmetic functions as numbers: one lemma per function. -/

namespace Sys2Proof.Machine

theorem sample_nonneg (v : Byte) : 0 ≤ sample v := Int.natCast_nonneg _

theorem sample_le (v : Byte) : sample v ≤ 255 := by
  have := v.isLt
  unfold sample
  omega

theorem sample_eq_toNat (v : Byte) : sample v = (v.toNat : Int) := rfl

@[simp] theorem sample_zero : sample 0 = 0 := rfl

/-- A sample is determined by its value. -/
theorem sample_inj {u v : Byte} (h : sample u = sample v) : u = v :=
  BitVec.eq_of_toNat_eq (by unfold sample at h; omega)

theorem sample_toSample {v : Int} (h0 : 0 ≤ v) (h1 : v ≤ 255) : sample (toSample v) = v := by
  unfold sample toSample
  rw [BitVec.toNat_ofNat]
  omega

/-- `clamp255` as a number: the value, brought into 0 to 255 (R81). -/
theorem sample_clamp255 (v : Int) : sample (clamp255 v) = max 0 (min 255 v) := by
  unfold clamp255
  split
  · rename_i h
    rw [sample_zero]; omega
  · split
    · rename_i h
      show (255 : Int) = _
      omega
    · rw [sample_toSample (by omega) (by omega)]; omega

theorem two_pow_pos (n : Nat) : (0 : Int) < ((2 ^ n : Nat) : Int) := by
  exact_mod_cast Nat.two_pow_pos n

theorem two_pow_eq_shl (n : Nat) : shl 1 n = ((2 ^ n : Nat) : Int) := by simp [shl]

/-- Shifting a scaled value back gives it, whatever non-negative fraction was added below the scale. -/
theorem asr_shl_add (a b : Int) (n : Nat) (h0 : 0 ≤ b) (h1 : b < ((2 ^ n : Nat) : Int)) :
    asr (shl a n + b) n = a := by
  unfold asr shl
  rw [Int.add_comm, Int.add_mul_ediv_right _ _ (Int.ne_of_gt (two_pow_pos n)), Int.ediv_eq_zero_of_lt h0 h1]
  simp

theorem asr_shl (a : Int) (n : Nat) : asr (shl a n) n = a := by
  have := asr_shl_add a 0 n (Int.le_refl 0) (two_pow_pos n)
  simpa using this

/-- `down4` as a number (R93). -/
theorem down4_toNat (c : Quad Byte) :
    (down4 c).toNat = (c.l0.toNat + c.l1.toNat + c.l2.toNat + c.l3.toNat) / 4 := by
  obtain ⟨a, b, d, e⟩ := c
  have := a.isLt; have := b.isLt; have := d.isLt; have := e.isLt
  simp only [down4, toSample, asr, sample, BitVec.toNat_ofNat]
  omega

/-- `up4` as numbers (R100). -/
theorem up4_toNat (s : Quad Byte) :
    (up4 s).l0 = s.l0 ∧ (up4 s).l1.toNat = (s.l0.toNat + s.l1.toNat) / 2 ∧
      (up4 s).l2.toNat = (s.l0.toNat + s.l2.toNat) / 2 ∧
      (up4 s).l3.toNat = (s.l0.toNat + s.l1.toNat + s.l2.toNat + s.l3.toNat) / 4 := by
  obtain ⟨a, b, d, e⟩ := s
  have := a.isLt; have := b.isLt; have := d.isLt; have := e.isLt
  simp only [up4, toSample, asr, sample, BitVec.toNat_ofNat]
  refine ⟨trivial, ?_, ?_, ?_⟩ <;> omega

end Sys2Proof.Machine
end

