-- ==== Sys2Proof/Laws/Frames.lean ====
section
/-! SUPPORT. Frames: what each shared operation leaves unchanged, and how frames compose. -/

namespace Sys2Proof.Machine

theorem mem_bankRegs (k : Bank) (n : Fin 32) : n ∈ bankRegs k ↔ ∃ q, n = bankReg k q := by
  simp only [bankRegs, List.mem_cons, List.not_mem_nil, or_false]
  constructor
  · rintro (h | h | h | h)
    · exact ⟨0, h⟩
    · exact ⟨1, h⟩
    · exact ⟨2, h⟩
    · exact ⟨3, h⟩
  · rintro ⟨q, h⟩
    match q with
    | 0 => exact .inl h
    | 1 => exact .inr (.inl h)
    | 2 => exact .inr (.inr (.inl h))
    | 3 => exact .inr (.inr (.inr h))

@[simp] theorem mem_bankRegs_bankReg (k k' : Bank) (q : Fin 4) : bankReg k q ∈ bankRegs k' ↔ k = k' := by
  rw [mem_bankRegs]
  constructor
  · rintro ⟨q', h⟩; exact ((bankReg_inj _ _ _ _).1 h).1
  · rintro rfl; exact ⟨q, rfl⟩

/-- Nothing changes. -/
theorem FrameBut.refl (s : State) : FrameBut [] [] [] s s :=
  ⟨fun _ _ => rfl, fun _ _ _ => rfl, by simp, rfl, rfl, rfl⟩

/-- Frames compose: what both leave alone is left alone. -/
theorem FrameBut.trans {r r' : List (Fin 32)} {l l' : List (Plane × Nat)} {x x' : List Word} {s t u : State}
    (h : FrameBut r l x s t) (h' : FrameBut r' l' x' t u) :
    FrameBut (r ++ r') (l ++ l') (x ++ x') s u where
  registers n hn := by
    simp only [List.mem_append, not_or] at hn
    rw [h'.registers n hn.2, h.registers n hn.1]
  bytes p a ha := by
    simp only [List.mem_append, not_or] at ha
    rw [h'.bytes p a ha.2, h.bytes p a ha.1]
  responses := by rw [h'.responses, h.responses, List.append_assoc]
  config := by rw [h'.config, h.config]
  error := by rw [h'.error, h.error]
  inputs := by rw [h'.inputs, h.inputs]

/-- A larger list of exceptions is a weaker frame. -/
theorem FrameBut.mono {r r' : List (Fin 32)} {l l' : List (Plane × Nat)} {x : List Word} {s t : State}
    (h : FrameBut r l x s t) (hr : ∀ n ∈ r, n ∈ r') (hl : ∀ b ∈ l, b ∈ l') : FrameBut r' l' x s t :=
  ⟨fun n hn => h.registers n fun e => hn (hr n e), fun p a ha => h.bytes p a fun e => ha (hl _ e),
    h.responses, h.config, h.error, h.inputs⟩

theorem State.frame_writeReg (s : State) (n : Fin 32) (v : Byte) : FrameBut [n] [] [] s (s.writeReg n v) :=
  ⟨fun m hm => by simp at hm; simp [hm], fun _ _ _ => rfl, by simp, rfl, rfl, rfl⟩

theorem State.frame_writeBank (s : State) (k : Bank) (x : Quad Byte) :
    FrameBut (bankRegs k) [] [] s (s.writeBank k x) where
  registers n hn := by
    obtain ⟨k', q, rfl⟩ := exists_bankReg n
    simp only [mem_bankRegs_bankReg] at hn
    simp [hn]
  bytes _ _ _ := rfl
  responses := by simp
  config := rfl
  error := rfl
  inputs := rfl

theorem State.frame_respond (s : State) (w : Word) : FrameBut [] [] [w] s (s.respond w) :=
  ⟨fun _ _ => rfl, fun _ _ _ => rfl, rfl, rfl, rfl, rfl⟩

theorem State.frame_poke (s : State) (p : Plane) (a : Nat) (v : Byte) : FrameBut [] [(p, a)] [] s (s.poke p a v) :=
  ⟨fun _ _ => rfl, fun q b hb => by simp at hb; simp; intro e e'; exact absurd e' (hb e), by simp, rfl, rfl, rfl⟩

theorem State.frame_storePixels (s : State) (p : Plane) (br bc : Nat) (v : Quad Byte) :
    FrameBut [] (pixelLocations s.cfg p br bc) [] s (s.storePixels p br bc v) :=
  ⟨fun _ _ => rfl, fun q a ha => s.peek_storePixels_of_not_mem p q br bc a v ha, by simp, rfl, rfl, rfl⟩

/-- Storing the forward results of a block changes its YCbCr locations and nothing else. -/
theorem State.frame_storeYcc (s : State) (br bc : Nat) (y : Quad Byte) (cb cr : Byte) :
    FrameBut [] (yccLocations s.cfg br bc) [] s (s.storeYcc br bc y cb cr) := by
  have f1 := s.frame_storePixels .py br bc y
  have f2 := (s.storePixels .py br bc y).frame_poke .pcb (addrChroma s.cfg br bc) cb
  have f3 := ((s.storePixels .py br bc y).poke .pcb (addrChroma s.cfg br bc) cb).frame_poke .pcr
    (addrChroma s.cfg br bc) cr
  refine ((f1.trans f2).trans f3).mono (by simp) fun x hx => ?_
  simp only [List.mem_append, List.mem_cons, List.not_mem_nil, yccLocations] at hx ⊢
  tauto

/-- Storing the RGB of a block changes its RGB locations and nothing else. -/
theorem State.frame_storeRgb (s : State) (br bc : Nat) (r g b : Quad Byte) :
    FrameBut [] (rgbLocations s.cfg br bc) [] s (s.storeRgb br bc r g b) := by
  have f1 := s.frame_storePixels .pr br bc r
  have f2 := (s.storePixels .pr br bc r).frame_storePixels .pg br bc g
  have f3 := ((s.storePixels .pr br bc r).storePixels .pg br bc g).frame_storePixels .pb br bc b
  rw [State.storePixels_cfg] at f2
  rw [State.storePixels_cfg, State.storePixels_cfg] at f3
  exact ((f1.trans f2).trans f3).mono (by simp) fun x hx => hx

/-- The reconstruction writes the RGB banks and nothing else. -/
theorem State.frame_writeRecon (s : State) (y cb cr : Quad Byte) :
    FrameBut (bankRegs .r ++ bankRegs .g ++ bankRegs .b) [] [] s (s.writeRecon y cb cr) :=
  ((s.frame_writeBank .r _).trans (State.frame_writeBank _ .g _)).trans (State.frame_writeBank _ .b _)

end Sys2Proof.Machine
end

