-- ==== Sys2Proof/Laws/Bodies.lean ====
section
/-! SUPPORT. One spec lemma per command body: what it answers when its sources are valid and its block is in the
raster, and everything it can do otherwise.  Provers cite these and do not unfold the bodies. -/

namespace Sys2Proof.Machine

/-- The four registers of a bank are valid and hold the lanes of `v`. -/
def State.holds (s : State) (k : Bank) (v : Quad Byte) : Prop := ∀ q, s.reg (bankReg k q) = some (laneOf v q)

theorem State.readBank_of_holds {s : State} {k : Bank} {v : Quad Byte} (h : s.holds k v) :
    s.readBank k = .ok v := (State.readBank_ok_iff s k v).2 h

/-- A bank with four valid registers holds some bundle. -/
theorem State.holds_of_valid {s : State} {k : Bank} (h : ∀ n ∈ bankRegs k, s.reg n ≠ none) :
    ∃ v, s.holds k v := by
  rcases s.readBank_cases k with ⟨v, -, hv⟩ | ⟨-, q, hq⟩
  · exact ⟨v, hv⟩
  · exact absurd hq (h _ (by simp))

theorem State.holds_valid {s : State} {k : Bank} {v : Quad Byte} (h : s.holds k v) :
    ∀ n ∈ bankRegs k, s.reg n ≠ none := by
  intro n hn
  obtain ⟨q, rfl⟩ := (mem_bankRegs k n).1 hn
  rw [h q]; simp

@[simp] theorem State.holds_writeBank (s : State) (k k' : Bank) (x v : Quad Byte) :
    (s.writeBank k x).holds k' v ↔ if k' = k then v = x else s.holds k' v := by
  unfold State.holds
  split
  · subst k'
    simp only [State.reg_writeBank, if_true, Option.some.injEq]
    exact ⟨fun h => Quad.ext_laneOf v x fun q => (h q).symm, fun h q => by rw [h]⟩
  · rename_i h
    simp [h]

/-- A bank read either gives the bundle it holds or raises, with one of its registers invalid. -/
theorem State.readBank_holds_cases (s : State) (k : Bank) :
    (∃ v, s.readBank k = .ok v ∧ s.holds k v) ∨
      (s.readBank k = .error .uninitReg ∧ ∃ n ∈ bankRegs k, s.reg n = none) := by
  rcases s.readBank_cases k with ⟨v, h, hv⟩ | ⟨h, q, hq⟩
  · exact .inl ⟨v, h, hv⟩
  · exact .inr ⟨h, _, by simp, hq⟩

variable {s : State} {br bc : Nat} {r g b y cb cr cbs crs : Quad Byte}

/-! The datapath commands. -/

theorem lumaBody_ok (hr : s.holds .r r) (hg : s.holds .g g) (hb : s.holds .b b) :
    lumaBody s = .ok (s.writeBank .y (lanes3 (lumaPx s.cfg) r g b)) := by
  simp [lumaBody, State.readBank_of_holds hr, State.readBank_of_holds hg, State.readBank_of_holds hb]

theorem chromaBody_ok (hr : s.holds .r r) (hg : s.holds .g g) (hb : s.holds .b b) :
    chromaBody s =
      .ok ((s.writeBank .cb (lanes3 (cbPx s.cfg) r g b)).writeBank .cr (lanes3 (crPx s.cfg) r g b)) := by
  simp [chromaBody, State.readBank_of_holds hr, State.readBank_of_holds hg, State.readBank_of_holds hb]

theorem dsBody_ok (hcb : s.holds .cb cb) (hcr : s.holds .cr cr) :
    dsBody s = .ok ((s.writeReg (bankReg .cbs 0) (down4 cb)).writeReg (bankReg .crs 0) (down4 cr)) := by
  simp [dsBody, State.readBank_of_holds hcb, State.readBank_of_holds hcr]

theorem fwdwBody_ok (hr : s.holds .r r) (hg : s.holds .g g) (hb : s.holds .b b) :
    fwdwBody s =
      .ok (((((s.writeBank .y (lanes3 (lumaPx s.cfg) r g b)).writeBank .cb
        (lanes3 (cbPx s.cfg) r g b)).writeBank .cr (lanes3 (crPx s.cfg) r g b)).writeReg (bankReg .cbs 0)
          (down4 (lanes3 (cbPx s.cfg) r g b))).writeReg (bankReg .crs 0) (down4 (lanes3 (crPx s.cfg) r g b))) := by
  simp [fwdwBody, State.readBank_of_holds hr, State.readBank_of_holds hg, State.readBank_of_holds hb]

theorem usBody_ok (hcbs : s.holds .cbs cbs) (hcrs : s.holds .crs crs) :
    usBody s = .ok ((s.writeBank .cb (up4 cbs)).writeBank .cr (up4 crs)) := by
  simp [usBody, State.readBank_of_holds hcbs, State.readBank_of_holds hcrs]

theorem reconBody_ok (hy : s.holds .y y) (hcb : s.holds .cb cb) (hcr : s.holds .cr cr) :
    reconBody s = .ok (s.writeRecon y cb cr) := by
  simp [reconBody, State.readBank_of_holds hy, State.readBank_of_holds hcb, State.readBank_of_holds hcr]

theorem invwBody_ok (hy : s.holds .y y) (hcbs : s.holds .cbs cbs) (hcrs : s.holds .crs crs) :
    invwBody s =
      .ok (((s.writeBank .cb (up4 cbs)).writeBank .cr (up4 crs)).writeRecon y (up4 cbs) (up4 crs)) := by
  simp [invwBody, State.readBank_of_holds hy, State.readBank_of_holds hcbs, State.readBank_of_holds hcrs]

/-! Loads and stores. -/

theorem ldrgbBody_ok (hb : br ≤ s.cfg.brMax ∧ bc ≤ s.cfg.bcMax) :
    ldrgbBody br bc s =
      .ok (((s.writeBank .r (s.loadPixels .pr br bc)).writeBank .g (s.loadPixels .pg br bc)).writeBank .b
        (s.loadPixels .pb br bc)) := by
  simp [ldrgbBody, checkBlock_ok hb]

theorem ldyccBody_ok (hb : br ≤ s.cfg.brMax ∧ bc ≤ s.cfg.bcMax) :
    ldyccBody br bc s =
      .ok (((s.writeBank .y (s.loadPixels .py br bc)).writeBank .cbs (s.loadNeighbours .pcb br bc)).writeBank
        .crs (s.loadNeighbours .pcr br bc)) := by
  simp [ldyccBody, checkBlock_ok hb]

theorem styccBody_ok {u v : Byte} (hb : br ≤ s.cfg.brMax ∧ bc ≤ s.cfg.bcMax) (hy : s.holds .y y)
    (hu : s.reg (bankReg .cbs 0) = some u) (hv : s.reg (bankReg .crs 0) = some v) :
    styccBody br bc s =
      .ok (s.storeYcc br bc y u v) := by
  simp [styccBody, checkBlock_ok hb, State.readBank_of_holds hy, State.readReg_ok hu, State.readReg_ok hv]

theorem strgbBody_ok (hk : br ≤ s.cfg.brMax ∧ bc ≤ s.cfg.bcMax) (hr : s.holds .r r) (hg : s.holds .g g)
    (hb : s.holds .b b) :
    strgbBody br bc s = .ok (s.storeRgb br bc r g b) := by
  simp [strgbBody, checkBlock_ok hk, State.readBank_of_holds hr, State.readBank_of_holds hg,
    State.readBank_of_holds hb]

theorem ldrgbBody_badBlock (hb : ¬(br ≤ s.cfg.brMax ∧ bc ≤ s.cfg.bcMax)) :
    ldrgbBody br bc s = .error .badBlock := by simp [ldrgbBody, checkBlock_error hb]

theorem ldyccBody_badBlock (hb : ¬(br ≤ s.cfg.brMax ∧ bc ≤ s.cfg.bcMax)) :
    ldyccBody br bc s = .error .badBlock := by simp [ldyccBody, checkBlock_error hb]

theorem styccBody_badBlock (hb : ¬(br ≤ s.cfg.brMax ∧ bc ≤ s.cfg.bcMax)) :
    styccBody br bc s = .error .badBlock := by simp [styccBody, checkBlock_error hb]

theorem strgbBody_badBlock (hb : ¬(br ≤ s.cfg.brMax ∧ bc ≤ s.cfg.bcMax)) :
    strgbBody br bc s = .error .badBlock := by simp [strgbBody, checkBlock_error hb]

theorem fwdblkBody_badBlock (hb : ¬(br ≤ s.cfg.brMax ∧ bc ≤ s.cfg.bcMax)) :
    fwdblkBody br bc s = .error .badBlock := by simp [fwdblkBody, ldrgbBody_badBlock hb]

theorem invblkBody_badBlock (hb : ¬(br ≤ s.cfg.brMax ∧ bc ≤ s.cfg.bcMax)) :
    invblkBody br bc s = .error .badBlock := by simp [invblkBody, ldyccBody_badBlock hb]

/-! The block commands: they never raise inside the raster (R120, R121). -/

/-- Everything `FWDBLK` does to a block of the raster. -/
theorem fwdblkBody_ok (hk : br ≤ s.cfg.brMax ∧ bc ≤ s.cfg.bcMax)
    (hr : r = s.loadPixels .pr br bc) (hg : g = s.loadPixels .pg br bc) (hb : b = s.loadPixels .pb br bc)
    (hcb : cb = lanes3 (cbPx s.cfg) r g b) (hcr : cr = lanes3 (crPx s.cfg) r g b) :
    ∃ t, fwdblkBody br bc s = .ok t ∧
      t.holds .r r ∧ t.holds .g g ∧ t.holds .b b ∧ t.holds .y (lanes3 (lumaPx s.cfg) r g b) ∧
      t.holds .cb cb ∧ t.holds .cr cr ∧
      t.reg (bankReg .cbs 0) = some (down4 cb) ∧ t.reg (bankReg .crs 0) = some (down4 cr) ∧
      FrameBut (destinations (.fwdblk br bc)) (yccLocations s.cfg br bc) [] s t ∧
      (s.cfg.wf = true → ∀ q, t.peek .py (pixelAddr s.cfg br bc q) =
        lumaPx s.cfg (laneOf r q) (laneOf g q) (laneOf b q)) ∧
      t.peek .pcb (addrChroma s.cfg br bc) = down4 cb ∧ t.peek .pcr (addrChroma s.cfg br bc) = down4 cr := by
  subst hr hg hb hcb hcr
  have h1 := ldrgbBody_ok (s := s) hk
  generalize hs1 : ((s.writeBank .r (s.loadPixels .pr br bc)).writeBank .g (s.loadPixels .pg br bc)).writeBank .b
    (s.loadPixels .pb br bc) = s1 at h1
  have f1 : FrameBut (bankRegs .r ++ bankRegs .g ++ bankRegs .b) [] [] s s1 := by
    rw [← hs1]
    exact ((s.frame_writeBank .r _).trans (State.frame_writeBank _ .g _)).trans (State.frame_writeBank _ .b _)
  have hr1 : s1.holds .r (s.loadPixels .pr br bc) := by simp [← hs1]
  have hg1 : s1.holds .g (s.loadPixels .pg br bc) := by simp [← hs1]
  have hb1 : s1.holds .b (s.loadPixels .pb br bc) := by simp [← hs1]
  have c1 : s1.cfg = s.cfg := f1.config
  have h2 := fwdwBody_ok hr1 hg1 hb1
  rw [c1] at h2
  generalize hY : lanes3 (lumaPx s.cfg) (s.loadPixels .pr br bc) (s.loadPixels .pg br bc)
    (s.loadPixels .pb br bc) = Y at h2
  generalize hCB : lanes3 (cbPx s.cfg) (s.loadPixels .pr br bc) (s.loadPixels .pg br bc)
    (s.loadPixels .pb br bc) = CB at h2
  generalize hCR : lanes3 (crPx s.cfg) (s.loadPixels .pr br bc) (s.loadPixels .pg br bc)
    (s.loadPixels .pb br bc) = CR at h2
  generalize hs2 : (((((s1.writeBank .y Y).writeBank .cb CB).writeBank .cr CR).writeReg (bankReg .cbs 0)
    (down4 CB)).writeReg (bankReg .crs 0) (down4 CR)) = s2 at h2
  have f2 : FrameBut (bankRegs .y ++ bankRegs .cb ++ bankRegs .cr ++ [bankReg .cbs 0] ++ [bankReg .crs 0])
      [] [] s1 s2 := by
    rw [← hs2]
    exact ((((s1.frame_writeBank .y _).trans (State.frame_writeBank _ .cb _)).trans
      (State.frame_writeBank _ .cr _)).trans (State.frame_writeReg _ _ _)).trans (State.frame_writeReg _ _ _)
  have c2 : s2.cfg = s.cfg := by rw [f2.config, c1]
  have hy2 : s2.holds .y Y := fun q => by simp [← hs2]
  have hcb2 : s2.holds .cb CB := fun q => by simp [← hs2]
  have hcr2 : s2.holds .cr CR := fun q => by simp [← hs2]
  have hu2 : s2.reg (bankReg .cbs 0) = some (down4 CB) := by simp [← hs2]
  have hv2 : s2.reg (bankReg .crs 0) = some (down4 CR) := by simp [← hs2]
  have hr2 : s2.holds .r (s.loadPixels .pr br bc) := fun q => by
    rw [f2.registers _ (by simp), hr1 q]
  have hg2 : s2.holds .g (s.loadPixels .pg br bc) := fun q => by
    rw [f2.registers _ (by simp), hg1 q]
  have hb2 : s2.holds .b (s.loadPixels .pb br bc) := fun q => by
    rw [f2.registers _ (by simp), hb1 q]
  have h3 := styccBody_ok (s := s2) (br := br) (bc := bc) (by rw [c2]; exact hk) hy2 hu2 hv2
  generalize hs3 : s2.storeYcc br bc Y (down4 CB) (down4 CR) = s3 at h3
  have f3 : FrameBut [] (yccLocations s2.cfg br bc) [] s2 s3 := hs3 ▸ s2.frame_storeYcc br bc Y _ _
  have same : ∀ n, s3.reg n = s2.reg n := fun n => f3.registers n (by simp)
  refine ⟨s3, by simp [fwdblkBody, h1, h2, h3], ?_, ?_, ?_, ?_, ?_, ?_, ?_, ?_, ?_, ?_, ?_, ?_⟩
  · exact fun q => by rw [same, hr2 q]
  · exact fun q => by rw [same, hg2 q]
  · exact fun q => by rw [same, hb2 q]
  · exact fun q => by rw [same, hy2 q]
  · exact fun q => by rw [same, hcb2 q]
  · exact fun q => by rw [same, hcr2 q]
  · rw [same, hu2]
  · rw [same, hv2]
  · refine ((f1.trans f2).trans f3).mono ?_ ?_
    · intro n hn
      simp only [destinations, List.mem_append, List.append_nil, List.mem_cons, List.not_mem_nil] at hn ⊢
      tauto
    · exact fun x hx => by simpa [c2] using hx
  · intro hw q
    have e := (s2.peek_storeYcc br bc Y (down4 CB) (down4 CR)).1 (by rw [c2]; exact hw)
      (by rw [c2]; exact hk) q
    rw [hs3, c2, ← hY, laneOf_lanes3] at e
    exact e
  · have e := (s2.peek_storeYcc br bc Y (down4 CB) (down4 CR)).2.1
    rwa [hs3, c2] at e
  · have e := (s2.peek_storeYcc br bc Y (down4 CB) (down4 CR)).2.2
    rwa [hs3, c2] at e

/-- Everything `INVBLK` does to a block of the raster. -/
theorem invblkBody_ok (hk : br ≤ s.cfg.brMax ∧ bc ≤ s.cfg.bcMax)
    (hy : y = s.loadPixels .py br bc) (hcbs : cbs = s.loadNeighbours .pcb br bc)
    (hcrs : crs = s.loadNeighbours .pcr br bc) :
    ∃ t, invblkBody br bc s = .ok t ∧
      t.holds .y y ∧ t.holds .cbs cbs ∧ t.holds .crs crs ∧ t.holds .cb (up4 cbs) ∧ t.holds .cr (up4 crs) ∧
      t.holds .r (lanes2 (reconRed s.cfg) y (up4 crs)) ∧
      t.holds .g (lanes3 (reconGreen s.cfg) y (up4 cbs) (up4 crs)) ∧
      t.holds .b (lanes2 (reconBlue s.cfg) y (up4 cbs)) ∧
      FrameBut (destinations (.invblk br bc)) (rgbLocations s.cfg br bc) [] s t ∧
      (s.cfg.wf = true → ∀ q,
        t.peek .pr (pixelAddr s.cfg br bc q) = reconRed s.cfg (laneOf y q) (laneOf (up4 crs) q) ∧
        t.peek .pg (pixelAddr s.cfg br bc q) =
          reconGreen s.cfg (laneOf y q) (laneOf (up4 cbs) q) (laneOf (up4 crs) q) ∧
        t.peek .pb (pixelAddr s.cfg br bc q) = reconBlue s.cfg (laneOf y q) (laneOf (up4 cbs) q)) := by
  subst hy hcbs hcrs
  have h1 := ldyccBody_ok (s := s) hk
  generalize hY : s.loadPixels .py br bc = Y at h1 ⊢
  generalize hCBS : s.loadNeighbours .pcb br bc = CBS at h1 ⊢
  generalize hCRS : s.loadNeighbours .pcr br bc = CRS at h1 ⊢
  generalize hs1 : ((s.writeBank .y Y).writeBank .cbs CBS).writeBank .crs CRS = s1 at h1
  have f1 : FrameBut (bankRegs .y ++ bankRegs .cbs ++ bankRegs .crs) [] [] s s1 := by
    rw [← hs1]
    exact ((s.frame_writeBank .y _).trans (State.frame_writeBank _ .cbs _)).trans (State.frame_writeBank _ .crs _)
  have hy1 : s1.holds .y Y := by simp [← hs1]
  have hcbs1 : s1.holds .cbs CBS := by simp [← hs1]
  have hcrs1 : s1.holds .crs CRS := by simp [← hs1]
  have c1 : s1.cfg = s.cfg := f1.config
  have h2 := invwBody_ok hy1 hcbs1 hcrs1
  generalize hs2 : ((s1.writeBank .cb (up4 CBS)).writeBank .cr (up4 CRS)).writeRecon Y (up4 CBS) (up4 CRS) = s2
    at h2
  have f2 : FrameBut (bankRegs .cb ++ bankRegs .cr ++ (bankRegs .r ++ bankRegs .g ++ bankRegs .b)) [] [] s1 s2 := by
    rw [← hs2]
    exact ((s1.frame_writeBank .cb _).trans (State.frame_writeBank _ .cr _)).trans (State.frame_writeRecon _ _ _ _)
  have c2 : s2.cfg = s.cfg := by rw [f2.config, c1]
  have hcb2 : s2.holds .cb (up4 CBS) := fun q => by simp [← hs2, State.writeRecon]
  have hcr2 : s2.holds .cr (up4 CRS) := fun q => by simp [← hs2, State.writeRecon]
  have hr2 : s2.holds .r (lanes2 (reconRed s.cfg) Y (up4 CRS)) := fun q => by
    simp [← hs2, State.writeRecon, c1]
  have hg2 : s2.holds .g (lanes3 (reconGreen s.cfg) Y (up4 CBS) (up4 CRS)) := fun q => by
    simp [← hs2, State.writeRecon, c1]
  have hb2 : s2.holds .b (lanes2 (reconBlue s.cfg) Y (up4 CBS)) := fun q => by
    simp [← hs2, State.writeRecon, c1]
  have h3 := strgbBody_ok (s := s2) (br := br) (bc := bc) (by rw [c2]; exact hk) hr2 hg2 hb2
  generalize hs3 : s2.storeRgb br bc (lanes2 (reconRed s.cfg) Y (up4 CRS))
    (lanes3 (reconGreen s.cfg) Y (up4 CBS) (up4 CRS)) (lanes2 (reconBlue s.cfg) Y (up4 CBS)) = s3 at h3
  have f3 : FrameBut [] (rgbLocations s2.cfg br bc) [] s2 s3 := hs3 ▸ s2.frame_storeRgb br bc _ _ _
  have same : ∀ n, s3.reg n = s2.reg n := fun n => f3.registers n (by simp)
  have keep : ∀ k, k = .y ∨ k = .cbs ∨ k = .crs → ∀ q, s3.reg (bankReg k q) = s1.reg (bankReg k q) := by
    intro k hk' q
    rw [same, f2.registers]
    rcases hk' with rfl | rfl | rfl <;> simp
  refine ⟨s3, by simp [invblkBody, h1, h2, h3], ?_, ?_, ?_, ?_, ?_, ?_, ?_, ?_, ?_, ?_⟩
  · exact fun q => by rw [keep _ (by simp), hy1 q]
  · exact fun q => by rw [keep _ (by simp), hcbs1 q]
  · exact fun q => by rw [keep _ (by simp), hcrs1 q]
  · exact fun q => by rw [same, hcb2 q]
  · exact fun q => by rw [same, hcr2 q]
  · exact fun q => by rw [same, hr2 q]
  · exact fun q => by rw [same, hg2 q]
  · exact fun q => by rw [same, hb2 q]
  · refine ((f1.trans f2).trans f3).mono ?_ ?_
    · intro n hn
      simp only [destinations, List.mem_append, List.append_nil] at hn ⊢
      tauto
    · exact fun x hx => by simpa [c2] using hx
  · intro hw q
    have e := State.peek_storeRgb s2 br bc (lanes2 (reconRed s.cfg) Y (up4 CRS))
      (lanes3 (reconGreen s.cfg) Y (up4 CBS) (up4 CRS)) (lanes2 (reconBlue s.cfg) Y (up4 CBS)) q
      (by rw [c2]; exact hw) (by rw [c2]; exact hk)
    rw [hs3, c2, laneOf_lanes2, laneOf_lanes2, laneOf_lanes3] at e
    exact e

end Sys2Proof.Machine
end

