-- ==== Sys2Proof/Laws/Planes.lean ====
section
/-! SUPPORT. The plane commands: one induction over the list of blocks for each direction, saying what every block
stored and that nothing else changed. -/

namespace Sys2Proof.Machine

/-- What the forward transform stores for a block of `s`: the luma of a lane (R90, R94). -/
def fwdLumaOf (s : State) (br bc : Nat) (q : Fin 4) : Byte :=
  lumaPx s.cfg (s.peek .pr (pixelAddr s.cfg br bc q)) (s.peek .pg (pixelAddr s.cfg br bc q))
    (s.peek .pb (pixelAddr s.cfg br bc q))

/-- The downsampled Cb of a block of `s` (R91, R93). -/
def fwdCbOf (s : State) (br bc : Nat) : Byte :=
  down4 (lanes3 (cbPx s.cfg) (s.loadPixels .pr br bc) (s.loadPixels .pg br bc) (s.loadPixels .pb br bc))

/-- The downsampled Cr of a block of `s` (R92, R93). -/
def fwdCrOf (s : State) (br bc : Nat) : Byte :=
  down4 (lanes3 (crPx s.cfg) (s.loadPixels .pr br bc) (s.loadPixels .pg br bc) (s.loadPixels .pb br bc))

/-- What the inverse transform stores for a lane of a block of `s`: red, green, blue (R100, R101). -/
def invRgbOf (s : State) (br bc : Nat) (q : Fin 4) : Byte × Byte × Byte :=
  let y := s.peek .py (pixelAddr s.cfg br bc q)
  let cb := laneOf (up4 (s.loadNeighbours .pcb br bc)) q
  let cr := laneOf (up4 (s.loadNeighbours .pcr br bc)) q
  (reconRed s.cfg y cr, reconGreen s.cfg y cb cr, reconBlue s.cfg y cb)

/-- Two states with the same parameters and the same RGB planes have the same forward results. -/
theorem fwd_congr {s t : State} (hc : t.cfg = s.cfg)
    (h : ∀ p, p = .pr ∨ p = .pg ∨ p = .pb → ∀ a, t.peek p a = s.peek p a) (br bc : Nat) :
    (∀ q, fwdLumaOf t br bc q = fwdLumaOf s br bc q) ∧ fwdCbOf t br bc = fwdCbOf s br bc ∧
      fwdCrOf t br bc = fwdCrOf s br bc := by
  have e : ∀ p, p = .pr ∨ p = .pg ∨ p = .pb → t.loadPixels p br bc = s.loadPixels p br bc := fun p hp => by
    unfold State.loadPixels
    congr 1
    funext q
    rw [hc, h p hp]
  unfold fwdLumaOf fwdCbOf fwdCrOf
  rw [e .pr (by simp), e .pg (by simp), e .pb (by simp), hc]
  exact ⟨fun q => by rw [h .pr (by simp), h .pg (by simp), h .pb (by simp)], rfl, rfl⟩

/-- Two states with the same parameters and the same YCbCr planes have the same inverse results. -/
theorem inv_congr {s t : State} (hc : t.cfg = s.cfg)
    (h : ∀ p, p = .py ∨ p = .pcb ∨ p = .pcr → ∀ a, t.peek p a = s.peek p a) (br bc : Nat) (q : Fin 4) :
    invRgbOf t br bc q = invRgbOf s br bc q := by
  have e : ∀ p, p = .py ∨ p = .pcb ∨ p = .pcr → t.loadNeighbours p br bc = s.loadNeighbours p br bc :=
    fun p hp => by
      unfold State.loadNeighbours
      congr 1
      funext q
      rw [hc, h p hp]
  unfold invRgbOf
  rw [e .pcb (by simp), e .pcr (by simp), hc, h .py (by simp)]

/-- One block of the raster forward, in terms of the state before. -/
theorem fwdblkBody_spec {s : State} {br bc : Nat} (hk : br ≤ s.cfg.brMax ∧ bc ≤ s.cfg.bcMax) :
    ∃ t, fwdblkBody br bc s = .ok t ∧
      FrameBut (destinations (.fwdblk br bc)) (yccLocations s.cfg br bc) [] s t ∧
      (s.cfg.wf = true → ∀ q, t.peek .py (pixelAddr s.cfg br bc q) = fwdLumaOf s br bc q) ∧
      t.peek .pcb (addrChroma s.cfg br bc) = fwdCbOf s br bc ∧
      t.peek .pcr (addrChroma s.cfg br bc) = fwdCrOf s br bc := by
  obtain ⟨t, ht, -, -, -, -, -, -, -, -, hf, hy, hcb, hcr⟩ := fwdblkBody_ok hk rfl rfl rfl rfl rfl
  refine ⟨t, ht, hf, fun hw q => ?_, hcb, hcr⟩
  rw [hy hw q]
  simp [fwdLumaOf, State.loadPixels]

/-- One block of the raster inverse, in terms of the state before. -/
theorem invblkBody_spec {s : State} {br bc : Nat} (hk : br ≤ s.cfg.brMax ∧ bc ≤ s.cfg.bcMax) :
    ∃ t, invblkBody br bc s = .ok t ∧
      FrameBut (destinations (.invblk br bc)) (rgbLocations s.cfg br bc) [] s t ∧
      (s.cfg.wf = true → ∀ q,
        (t.peek .pr (pixelAddr s.cfg br bc q), t.peek .pg (pixelAddr s.cfg br bc q),
          t.peek .pb (pixelAddr s.cfg br bc q)) = invRgbOf s br bc q) := by
  obtain ⟨t, ht, -, -, -, -, -, -, -, -, hf, hv⟩ := invblkBody_ok hk rfl rfl rfl
  refine ⟨t, ht, hf, fun hw q => ?_⟩
  obtain ⟨h1, h2, h3⟩ := hv hw q
  rw [h1, h2, h3]
  simp [invRgbOf, State.loadPixels]

/-- Different blocks store forward results at different locations. -/
theorem yccLocations_disjoint {c : Config} (hw : c.wf = true) {br bc br' bc' : Nat}
    (hk : br ≤ c.brMax ∧ bc ≤ c.bcMax) (hk' : br' ≤ c.brMax ∧ bc' ≤ c.bcMax) (hne : (br, bc) ≠ (br', bc'))
    {x : Plane × Nat} (h : x ∈ yccLocations c br bc) : x ∉ yccLocations c br' bc' := by
  obtain ⟨p, a⟩ := x
  rw [mem_yccLocations] at h ⊢
  rintro (⟨hp, l, e⟩ | ⟨hp, e⟩)
  · rcases h with ⟨-, l', e'⟩ | ⟨hp', -⟩
    · obtain ⟨h1, h2, -⟩ := pixelAddr_inj hw hk hk' (e'.symm.trans e)
      exact hne (by rw [h1, h2])
    · subst hp; rcases hp' with h | h <;> exact absurd h (by simp)
  · rcases h with ⟨hp', -⟩ | ⟨-, e'⟩
    · subst hp'; rcases hp with h | h <;> exact absurd h (by simp)
    · obtain ⟨h1, h2⟩ := addrChroma_inj hw hk hk' (e'.symm.trans e)
      exact hne (by rw [h1, h2])

/-- Different blocks store RGB results at different locations. -/
theorem rgbLocations_disjoint {c : Config} (hw : c.wf = true) {br bc br' bc' : Nat}
    (hk : br ≤ c.brMax ∧ bc ≤ c.bcMax) (hk' : br' ≤ c.brMax ∧ bc' ≤ c.bcMax) (hne : (br, bc) ≠ (br', bc'))
    {x : Plane × Nat} (h : x ∈ rgbLocations c br bc) : x ∉ rgbLocations c br' bc' := by
  obtain ⟨p, a⟩ := x
  rw [mem_rgbLocations] at h ⊢
  rintro ⟨-, l, e⟩
  obtain ⟨-, l', e'⟩ := h
  obtain ⟨h1, h2, -⟩ := pixelAddr_inj hw hk hk' (e'.symm.trans e)
  exact hne (by rw [h1, h2])

/-- EVERYTHING THE FORWARD BLOCK LOOP CAN DO, over any list of blocks of the raster: it never raises, it changes no
byte outside the blocks' YCbCr locations, and over a legal raster and a list without repeats every block ends with
the results of the state before the loop. -/
theorem overBlocks_fwd (l : List (Nat × Nat)) (s : State)
    (hl : ∀ b ∈ l, b.1 ≤ s.cfg.brMax ∧ b.2 ≤ s.cfg.bcMax) :
    ∃ t, overBlocks fwdblkBody l s = .ok t ∧
      SameBytesBut (l.flatMap fun b => yccLocations s.cfg b.1 b.2) s t ∧
      t.cfg = s.cfg ∧ t.err = s.err ∧ t.inputs = s.inputs ∧ t.responses = s.responses ∧
      (s.cfg.wf = true → l.Nodup → ∀ br bc, (br, bc) ∈ l →
        (∀ q, t.peek .py (pixelAddr s.cfg br bc q) = fwdLumaOf s br bc q) ∧
        t.peek .pcb (addrChroma s.cfg br bc) = fwdCbOf s br bc ∧
        t.peek .pcr (addrChroma s.cfg br bc) = fwdCrOf s br bc) := by
  induction l generalizing s with
  | nil => exact ⟨s, rfl, fun _ _ _ => rfl, rfl, rfl, rfl, rfl, fun _ _ _ _ h => absurd h (by simp)⟩
  | cons b l ih =>
    obtain ⟨br0, bc0⟩ := b
    have hb0 : br0 ≤ s.cfg.brMax ∧ bc0 ≤ s.cfg.bcMax := hl (br0, bc0) (by simp)
    obtain ⟨t1, h1, f1, y1, cb1, cr1⟩ := fwdblkBody_spec hb0
    have c1 := f1.config
    obtain ⟨t, h2, f2, c2, e2, i2, r2, v2⟩ := ih t1 (by
      rw [c1]; exact fun b hb => hl b (by simp [hb]))
    rw [c1] at f2 c2 v2
    have src : ∀ p, p = .pr ∨ p = .pg ∨ p = .pb → ∀ a, t1.peek p a = s.peek p a := fun p hp a =>
      f1.bytes p a (by rw [mem_yccLocations]; rcases hp with rfl | rfl | rfl <;> simp)
    refine ⟨t, by simp [overBlocks, h1, h2], ?_, c2, by rw [e2, f1.error], by rw [i2, f1.inputs],
      by rw [r2, f1.responses, List.append_nil], ?_⟩
    · intro p a ha
      simp only [List.flatMap_cons, List.mem_append, not_or] at ha
      rw [f2 p a ha.2, f1.bytes p a ha.1]
    · intro hw hn br bc hm
      rw [List.nodup_cons] at hn
      rcases List.mem_cons.1 hm with h | h
      · cases h
        have stay : ∀ p a, (p, a) ∈ yccLocations s.cfg br0 bc0 → t.peek p a = t1.peek p a := fun p a ha =>
          f2 p a fun hmem => by
            obtain ⟨⟨br', bc'⟩, hb', hmem⟩ := List.mem_flatMap.1 hmem
            refine yccLocations_disjoint hw hb0 (hl (br', bc') (by simp [hb'])) ?_ ha hmem
            intro e
            exact hn.1 (e ▸ hb')
        refine ⟨fun q => ?_, ?_, ?_⟩
        · rw [stay _ _ (by simp [mem_yccLocations]), y1 hw q]
        · rw [stay _ _ (by simp [mem_yccLocations]), cb1]
        · rw [stay _ _ (by simp [mem_yccLocations]), cr1]
      · obtain ⟨w1, w2, w3⟩ := v2 hw hn.2 br bc h
        obtain ⟨g1, g2, g3⟩ := fwd_congr c1 src br bc
        exact ⟨fun q => by rw [w1 q, g1 q], by rw [w2, g2], by rw [w3, g3]⟩

/-- EVERYTHING THE INVERSE BLOCK LOOP CAN DO, over any list of blocks of the raster. -/
theorem overBlocks_inv (l : List (Nat × Nat)) (s : State)
    (hl : ∀ b ∈ l, b.1 ≤ s.cfg.brMax ∧ b.2 ≤ s.cfg.bcMax) :
    ∃ t, overBlocks invblkBody l s = .ok t ∧
      SameBytesBut (l.flatMap fun b => rgbLocations s.cfg b.1 b.2) s t ∧
      t.cfg = s.cfg ∧ t.err = s.err ∧ t.inputs = s.inputs ∧ t.responses = s.responses ∧
      (s.cfg.wf = true → l.Nodup → ∀ br bc, (br, bc) ∈ l → ∀ q,
        (t.peek .pr (pixelAddr s.cfg br bc q), t.peek .pg (pixelAddr s.cfg br bc q),
          t.peek .pb (pixelAddr s.cfg br bc q)) = invRgbOf s br bc q) := by
  induction l generalizing s with
  | nil => exact ⟨s, rfl, fun _ _ _ => rfl, rfl, rfl, rfl, rfl, fun _ _ _ _ h => absurd h (by simp)⟩
  | cons b l ih =>
    obtain ⟨br0, bc0⟩ := b
    have hb0 : br0 ≤ s.cfg.brMax ∧ bc0 ≤ s.cfg.bcMax := hl (br0, bc0) (by simp)
    obtain ⟨t1, h1, f1, y1⟩ := invblkBody_spec hb0
    have c1 := f1.config
    obtain ⟨t, h2, f2, c2, e2, i2, r2, v2⟩ := ih t1 (by
      rw [c1]; exact fun b hb => hl b (by simp [hb]))
    rw [c1] at f2 c2 v2
    have src : ∀ p, p = .py ∨ p = .pcb ∨ p = .pcr → ∀ a, t1.peek p a = s.peek p a := fun p hp a =>
      f1.bytes p a (by rw [mem_rgbLocations]; rcases hp with rfl | rfl | rfl <;> simp)
    refine ⟨t, by simp [overBlocks, h1, h2], ?_, c2, by rw [e2, f1.error], by rw [i2, f1.inputs],
      by rw [r2, f1.responses, List.append_nil], ?_⟩
    · intro p a ha
      simp only [List.flatMap_cons, List.mem_append, not_or] at ha
      rw [f2 p a ha.2, f1.bytes p a ha.1]
    · intro hw hn br bc hm q
      rw [List.nodup_cons] at hn
      rcases List.mem_cons.1 hm with h | h
      · cases h
        have stay : ∀ p a, (p, a) ∈ rgbLocations s.cfg br0 bc0 → t.peek p a = t1.peek p a := fun p a ha =>
          f2 p a fun hmem => by
            obtain ⟨⟨br', bc'⟩, hb', hmem⟩ := List.mem_flatMap.1 hmem
            refine rgbLocations_disjoint hw hb0 (hl (br', bc') (by simp [hb'])) ?_ ha hmem
            intro e
            exact hn.1 (e ▸ hb')
        rw [stay _ _ (by simp [mem_rgbLocations]), stay _ _ (by simp [mem_rgbLocations]),
          stay _ _ (by simp [mem_rgbLocations]), y1 hw q]
      · rw [v2 hw hn.2 br bc h q, inv_congr c1 src br bc q]

theorem rasterBlocks_inRaster (c : Config) : ∀ b ∈ rasterBlocks c, b.1 ≤ c.brMax ∧ b.2 ≤ c.bcMax :=
  fun b hb => (mem_rasterBlocks c b.1 b.2).1 hb

end Sys2Proof.Machine
end

