-- ==== Sys2Proof/Laws/Exec.lean ====
section
/-! SUPPORT. Every command as its body, and the one inversion lemma of `exec`: what a body that completes has read,
written and left alone, by the tables of R22 and R43. -/

namespace Sys2Proof.Machine

/-- The body of each command, `RDCSR` with its two cases. -/
def bodyOf : Instr → State → Except ErrCode State
  | .nop => nopBody
  | .wrw reg imm8 => wrwBody reg imm8
  | .rdw reg => rdwBody reg
  | .rdcsr csr => fun s =>
    match csrOfNumber csr with
    | some c => .ok (s.respond (csrWord s c))
    | none => undefinedCsrBody s
  | .ldrgb br bc => ldrgbBody br bc
  | .ldycc br bc => ldyccBody br bc
  | .stycc br bc => styccBody br bc
  | .strgb br bc => strgbBody br bc
  | .luma => lumaBody
  | .chroma => chromaBody
  | .ds => dsBody
  | .us => usBody
  | .recon => reconBody
  | .fwdw => fwdwBody
  | .invw => invwBody
  | .fwdblk br bc => fwdblkBody br bc
  | .invblk br bc => invblkBody br bc
  | .fwdpln => fwdplnBody
  | .invpln => invplnBody

/-- Except for an `RDCSR` of a defined number, a command is its body in the shape of every command. -/
theorem exec_eq_runCommand (i : Instr) (s : State) (h : ∀ csr c, i = .rdcsr csr → csrOfNumber csr ≠ some c) :
    exec i s = runCommand i (bodyOf i) s := by
  cases i with
  | rdcsr csr =>
    have hn : csrOfNumber csr = none := by
      rcases hc : csrOfNumber csr with _ | c
      · rfl
      · exact absurd hc (h csr c rfl)
    simp only [exec, execRdcsr, hn, runCommand, bodyOf]
  | _ => rfl

/-- An `RDCSR` of a defined number responds in any state, halted or not (R138). -/
theorem exec_rdcsr_defined {csr : Nat} {c : Csr} (s : State) (h : csrOfNumber csr = some c) :
    exec (.rdcsr csr) s = .next (s.respond (csrWord s c)) := by
  simp only [exec, execRdcsr, h]

/-- A running engine whose command's body completes. -/
theorem exec_of_ok {i : Instr} {s t : State} (h : s.err = none) (hb : bodyOf i s = .ok t) :
    exec i s = .next t := by
  by_cases hd : ∀ csr c, i = .rdcsr csr → csrOfNumber csr ≠ some c
  · rw [exec_eq_runCommand i s hd]; exact runCommand_ok h hb
  · simp only [not_forall, not_not] at hd
    obtain ⟨csr, c, rfl, hc⟩ := hd
    simp only [bodyOf, hc, Except.ok.injEq] at hb
    rw [exec_rdcsr_defined s hc, hb]

/-- A running engine whose command's body raises: error entry (R135). -/
theorem exec_of_error {i : Instr} {s : State} {code : ErrCode} (h : s.err = none)
    (hb : bodyOf i s = .error code) :
    exec i s = .next { s with err := some ⟨code, encode i⟩ } := by
  rw [exec_eq_runCommand i s ?_]
  · exact runCommand_error h hb
  · rintro csr c rfl hc
    simp [bodyOf, hc] at hb

/-- A halted engine discards every command but an `RDCSR` of a defined number (R138). -/
theorem exec_of_halted {i : Instr} {s : State} (h : s.err ≠ none)
    (hd : ∀ csr c, i = .rdcsr csr → csrOfNumber csr ≠ some c) : exec i s = .next s := by
  rw [exec_eq_runCommand i s hd]; exact runCommand_halted h

/-- EVERYTHING `exec` CAN DO, in terms of the body. -/
theorem exec_cases (i : Instr) (s : State) :
    (s.err = none ∧ ∃ t, bodyOf i s = .ok t ∧ exec i s = .next t) ∨
      (s.err = none ∧ ∃ code, bodyOf i s = .error code ∧
        exec i s = .next { s with err := some ⟨code, encode i⟩ }) ∨
      (s.err ≠ none ∧ (∀ csr c, i = .rdcsr csr → csrOfNumber csr ≠ some c) ∧ exec i s = .next s) ∨
      (s.err ≠ none ∧ ∃ csr c, i = .rdcsr csr ∧ csrOfNumber csr = some c ∧
        exec i s = .next (s.respond (csrWord s c))) := by
  by_cases h : s.err = none
  · rcases hb : bodyOf i s with code | t
    · exact .inr (.inl ⟨h, code, rfl, exec_of_error h hb⟩)
    · exact .inl ⟨h, t, rfl, exec_of_ok h hb⟩
  · refine .inr (.inr ?_)
    by_cases hd : ∀ csr c, i = .rdcsr csr → csrOfNumber csr ≠ some c
    · exact .inl ⟨h, hd, exec_of_halted h hd⟩
    · simp only [not_forall, not_not] at hd
      obtain ⟨csr, c, rfl, hc⟩ := hd
      exact .inr ⟨h, csr, c, rfl, hc, exec_rdcsr_defined s hc⟩

/-- What a completed body says about a command: where it was legal, and by the tables of R22 and R43 what it read,
wrote and left alone. -/
structure Completed (i : Instr) (s t : State) : Prop where
  position     : positionLegal s.cfg i
  sources      : ∀ n ∈ sources i, s.reg n ≠ none
  destinations : ∀ n ∈ destinations i, t.reg n ≠ none
  registers    : isPlaneCommand i = false → SameRegistersBut (Machine.destinations i) s t
  invalidated  : isPlaneCommand i = true → ∀ n, t.reg n = none
  bytes        : SameBytesBut (storedLocations s.cfg i) s t
  config       : t.cfg = s.cfg
  error        : t.err = s.err
  inputs       : t.inputs = s.inputs
  responses    : t.responses = s.responses ∨
    (((∃ reg, i = .rdw reg) ∨ ∃ csr, i = .rdcsr csr) ∧ ∃ v, t.responses = s.responses ++ [v])

/-- A frame and its validity give a completed body. -/
theorem FrameBut.completed {i : Instr} {s t : State}
    (h : FrameBut (Machine.destinations i) (storedLocations s.cfg i) [] s t)
    (hp : positionLegal s.cfg i) (hs : ∀ n ∈ Machine.sources i, s.reg n ≠ none)
    (hd : ∀ n ∈ Machine.destinations i, t.reg n ≠ none) (hi : isPlaneCommand i = false) : Completed i s t where
  position := hp
  sources := hs
  destinations := hd
  registers _ := h.registers
  invalidated h' := by rw [hi] at h'; cases h'
  bytes := h.bytes
  config := h.config
  error := h.error
  inputs := h.inputs
  responses := .inl (by rw [h.responses, List.append_nil])

theorem positionLegal_of_block {c : Config} {i : Instr} {br bc : Nat} (hb : blockOf i = some (br, bc))
    (h : br ≤ c.brMax ∧ bc ≤ c.bcMax) : positionLegal c i := by
  intro br' bc' h'
  rw [hb] at h'
  cases h'
  exact h

theorem positionLegal_of_none {c : Config} {i : Instr} (hb : blockOf i = none) : positionLegal c i := by
  intro br bc h
  rw [hb] at h
  cases h

end Sys2Proof.Machine
end

