-- ==== Sys2Proof/Laws/Inversion.lean ====
section
/-! SUPPORT. Everything a command body can do: it completes by the tables of R22 and R43, or it raises the one error
that its position, its CSR number or its sources call for (R131, R137). -/

namespace Sys2Proof.Machine

/-- The four outcomes of a body, which exclude one another. -/
def BodyOutcome (i : Instr) (s : State) : Prop :=
  (∃ t, bodyOf i s = .ok t ∧ Completed i s t) ∨
    (bodyOf i s = .error .badBlock ∧ ¬positionLegal s.cfg i) ∨
    (bodyOf i s = .error .uninitReg ∧ positionLegal s.cfg i ∧ ∃ n ∈ sources i, s.reg n = none) ∨
    (bodyOf i s = .error .badCsr ∧ ∃ csr, i = .rdcsr csr ∧ csrOfNumber csr = none)

theorem BodyOutcome.of_frame {i : Instr} {s t : State} {r : List (Fin 32)} {l : List (Plane × Nat)}
    (hb : bodyOf i s = .ok t) (h : FrameBut r l [] s t) (hr : ∀ n ∈ r, n ∈ destinations i)
    (hl : ∀ b ∈ l, b ∈ storedLocations s.cfg i) (hp : positionLegal s.cfg i)
    (hs : ∀ n ∈ sources i, s.reg n ≠ none) (hd : ∀ n ∈ destinations i, t.reg n ≠ none)
    (hi : isPlaneCommand i = false) : BodyOutcome i s :=
  .inl ⟨t, hb, (h.mono hr hl).completed hp hs hd hi⟩

theorem BodyOutcome.of_invalid {i : Instr} {s : State} {n : Fin 32} (hb : bodyOf i s = .error .uninitReg)
    (hp : positionLegal s.cfg i) (hn : n ∈ sources i) (h : s.reg n = none) : BodyOutcome i s :=
  .inr (.inr (.inl ⟨hb, hp, n, hn, h⟩))

theorem BodyOutcome.of_outside {i : Instr} {s : State} {br bc : Nat} (hb : bodyOf i s = .error .badBlock)
    (hi : blockOf i = some (br, bc)) (h : ¬(br ≤ s.cfg.brMax ∧ bc ≤ s.cfg.bcMax)) : BodyOutcome i s :=
  .inr (.inl ⟨hb, fun hp => h (hp br bc hi)⟩)

theorem bodyOf_nop (s : State) : BodyOutcome .nop s :=
  .of_frame rfl (FrameBut.refl s) (by simp) (by simp) (positionLegal_of_none rfl) (by simp [sources])
    (by simp [destinations]) rfl

theorem bodyOf_wrw (reg : Fin 32) (v : Byte) (s : State) : BodyOutcome (.wrw reg v) s :=
  .of_frame rfl (s.frame_writeReg reg v) (by simp [destinations]) (by simp) (positionLegal_of_none rfl)
    (by simp [sources]) (by simp [destinations]) rfl

theorem bodyOf_rdw (reg : Fin 32) (s : State) : BodyOutcome (.rdw reg) s := by
  rcases h : s.reg reg with _ | v
  · exact .of_invalid (by simp [bodyOf, rdwBody, State.readReg_error h]) (positionLegal_of_none rfl)
      (n := reg) (by simp [sources]) h
  · refine .inl ⟨s.respond (BitVec.setWidth 32 v), by simp [bodyOf, rdwBody, State.readReg_ok h], ?_⟩
    exact ⟨positionLegal_of_none rfl, by simp [sources, h], by simp [destinations], fun _ _ _ => rfl,
      fun h => by simp [isPlaneCommand] at h, fun _ _ _ => rfl, rfl, rfl, rfl,
      .inr ⟨.inl ⟨reg, rfl⟩, _, rfl⟩⟩

theorem bodyOf_rdcsr (csr : Nat) (s : State) : BodyOutcome (.rdcsr csr) s := by
  rcases h : csrOfNumber csr with _ | c
  · exact .inr (.inr (.inr ⟨by simp [bodyOf, h, undefinedCsrBody], csr, rfl, h⟩))
  · refine .inl ⟨s.respond (csrWord s c), by simp [bodyOf, h], ?_⟩
    exact ⟨positionLegal_of_none rfl, by simp [sources], by simp [destinations], fun _ _ _ => rfl,
      fun h => by simp [isPlaneCommand] at h, fun _ _ _ => rfl, rfl, rfl, rfl,
      .inr ⟨.inr ⟨csr, rfl⟩, _, rfl⟩⟩

theorem bodyOf_ldrgb (br bc : Nat) (s : State) : BodyOutcome (.ldrgb br bc) s := by
  by_cases hk : br ≤ s.cfg.brMax ∧ bc ≤ s.cfg.bcMax
  · refine .of_frame (ldrgbBody_ok hk) (((s.frame_writeBank .r _).trans (State.frame_writeBank _ .g _)).trans
      (State.frame_writeBank _ .b _)) (fun n hn => hn) (by simp) (positionLegal_of_block rfl hk)
      (by simp [sources]) ?_ rfl
    intro n hn
    simp only [destinations, List.mem_append, mem_bankRegs] at hn
    rcases hn with (⟨q, rfl⟩ | ⟨q, rfl⟩) | ⟨q, rfl⟩ <;> simp
  · exact .of_outside (ldrgbBody_badBlock hk) rfl hk

theorem bodyOf_ldycc (br bc : Nat) (s : State) : BodyOutcome (.ldycc br bc) s := by
  by_cases hk : br ≤ s.cfg.brMax ∧ bc ≤ s.cfg.bcMax
  · refine .of_frame (ldyccBody_ok hk) (((s.frame_writeBank .y _).trans (State.frame_writeBank _ .cbs _)).trans
      (State.frame_writeBank _ .crs _)) (fun n hn => hn) (by simp) (positionLegal_of_block rfl hk)
      (by simp [sources]) ?_ rfl
    intro n hn
    simp only [destinations, List.mem_append, mem_bankRegs] at hn
    rcases hn with (⟨q, rfl⟩ | ⟨q, rfl⟩) | ⟨q, rfl⟩ <;> simp
  · exact .of_outside (ldyccBody_badBlock hk) rfl hk

theorem bodyOf_stycc (br bc : Nat) (s : State) : BodyOutcome (.stycc br bc) s := by
  by_cases hk : br ≤ s.cfg.brMax ∧ bc ≤ s.cfg.bcMax
  · have hp : positionLegal s.cfg (.stycc br bc) := positionLegal_of_block rfl hk
    rcases s.readBank_holds_cases .y with ⟨y, -, hy⟩ | ⟨he, n, hn, h⟩
    · rcases hu : s.reg (bankReg .cbs 0) with _ | u
      · exact .of_invalid (by simp [bodyOf, styccBody, checkBlock_ok hk, State.readBank_of_holds hy,
          State.readReg_error hu]) hp (by simp [sources]) hu
      rcases hv : s.reg (bankReg .crs 0) with _ | v
      · exact .of_invalid (by simp [bodyOf, styccBody, checkBlock_ok hk, State.readBank_of_holds hy,
          State.readReg_ok hu, State.readReg_error hv]) hp (n := bankReg .crs 0) (by simp [sources]) hv
      refine .of_frame (styccBody_ok hk hy hu hv) (s.frame_storeYcc br bc y u v) (by simp) (fun b hb => hb) hp ?_
        (by simp [destinations]) rfl
      intro n hn
      simp only [sources, List.mem_append, List.mem_cons, List.not_mem_nil, or_false] at hn
      rcases hn with hn | rfl | rfl
      · exact State.holds_valid hy n hn
      · simp [hu]
      · simp [hv]
    · exact .of_invalid (by simp [bodyOf, styccBody, checkBlock_ok hk, he]) hp
        (by simp only [sources, List.mem_append]; exact .inl hn) h
  · exact .of_outside (styccBody_badBlock hk) rfl hk

/-- Three banks are read in order, or one of their registers is invalid. -/
theorem three_banks_cases (s : State) (k1 k2 k3 : Bank) :
    (∃ u v w, s.holds k1 u ∧ s.holds k2 v ∧ s.holds k3 w ∧
      ∀ n ∈ bankRegs k1 ++ bankRegs k2 ++ bankRegs k3, s.reg n ≠ none) ∨
      ((∀ f : Quad Byte → Quad Byte → Quad Byte → Except ErrCode State,
        (s.readBank k1 >>= fun u => s.readBank k2 >>= fun v => s.readBank k3 >>= fun w => f u v w) =
          .error .uninitReg) ∧
        ∃ n ∈ bankRegs k1 ++ bankRegs k2 ++ bankRegs k3, s.reg n = none) := by
  rcases s.readBank_holds_cases k1 with ⟨u, e1, h1⟩ | ⟨e1, n, hn, h⟩
  · rcases s.readBank_holds_cases k2 with ⟨v, e2, h2⟩ | ⟨e2, n, hn, h⟩
    · rcases s.readBank_holds_cases k3 with ⟨w, e3, h3⟩ | ⟨e3, n, hn, h⟩
      · refine .inl ⟨u, v, w, h1, h2, h3, fun n hn => ?_⟩
        simp only [List.mem_append] at hn
        rcases hn with (hn | hn) | hn
        · exact State.holds_valid h1 n hn
        · exact State.holds_valid h2 n hn
        · exact State.holds_valid h3 n hn
      · exact .inr ⟨fun f => by simp [e1, e2, e3], n, by simp [hn], h⟩
    · exact .inr ⟨fun f => by simp [e1, e2], n, by simp [hn], h⟩
  · exact .inr ⟨fun f => by simp [e1], n, by simp [hn], h⟩

theorem two_banks_cases (s : State) (k1 k2 : Bank) :
    (∃ u v, s.holds k1 u ∧ s.holds k2 v ∧ ∀ n ∈ bankRegs k1 ++ bankRegs k2, s.reg n ≠ none) ∨
      ((∀ f : Quad Byte → Quad Byte → Except ErrCode State,
        (s.readBank k1 >>= fun u => s.readBank k2 >>= fun v => f u v) = .error .uninitReg) ∧
        ∃ n ∈ bankRegs k1 ++ bankRegs k2, s.reg n = none) := by
  rcases s.readBank_holds_cases k1 with ⟨u, e1, h1⟩ | ⟨e1, n, hn, h⟩
  · rcases s.readBank_holds_cases k2 with ⟨v, e2, h2⟩ | ⟨e2, n, hn, h⟩
    · refine .inl ⟨u, v, h1, h2, fun n hn => ?_⟩
      simp only [List.mem_append] at hn
      rcases hn with hn | hn
      · exact State.holds_valid h1 n hn
      · exact State.holds_valid h2 n hn
    · exact .inr ⟨fun f => by simp [e1, e2], n, by simp [hn], h⟩
  · exact .inr ⟨fun f => by simp [e1], n, by simp [hn], h⟩

theorem bodyOf_strgb (br bc : Nat) (s : State) : BodyOutcome (.strgb br bc) s := by
  by_cases hk : br ≤ s.cfg.brMax ∧ bc ≤ s.cfg.bcMax
  · have hp : positionLegal s.cfg (.strgb br bc) := positionLegal_of_block rfl hk
    rcases three_banks_cases s .r .g .b with ⟨r, g, b, hr, hg, hb, hs⟩ | ⟨he, n, hn, h⟩
    · exact .of_frame (strgbBody_ok hk hr hg hb) (s.frame_storeRgb br bc r g b) (by simp) (fun b hb => hb) hp hs
        (by simp [destinations]) rfl
    · exact .of_invalid (by simp only [bodyOf, strgbBody, checkBlock_ok hk, except_ok_bind]; exact he _) hp hn h
  · exact .of_outside (strgbBody_badBlock hk) rfl hk

theorem bodyOf_luma (s : State) : BodyOutcome .luma s := by
  rcases three_banks_cases s .r .g .b with ⟨r, g, b, hr, hg, hb, hs⟩ | ⟨he, n, hn, h⟩
  · refine .of_frame (lumaBody_ok hr hg hb) (s.frame_writeBank .y _) (fun n hn => hn) (by simp)
      (positionLegal_of_none rfl) hs (fun n hn => ?_) rfl
    obtain ⟨q, rfl⟩ := (mem_bankRegs .y n).1 hn
    simp
  · exact .of_invalid (he _) (positionLegal_of_none rfl) hn h

theorem bodyOf_chroma (s : State) : BodyOutcome .chroma s := by
  rcases three_banks_cases s .r .g .b with ⟨r, g, b, hr, hg, hb, hs⟩ | ⟨he, n, hn, h⟩
  · refine .of_frame (chromaBody_ok hr hg hb) ((s.frame_writeBank .cb _).trans (State.frame_writeBank _ .cr _))
      (fun n hn => hn) (by simp) (positionLegal_of_none rfl) hs (fun n hn => ?_) rfl
    simp only [destinations, List.mem_append, mem_bankRegs] at hn
    rcases hn with ⟨q, rfl⟩ | ⟨q, rfl⟩ <;> simp
  · exact .of_invalid (he _) (positionLegal_of_none rfl) hn h

theorem bodyOf_ds (s : State) : BodyOutcome .ds s := by
  rcases two_banks_cases s .cb .cr with ⟨cb, cr, hcb, hcr, hs⟩ | ⟨he, n, hn, h⟩
  · refine .of_frame (dsBody_ok hcb hcr) ((s.frame_writeReg _ _).trans (State.frame_writeReg _ _ _))
      (fun n hn => hn) (by simp) (positionLegal_of_none rfl) hs (fun n hn => ?_) rfl
    simp only [destinations, List.mem_cons, List.not_mem_nil, or_false] at hn
    rcases hn with rfl | rfl <;> simp
  · exact .of_invalid (he _) (positionLegal_of_none rfl) hn h

theorem bodyOf_us (s : State) : BodyOutcome .us s := by
  rcases two_banks_cases s .cbs .crs with ⟨cb, cr, hcb, hcr, hs⟩ | ⟨he, n, hn, h⟩
  · refine .of_frame (usBody_ok hcb hcr) ((s.frame_writeBank .cb _).trans (State.frame_writeBank _ .cr _))
      (fun n hn => hn) (by simp) (positionLegal_of_none rfl) hs (fun n hn => ?_) rfl
    simp only [destinations, List.mem_append, mem_bankRegs] at hn
    rcases hn with ⟨q, rfl⟩ | ⟨q, rfl⟩ <;> simp
  · exact .of_invalid (he _) (positionLegal_of_none rfl) hn h

theorem bodyOf_recon (s : State) : BodyOutcome .recon s := by
  rcases three_banks_cases s .y .cb .cr with ⟨y, cb, cr, hy, hcb, hcr, hs⟩ | ⟨he, n, hn, h⟩
  · refine .of_frame (reconBody_ok hy hcb hcr) (s.frame_writeRecon y cb cr)
      (fun n hn => hn) (by simp) (positionLegal_of_none rfl) hs (fun n hn => ?_) rfl
    simp only [destinations, List.mem_append, mem_bankRegs] at hn
    rcases hn with (⟨q, rfl⟩ | ⟨q, rfl⟩) | ⟨q, rfl⟩ <;> simp [State.writeRecon]
  · exact .of_invalid (he _) (positionLegal_of_none rfl) hn h

theorem bodyOf_fwdw (s : State) : BodyOutcome .fwdw s := by
  rcases three_banks_cases s .r .g .b with ⟨r, g, b, hr, hg, hb, hs⟩ | ⟨he, n, hn, h⟩
  · refine .of_frame (fwdwBody_ok hr hg hb) (((((s.frame_writeBank .y _).trans
      (State.frame_writeBank _ .cb _)).trans (State.frame_writeBank _ .cr _)).trans
      (State.frame_writeReg _ _ _)).trans (State.frame_writeReg _ _ _)) (fun n hn => ?_) (by simp)
      (positionLegal_of_none rfl) hs (fun n hn => ?_) rfl
    · simp only [destinations, List.mem_append, List.mem_cons, List.not_mem_nil, or_false] at hn ⊢
      tauto
    · simp only [destinations, List.mem_append, mem_bankRegs, List.mem_cons, List.not_mem_nil, or_false] at hn
      rcases hn with ((⟨q, rfl⟩ | ⟨q, rfl⟩) | ⟨q, rfl⟩) | rfl | rfl <;> simp
  · exact .of_invalid (he _) (positionLegal_of_none rfl) hn h

theorem bodyOf_invw (s : State) : BodyOutcome .invw s := by
  rcases three_banks_cases s .y .cbs .crs with ⟨y, cbs, crs, hy, hcb, hcr, hs⟩ | ⟨he, n, hn, h⟩
  · refine .of_frame (invwBody_ok hy hcb hcr) (((s.frame_writeBank .cb _).trans
      (State.frame_writeBank _ .cr _)).trans (State.frame_writeRecon _ _ _ _)) (fun n hn => ?_) (by simp)
      (positionLegal_of_none rfl) hs (fun n hn => ?_) rfl
    · simp only [destinations, List.mem_append] at hn ⊢
      tauto
    · simp only [destinations, List.mem_append, mem_bankRegs] at hn
      rcases hn with (((⟨q, rfl⟩ | ⟨q, rfl⟩) | ⟨q, rfl⟩) | ⟨q, rfl⟩) | ⟨q, rfl⟩ <;> simp [State.writeRecon]
  · exact .of_invalid (he _) (positionLegal_of_none rfl) hn h

theorem bodyOf_fwdblk (br bc : Nat) (s : State) : BodyOutcome (.fwdblk br bc) s := by
  by_cases hk : br ≤ s.cfg.brMax ∧ bc ≤ s.cfg.bcMax
  · obtain ⟨t, ht, hr, hg, hb, hy, hcb, hcr, hu, hv, hf, -⟩ := fwdblkBody_ok hk rfl rfl rfl rfl rfl
    refine .of_frame ht hf (fun n hn => hn) (fun b hb => hb) (positionLegal_of_block rfl hk)
      (by simp [sources]) (fun n hn => ?_) rfl
    simp only [destinations, List.mem_append, List.mem_cons, List.not_mem_nil, or_false] at hn
    rcases hn with (((((h | h) | h) | h) | h) | h) | rfl | rfl
    · exact State.holds_valid hr n h
    · exact State.holds_valid hg n h
    · exact State.holds_valid hb n h
    · exact State.holds_valid hy n h
    · exact State.holds_valid hcb n h
    · exact State.holds_valid hcr n h
    · simp [hu]
    · simp [hv]
  · exact .of_outside (fwdblkBody_badBlock hk) rfl hk

theorem bodyOf_invblk (br bc : Nat) (s : State) : BodyOutcome (.invblk br bc) s := by
  by_cases hk : br ≤ s.cfg.brMax ∧ bc ≤ s.cfg.bcMax
  · obtain ⟨t, ht, hy, hcbs, hcrs, hcb, hcr, hr, hg, hb, hf, -⟩ := invblkBody_ok hk rfl rfl rfl
    refine .of_frame ht hf (fun n hn => hn) (fun b hb => hb) (positionLegal_of_block rfl hk)
      (by simp [sources]) (fun n hn => ?_) rfl
    simp only [destinations, List.mem_append] at hn
    rcases hn with ((((((h | h) | h) | h) | h) | h) | h) | h
    · exact State.holds_valid hr n h
    · exact State.holds_valid hg n h
    · exact State.holds_valid hb n h
    · exact State.holds_valid hy n h
    · exact State.holds_valid hcb n h
    · exact State.holds_valid hcr n h
    · exact State.holds_valid hcbs n h
    · exact State.holds_valid hcrs n h
  · exact .of_outside (invblkBody_badBlock hk) rfl hk

theorem bodyOf_fwdpln (s : State) : BodyOutcome .fwdpln s := by
  obtain ⟨t, ht, hf, hc, he, hi, hr, -⟩ := overBlocks_fwd (rasterBlocks s.cfg) s (rasterBlocks_inRaster s.cfg)
  refine .inl ⟨t.invalidateAll, by simp [bodyOf, fwdplnBody, ht], ?_⟩
  exact ⟨positionLegal_of_none rfl, by simp [sources], by simp [destinations],
    fun h => by simp [isPlaneCommand] at h, fun _ n => by simp, hf, hc, he, hi, .inl hr⟩

theorem bodyOf_invpln (s : State) : BodyOutcome .invpln s := by
  obtain ⟨t, ht, hf, hc, he, hi, hr, -⟩ := overBlocks_inv (rasterBlocks s.cfg) s (rasterBlocks_inRaster s.cfg)
  refine .inl ⟨t.invalidateAll, by simp [bodyOf, invplnBody, ht], ?_⟩
  exact ⟨positionLegal_of_none rfl, by simp [sources], by simp [destinations],
    fun h => by simp [isPlaneCommand] at h, fun _ n => by simp, hf, hc, he, hi, .inl hr⟩

/-- EVERYTHING A BODY CAN DO, for every command. -/
theorem bodyOf_cases (i : Instr) (s : State) : BodyOutcome i s := by
  cases i with
  | nop => exact bodyOf_nop s
  | wrw reg v => exact bodyOf_wrw reg v s
  | rdw reg => exact bodyOf_rdw reg s
  | rdcsr csr => exact bodyOf_rdcsr csr s
  | ldrgb br bc => exact bodyOf_ldrgb br bc s
  | ldycc br bc => exact bodyOf_ldycc br bc s
  | stycc br bc => exact bodyOf_stycc br bc s
  | strgb br bc => exact bodyOf_strgb br bc s
  | luma => exact bodyOf_luma s
  | chroma => exact bodyOf_chroma s
  | ds => exact bodyOf_ds s
  | us => exact bodyOf_us s
  | recon => exact bodyOf_recon s
  | fwdw => exact bodyOf_fwdw s
  | invw => exact bodyOf_invw s
  | fwdblk br bc => exact bodyOf_fwdblk br bc s
  | invblk br bc => exact bodyOf_invblk br bc s
  | fwdpln => exact bodyOf_fwdpln s
  | invpln => exact bodyOf_invpln s

end Sys2Proof.Machine
end

