-- ==== Sys2Proof/Laws/Step.lean ====
section
/-! SUPPORT. Everything `exec`, `runWord` and `step` can do, said once: the outcomes of a command, of a word at the port
and of a move of the host. -/

namespace Sys2Proof.Machine

/-- EVERYTHING A COMMAND CAN DO: it always ends in a next state, with the parameters and the moves to come as they were;
it completes, or takes its error, or is discarded. -/
theorem exec_next (i : Instr) (s : State) :
    ∃ t, exec i s = .next t ∧ t.cfg = s.cfg ∧ t.inputs = s.inputs ∧
      ((s.err = none ∧ bodyOf i s = .ok t ∧ Completed i s t) ∨
        (s.err = none ∧ ∃ code, bodyOf i s = .error code ∧ t = { s with err := some ⟨code, encode i⟩ }) ∨
        (s.err ≠ none ∧ (t = s ∨ ∃ csr c, i = .rdcsr csr ∧ csrOfNumber csr = some c ∧
          t = s.respond (csrWord s c)))) := by
  rcases exec_cases i s with ⟨h, t, hb, e⟩ | ⟨h, code, hb, e⟩ | ⟨h, -, e⟩ | ⟨h, csr, c, hi, hc, e⟩
  · have hd : Completed i s t := by
      rcases bodyOf_cases i s with ⟨u, hu, hd⟩ | ⟨hu, -⟩ | ⟨hu, -⟩ | ⟨hu, -⟩ <;> rw [hb] at hu <;> cases hu
      exact hd
    exact ⟨t, e, hd.config, hd.inputs, .inl ⟨h, hb, hd⟩⟩
  · exact ⟨_, e, rfl, rfl, .inr (.inl ⟨h, code, hb, rfl⟩)⟩
  · exact ⟨s, e, rfl, rfl, .inr (.inr ⟨h, .inl rfl⟩)⟩
  · exact ⟨_, e, rfl, rfl, .inr (.inr ⟨h, .inr ⟨csr, c, hi, hc, rfl⟩⟩)⟩

/-- A body that completes inside a run of the engine, from the outcome. -/
theorem completed_of_exec {i : Instr} {s t : State} (h : s.err = none) (he : exec i s = .next t)
    (ht : t.err = none) : bodyOf i s = .ok t ∧ Completed i s t := by
  obtain ⟨u, hu, -, -, hc⟩ := exec_next i s
  rw [hu] at he
  cases he
  rcases hc with ⟨-, hb, hd⟩ | ⟨-, code, -, rfl⟩ | ⟨hn, -⟩
  · exact ⟨hb, hd⟩
  · cases ht
  · exact absurd h hn

theorem runWord_of_decode {w : Word} {i : Instr} (h : decode w = .ok i) (s : State) : runWord w s = exec i s := by
  unfold runWord
  rw [h]

theorem runWord_of_illegal {w : Word} {e : Illegal} (h : decode w = .error e) (s : State) :
    runWord w s = runIllegal w s := by
  unfold runWord
  rw [h]

/-- EVERYTHING A WORD AT THE PORT CAN DO: it runs what it decodes to, or it is illegal, taken or discarded. -/
theorem runWord_cases (w : Word) (s : State) :
    (∃ i, decode w = .ok i ∧ runWord w s = exec i s) ∨
      ((∀ i, decode w ≠ .ok i) ∧ s.err = none ∧ runWord w s = .next { s with err := some ⟨.illegalCmd, w⟩ }) ∨
      ((∀ i, decode w ≠ .ok i) ∧ s.err ≠ none ∧ runWord w s = .next s) := by
  rcases h : decode w with e | i
  · refine .inr ?_
    by_cases hs : s.err = none
    · exact .inl ⟨fun i => by simp, hs, (runWord_of_illegal h s).trans (runIllegal_running hs)⟩
    · exact .inr ⟨fun i => by simp, hs, (runWord_of_illegal h s).trans (runIllegal_halted hs)⟩
  · exact .inl ⟨i, rfl, runWord_of_decode h s⟩

/-- A word at the port always ends in a next state. -/
theorem runWord_next (w : Word) (s : State) :
    ∃ t, runWord w s = .next t ∧ t.cfg = s.cfg ∧ t.inputs = s.inputs := by
  rcases runWord_cases w s with ⟨i, -, h⟩ | ⟨-, -, h⟩ | ⟨-, -, h⟩
  · obtain ⟨t, ht, hc, hi, -⟩ := exec_next i s
    exact ⟨t, h.trans ht, hc, hi⟩
  · exact ⟨_, h, rfl, rfl⟩
  · exact ⟨_, h, rfl, rfl⟩

/-! The planes of an abandoned command. -/

/-- What landing some writes changes: the listed locations, each to its new value. -/
theorem State.landWrites_spec (t : State) (l : List (Plane × Nat)) (s : State) :
    (State.landWrites t l s).cfg = s.cfg ∧ (State.landWrites t l s).inputs = s.inputs ∧
      ∀ p a, (State.landWrites t l s).peek p a = if (p, a) ∈ l then t.peek p a else s.peek p a := by
  induction l generalizing s with
  | nil => exact ⟨rfl, rfl, fun _ _ => by simp [State.landWrites]⟩
  | cons x l ih =>
    obtain ⟨q, b⟩ := x
    obtain ⟨h1, h2, h3⟩ := ih (s.poke q b (t.peek q b))
    refine ⟨h1, h2, fun p a => ?_⟩
    show (State.landWrites t l _).peek p a = _
    rw [h3]
    by_cases hx : p = q ∧ a = b
    · obtain ⟨rfl, rfl⟩ := hx
      simp
    · by_cases hl : (p, a) ∈ l <;> simp [hx, hl]

/-- EVERYTHING A STEP CAN DO, move by move, in a legal configuration. -/
theorem step_eq {s : State} (h : s.cfg.wf = true) : step s = serveInputs s := by simp [step, h]

theorem step_idle {s : State} (h : s.cfg.wf = true) (hi : s.inputs = []) : step s = .next s := by
  simp [step, h, serveInputs, hi]

theorem step_move {s : State} {m : HostMove} {rest : List HostMove} (h : s.cfg.wf = true) (hi : s.inputs = m :: rest) :
    step s = applyMove m { s with inputs := rest } := by
  simp [step, h, serveInputs, hi]

theorem step_refused {s : State} (h : s.cfg.wf = false) : step s = .refused .illFormedConfig := by
  simp [step, h]

/-- A step that reaches a next state: idle, or one of the four moves. -/
theorem step_cases {s t : State} (h : step s = .next t) :
    s.cfg.wf = true ∧
      ((s.inputs = [] ∧ t = s) ∨
        (∃ w rest, s.inputs = .command w :: rest ∧ runWord w { s with inputs := rest } = .next t) ∨
        (∃ rest, s.inputs = .reset :: rest ∧ t = State.resetEngine { s with inputs := rest }) ∨
        (∃ w landed rest u, s.inputs = .commandThenReset w landed :: rest ∧
          runWord w { s with inputs := rest } = .next u ∧
          t = (State.landWrites u landed { s with inputs := rest }).resetEngine) ∨
        (∃ p a v rest, s.inputs = .writePlane p a v :: rest ∧ a < planeSize s.cfg p ∧
          t = State.poke { s with inputs := rest } p a v)) := by
  by_cases hw : s.cfg.wf = true
  · refine ⟨hw, ?_⟩
    rcases hi : s.inputs with _ | ⟨m, rest⟩
    · rw [step_idle hw hi] at h
      cases h
      exact .inl ⟨rfl, rfl⟩
    · rw [step_move hw hi] at h
      cases m with
      | command w => exact .inr (.inl ⟨w, rest, rfl, h⟩)
      | reset =>
        cases h
        exact .inr (.inr (.inl ⟨rest, rfl, rfl⟩))
      | commandThenReset w landed =>
        obtain ⟨u, hu, -⟩ := runWord_next w { s with inputs := rest }
        simp only [applyMove, runWordThenReset, hu] at h
        cases h
        exact .inr (.inr (.inr (.inl ⟨w, landed, rest, u, rfl, hu, rfl⟩)))
      | writePlane p a v =>
        simp only [applyMove, hostWrite] at h
        split at h
        · cases h
          rename_i ha
          exact .inr (.inr (.inr (.inr ⟨p, a, v, rest, rfl, ha, rfl⟩)))
        · cases h
  · rw [step_refused (by simpa using hw)] at h
    cases h

end Sys2Proof.Machine
end

