-- ==== Sys2Proof/Laws/Invariant.lean ====
section
/-! SUPPORT. What keeps the invariant `State.Inv`: every shared operation, every command body, the landed writes of an
abandoned command, a plane write of the host. -/

namespace Sys2Proof.Machine

theorem except_bind_ok_iff {ε α β : Type} (x : Except ε α) (f : α → Except ε β) (b : β) :
    (x >>= f) = .ok b ↔ ∃ a, x = .ok a ∧ f a = .ok b := by
  rcases x with e | a <;> simp

variable {s t : State} {p : Plane} {a br bc : Nat} {v : Byte}

/-- The invariant is about the parameters and the planes only. -/
theorem State.Inv.congr (h : s.Inv) (hc : t.cfg = s.cfg) (hp : t.planes = s.planes) : t.Inv := by
  unfold State.Inv
  rw [hc, hp]
  exact h

theorem State.Inv.poke (h : s.Inv) (ha : a < planeSize s.cfg p) : (s.poke p a v).Inv := by
  obtain ⟨hc, hp⟩ := h
  have hq := (Planes.wf_iff _ _).1 hp p
  exact ⟨hc, Planes.wf_set _ _ _ _ hp (Memory.wf_write _ _ _ hq.1) (Memory.inRange_write _ _ _ _ ha hq.2)⟩

/-- Writing what an unlisted address reads as keeps the form wherever it is written. -/
theorem State.Inv.poke_unlisted (h : s.Inv) : (s.poke p a Memory.unlisted).Inv := by
  obtain ⟨hc, hp⟩ := h
  have hq := (Planes.wf_iff _ _).1 hp p
  exact ⟨hc, Planes.wf_set _ _ _ _ hp (Memory.wf_write _ _ _ hq.1) (Memory.inRange_write_unlisted _ _ _ hq.2)⟩

/-- A location a plane does not have reads as the unlisted byte. -/
theorem State.Inv.peek_outside (h : s.Inv) (ha : ¬a < planeSize s.cfg p) : s.peek p a = Memory.unlisted := by
  have hq := ((Planes.wf_iff _ _).1 h.2 p).2
  rw [Memory.inRange_iff] at hq
  exact Memory.read_of_not_listed _ _ fun c hc e => ha (e ▸ hq c hc)

/-- The size of a full-resolution plane. -/
theorem planeSize_full (c : Config) {p : Plane} (h : p ≠ .pcb ∧ p ≠ .pcr) : planeSize c p = c.npix := by
  cases p <;> simp_all [planeSize]

theorem State.Inv.storePixels (h : s.Inv) (hp : p ≠ .pcb ∧ p ≠ .pcr) (hk : br ≤ s.cfg.brMax ∧ bc ≤ s.cfg.bcMax)
    (q : Quad Byte) : (s.storePixels p br bc q).Inv := by
  have hl : ∀ l, pixelAddr s.cfg br bc l < planeSize s.cfg p := fun l => by
    rw [planeSize_full _ hp]
    exact pixelAddr_lt h.1 hk l
  exact (((h.poke (hl 0)).poke (hl 1)).poke (hl 2)).poke (hl 3)

theorem State.Inv.storeYcc (h : s.Inv) (hk : br ≤ s.cfg.brMax ∧ bc ≤ s.cfg.bcMax) (y : Quad Byte) (u w : Byte) :
    (s.storeYcc br bc y u w).Inv := by
  have hl := addrChroma_lt h.1 hk
  have h1 := h.storePixels (p := .py) (by simp) hk y
  have h2 : (State.poke _ .pcb (addrChroma s.cfg br bc) u).Inv :=
    h1.poke (by rw [State.storePixels_cfg]; exact hl)
  exact h2.poke (by rw [State.poke_cfg, State.storePixels_cfg]; exact hl)

theorem State.Inv.storeRgb (h : s.Inv) (hk : br ≤ s.cfg.brMax ∧ bc ≤ s.cfg.bcMax) (r g b : Quad Byte) :
    (s.storeRgb br bc r g b).Inv := by
  have h1 := h.storePixels (p := .pr) (by simp) hk r
  have h2 := h1.storePixels (p := .pg) (br := br) (bc := bc) (by simp) (by rw [State.storePixels_cfg]; exact hk) g
  exact h2.storePixels (by simp) (by rw [State.storePixels_cfg, State.storePixels_cfg]; exact hk) b

/-! The bodies. -/

theorem ldrgbBody_inv (h : s.Inv) (hb : ldrgbBody br bc s = .ok t) : t.Inv := by
  simp only [ldrgbBody, except_bind_ok_iff, except_pure, Except.ok.injEq] at hb
  obtain ⟨_, _, rfl⟩ := hb
  exact h.congr (by simp) (by simp)

theorem ldyccBody_inv (h : s.Inv) (hb : ldyccBody br bc s = .ok t) : t.Inv := by
  simp only [ldyccBody, except_bind_ok_iff, except_pure, Except.ok.injEq] at hb
  obtain ⟨_, _, rfl⟩ := hb
  exact h.congr (by simp) (by simp)

theorem inRaster_of_checkBlock {c : Config} {u : Unit} (h : checkBlock c br bc = .ok u) :
    br ≤ c.brMax ∧ bc ≤ c.bcMax := by
  by_contra hn
  rw [checkBlock_error hn] at h
  cases h

theorem styccBody_inv (h : s.Inv) (hb : styccBody br bc s = .ok t) : t.Inv := by
  simp only [styccBody, except_bind_ok_iff, except_pure, Except.ok.injEq] at hb
  obtain ⟨_, hk, y, -, u, -, w, -, rfl⟩ := hb
  exact h.storeYcc (inRaster_of_checkBlock hk) y u w

theorem strgbBody_inv (h : s.Inv) (hb : strgbBody br bc s = .ok t) : t.Inv := by
  simp only [strgbBody, except_bind_ok_iff, except_pure, Except.ok.injEq] at hb
  obtain ⟨_, hk, r, -, g, -, b, -, rfl⟩ := hb
  exact h.storeRgb (inRaster_of_checkBlock hk) r g b

theorem fwdwBody_inv (h : s.Inv) (hb : fwdwBody s = .ok t) : t.Inv := by
  simp only [fwdwBody, except_bind_ok_iff, except_pure, Except.ok.injEq] at hb
  obtain ⟨r, -, g, -, b, -, rfl⟩ := hb
  exact h.congr (by simp) (by simp)

theorem invwBody_inv (h : s.Inv) (hb : invwBody s = .ok t) : t.Inv := by
  simp only [invwBody, except_bind_ok_iff, except_pure, Except.ok.injEq] at hb
  obtain ⟨y, -, u, -, w, -, rfl⟩ := hb
  exact h.congr (by simp) (by simp)

theorem fwdblkBody_inv (h : s.Inv) (hb : fwdblkBody br bc s = .ok t) : t.Inv := by
  simp only [fwdblkBody, except_bind_ok_iff] at hb
  obtain ⟨u, hu, w, hw, ht⟩ := hb
  exact styccBody_inv (fwdwBody_inv (ldrgbBody_inv h hu) hw) ht

theorem invblkBody_inv (h : s.Inv) (hb : invblkBody br bc s = .ok t) : t.Inv := by
  simp only [invblkBody, except_bind_ok_iff] at hb
  obtain ⟨u, hu, w, hw, ht⟩ := hb
  exact strgbBody_inv (invwBody_inv (ldyccBody_inv h hu) hw) ht

theorem overBlocks_inv_kept {body : Nat → Nat → State → Except ErrCode State}
    (hbody : ∀ br bc (s t : State), s.Inv → body br bc s = .ok t → t.Inv) (l : List (Nat × Nat)) (h : s.Inv)
    (hb : overBlocks body l s = .ok t) : t.Inv := by
  induction l generalizing s with
  | nil =>
    cases hb
    exact h
  | cons x l ih =>
    obtain ⟨br, bc⟩ := x
    simp only [overBlocks, except_bind_ok_iff] at hb
    obtain ⟨u, hu, ht⟩ := hb
    exact ih (hbody br bc s u h hu) ht

/-- Every command body keeps the invariant. -/
theorem bodyOf_inv (i : Instr) (h : s.Inv) (hb : bodyOf i s = .ok t) : t.Inv := by
  cases i with
  | stycc br bc => exact styccBody_inv h hb
  | strgb br bc => exact strgbBody_inv h hb
  | ldrgb br bc => exact ldrgbBody_inv h hb
  | ldycc br bc => exact ldyccBody_inv h hb
  | fwdw => exact fwdwBody_inv h hb
  | invw => exact invwBody_inv h hb
  | fwdblk br bc => exact fwdblkBody_inv h hb
  | invblk br bc => exact invblkBody_inv h hb
  | fwdpln =>
    simp only [bodyOf, fwdplnBody, except_bind_ok_iff, except_pure, Except.ok.injEq] at hb
    obtain ⟨u, hu, rfl⟩ := hb
    exact (overBlocks_inv_kept (fun _ _ _ _ => fwdblkBody_inv) _ h hu).congr (by simp) (by simp)
  | invpln =>
    simp only [bodyOf, invplnBody, except_bind_ok_iff, except_pure, Except.ok.injEq] at hb
    obtain ⟨u, hu, rfl⟩ := hb
    exact (overBlocks_inv_kept (fun _ _ _ _ => invblkBody_inv) _ h hu).congr (by simp) (by simp)
  | nop =>
    cases hb
    exact h
  | wrw reg imm8 =>
    cases hb
    exact h.congr (by simp) (by simp)
  | rdw reg =>
    simp only [bodyOf, rdwBody, except_bind_ok_iff, except_pure, Except.ok.injEq] at hb
    obtain ⟨u, -, rfl⟩ := hb
    exact h.congr (by simp) (by simp)
  | rdcsr csr =>
    simp only [bodyOf] at hb
    split at hb <;> cases hb
    exact h.congr (by simp) (by simp)
  | luma =>
    simp only [bodyOf, lumaBody, except_bind_ok_iff, except_pure, Except.ok.injEq] at hb
    obtain ⟨r, -, g, -, b, -, rfl⟩ := hb
    exact h.congr (by simp) (by simp)
  | chroma =>
    simp only [bodyOf, chromaBody, except_bind_ok_iff, except_pure, Except.ok.injEq] at hb
    obtain ⟨r, -, g, -, b, -, rfl⟩ := hb
    exact h.congr (by simp) (by simp)
  | ds =>
    simp only [bodyOf, dsBody, except_bind_ok_iff, except_pure, Except.ok.injEq] at hb
    obtain ⟨u, -, w, -, rfl⟩ := hb
    exact h.congr (by simp) (by simp)
  | us =>
    simp only [bodyOf, usBody, except_bind_ok_iff, except_pure, Except.ok.injEq] at hb
    obtain ⟨u, -, w, -, rfl⟩ := hb
    exact h.congr (by simp) (by simp)
  | recon =>
    simp only [bodyOf, reconBody, except_bind_ok_iff, except_pure, Except.ok.injEq] at hb
    obtain ⟨y, -, u, -, w, -, rfl⟩ := hb
    exact h.congr (by simp) (by simp)

theorem exec_inv (i : Instr) (h : s.Inv) (he : exec i s = .next t) : t.Inv := by
  obtain ⟨u, hu, hc, -, hcase⟩ := exec_next i s
  rw [hu] at he
  cases he
  rcases hcase with ⟨-, hb, -⟩ | ⟨-, code, -, rfl⟩ | ⟨-, rfl | ⟨csr, c, -, -, rfl⟩⟩
  · exact bodyOf_inv i h hb
  · exact h.congr rfl rfl
  · exact h
  · exact h.congr rfl rfl

theorem runWord_inv (w : Word) (h : s.Inv) (he : runWord w s = .next t) : t.Inv := by
  rcases hd : decode w with e | i
  · rw [runWord_of_illegal hd] at he
    by_cases hs : s.err = none
    · rw [runIllegal_running hs] at he
      cases he
      exact h.congr rfl rfl
    · rw [runIllegal_halted hs] at he
      cases he
      exact h
  · rw [runWord_of_decode hd] at he
    exact exec_inv i h he

/-- Landing any part of the writes of a state that meets the invariant keeps it, whatever locations are named. -/
theorem landWrites_inv (ht : t.Inv) (l : List (Plane × Nat)) (h : s.Inv) (hc : s.cfg = t.cfg) :
    (State.landWrites t l s).Inv := by
  induction l generalizing s with
  | nil => exact h
  | cons x l ih =>
    obtain ⟨q, b⟩ := x
    refine ih (s := s.poke q b (t.peek q b)) ?_ hc
    by_cases hb : b < planeSize s.cfg q
    · exact h.poke hb
    · rw [ht.peek_outside (by rw [← hc]; exact hb)]
      exact h.poke_unlisted

end Sys2Proof.Machine
end

