-- ==== Sys2Proof/Laws/Blocks.lean ====
section
/-! SUPPORT. What the block and plane commands leave in the planes as data: a function of the planes, the block and the
parameters (R124); and the run of a list of block commands as one loop. -/

namespace Sys2Proof.Machine

/-- What a plane write leaves of the planes. -/
theorem State.poke_planes (s : State) (p : Plane) (a : Nat) (v : Byte) :
    (s.poke p a v).planes = s.planes.set p (Memory.write (s.planes.get p) a v) := rfl

/-- Storing four samples depends on the planes and the parameters alone. -/
theorem State.storePixels_planes {s t : State} (hc : t.cfg = s.cfg) (hp : t.planes = s.planes) (p : Plane)
    (br bc : Nat) (v : Quad Byte) : (t.storePixels p br bc v).planes = (s.storePixels p br bc v).planes := by
  simp only [State.storePixels, State.poke_planes, hp, hc]

/-- Storing forward results depends on the planes and the parameters alone. -/
theorem State.storeYcc_planes {s t : State} (hc : t.cfg = s.cfg) (hp : t.planes = s.planes) (br bc : Nat)
    (y : Quad Byte) (u v : Byte) : (t.storeYcc br bc y u v).planes = (s.storeYcc br bc y u v).planes := by
  simp only [State.storeYcc, State.poke_planes, State.storePixels_planes hc hp, hc]

/-- Storing RGB results depends on the planes and the parameters alone. -/
theorem State.storeRgb_planes {s t : State} (hc : t.cfg = s.cfg) (hp : t.planes = s.planes) (br bc : Nat)
    (r g b : Quad Byte) : (t.storeRgb br bc r g b).planes = (s.storeRgb br bc r g b).planes := by
  unfold State.storeRgb
  refine State.storePixels_planes ?_ (State.storePixels_planes ?_ (State.storePixels_planes hc hp ..) ..) ..
  · simp [State.storePixels_cfg, hc]
  · simp [State.storePixels_cfg, hc]

/-- Loading four samples depends on the planes and the parameters alone. -/
theorem State.loadPixels_congr {s t : State} (hc : t.cfg = s.cfg) (hp : t.planes = s.planes) (p : Plane) (br bc : Nat) :
    t.loadPixels p br bc = s.loadPixels p br bc := by
  simp only [State.loadPixels, State.peek, hc, hp]

/-- Loading neighbour slots depends on the planes and the parameters alone. -/
theorem State.loadNeighbours_congr {s t : State} (hc : t.cfg = s.cfg) (hp : t.planes = s.planes) (p : Plane)
    (br bc : Nat) : t.loadNeighbours p br bc = s.loadNeighbours p br bc := by
  simp only [State.loadNeighbours, State.peek, hc, hp]

/-- The planes a forward block command leaves, in terms of the state before. -/
theorem fwdblkBody_planes {s t : State} {br bc : Nat} (hk : br ≤ s.cfg.brMax ∧ bc ≤ s.cfg.bcMax)
    (h : fwdblkBody br bc s = .ok t) : t.planes = (s.storeYcc br bc
      (lanes3 (lumaPx s.cfg) (s.loadPixels .pr br bc) (s.loadPixels .pg br bc) (s.loadPixels .pb br bc))
      (fwdCbOf s br bc) (fwdCrOf s br bc)).planes := by
  have h1 := ldrgbBody_ok (s := s) hk
  simp only [fwdblkBody, h1, except_bind_ok_iff, Except.ok.injEq, exists_eq_left'] at h
  rw [fwdwBody_ok (r := s.loadPixels .pr br bc) (g := s.loadPixels .pg br bc) (b := s.loadPixels .pb br bc)
    (by simp) (by simp) (by simp)] at h
  simp only [Except.ok.injEq, exists_eq_left'] at h
  rw [styccBody_ok (br := br) (bc := bc)
    (y := lanes3 (lumaPx s.cfg) (s.loadPixels .pr br bc) (s.loadPixels .pg br bc) (s.loadPixels .pb br bc))
    (u := fwdCbOf s br bc) (v := fwdCrOf s br bc) (by simpa using hk) (fun q => by simp)
    (by simp [fwdCbOf]) (by simp [fwdCrOf])] at h
  cases h
  exact State.storeYcc_planes (by simp) (by simp) ..

/-- The planes an inverse block command leaves, in terms of the state before. -/
theorem invblkBody_planes {s t : State} {br bc : Nat} (hk : br ≤ s.cfg.brMax ∧ bc ≤ s.cfg.bcMax)
    (h : invblkBody br bc s = .ok t) : t.planes = (s.storeRgb br bc
      (lanes2 (reconRed s.cfg) (s.loadPixels .py br bc) (up4 (s.loadNeighbours .pcr br bc)))
      (lanes3 (reconGreen s.cfg) (s.loadPixels .py br bc) (up4 (s.loadNeighbours .pcb br bc))
        (up4 (s.loadNeighbours .pcr br bc)))
      (lanes2 (reconBlue s.cfg) (s.loadPixels .py br bc) (up4 (s.loadNeighbours .pcb br bc)))).planes := by
  have h1 := ldyccBody_ok (s := s) hk
  simp only [invblkBody, h1, except_bind_ok_iff, Except.ok.injEq, exists_eq_left'] at h
  rw [invwBody_ok (y := s.loadPixels .py br bc) (cbs := s.loadNeighbours .pcb br bc)
    (crs := s.loadNeighbours .pcr br bc) (by simp) (by simp) (by simp)] at h
  simp only [Except.ok.injEq, exists_eq_left'] at h
  rw [strgbBody_ok (br := br) (bc := bc)
    (r := lanes2 (reconRed s.cfg) (s.loadPixels .py br bc) (up4 (s.loadNeighbours .pcr br bc)))
    (g := lanes3 (reconGreen s.cfg) (s.loadPixels .py br bc) (up4 (s.loadNeighbours .pcb br bc))
      (up4 (s.loadNeighbours .pcr br bc)))
    (b := lanes2 (reconBlue s.cfg) (s.loadPixels .py br bc) (up4 (s.loadNeighbours .pcb br bc)))
    (by simpa [State.writeRecon] using hk) (fun q => by simp [State.writeRecon])
    (fun q => by simp [State.writeRecon]) (fun q => by simp [State.writeRecon])] at h
  cases h
  exact State.storeRgb_planes (by simp [State.writeRecon]) (by simp [State.writeRecon]) ..

/-- A format `B` command completes only on a block of the raster (R134). -/
theorem inRaster_of_ok {i : Instr} {br bc : Nat} (hi : blockOf i = some (br, bc)) {s t : State}
    (h : bodyOf i s = .ok t) : br ≤ s.cfg.brMax ∧ bc ≤ s.cfg.bcMax := by
  rcases bodyOf_cases i s with ⟨t', h', hd⟩ | ⟨h', -⟩ | ⟨h', -⟩ | ⟨h', -⟩ <;> rw [h] at h' <;> cases h'
  exact hd.position br bc hi

/-- A forward block command on states that differ in the window alone leaves the same planes (R124). -/
theorem fwdblkBody_same {s s' t t' : State} {br bc : Nat} (hc : s'.cfg = s.cfg) (hp : s'.planes = s.planes)
    (h : fwdblkBody br bc s = .ok t) (h' : fwdblkBody br bc s' = .ok t') : t'.cfg = t.cfg ∧ t'.planes = t.planes := by
  have hk := inRaster_of_ok (i := .fwdblk br bc) rfl h
  have hk' := inRaster_of_ok (i := .fwdblk br bc) rfl h'
  obtain ⟨u, hu, hf, -⟩ := fwdblkBody_spec hk
  obtain ⟨u', hu', hf', -⟩ := fwdblkBody_spec hk'
  cases h.symm.trans hu
  cases h'.symm.trans hu'
  refine ⟨by rw [hf.config, hf'.config, hc], ?_⟩
  rw [fwdblkBody_planes hk h, fwdblkBody_planes hk' h', State.storeYcc_planes hc hp]
  simp only [fwdCbOf, fwdCrOf, State.loadPixels_congr hc hp, hc]

/-- An inverse block command on states that differ in the window alone leaves the same planes (R124). -/
theorem invblkBody_same {s s' t t' : State} {br bc : Nat} (hc : s'.cfg = s.cfg) (hp : s'.planes = s.planes)
    (h : invblkBody br bc s = .ok t) (h' : invblkBody br bc s' = .ok t') : t'.cfg = t.cfg ∧ t'.planes = t.planes := by
  have hk := inRaster_of_ok (i := .invblk br bc) rfl h
  have hk' := inRaster_of_ok (i := .invblk br bc) rfl h'
  obtain ⟨u, hu, hf, -⟩ := invblkBody_spec hk
  obtain ⟨u', hu', hf', -⟩ := invblkBody_spec hk'
  cases h.symm.trans hu
  cases h'.symm.trans hu'
  refine ⟨by rw [hf.config, hf'.config, hc], ?_⟩
  rw [invblkBody_planes hk h, invblkBody_planes hk' h', State.storeRgb_planes hc hp]
  simp only [State.loadPixels_congr hc hp, State.loadNeighbours_congr hc hp, hc]

/-- So does a loop of such commands. -/
theorem overBlocks_same {body : Nat → Nat → State → Except ErrCode State}
    (hb : ∀ {s s' t t' : State} {br bc : Nat}, s'.cfg = s.cfg → s'.planes = s.planes →
      body br bc s = .ok t → body br bc s' = .ok t' → t'.cfg = t.cfg ∧ t'.planes = t.planes)
    (l : List (Nat × Nat)) {s s' t t' : State} (hc : s'.cfg = s.cfg) (hp : s'.planes = s.planes)
    (h : overBlocks body l s = .ok t) (h' : overBlocks body l s' = .ok t') : t'.planes = t.planes := by
  induction l generalizing s s' with
  | nil => cases h; cases h'; exact hp
  | cons b l ih =>
    obtain ⟨br, bc⟩ := b
    simp only [overBlocks, except_bind_ok_iff] at h h'
    obtain ⟨u, hu, ht⟩ := h
    obtain ⟨u', hu', ht'⟩ := h'
    obtain ⟨c1, p1⟩ := hb hc hp hu hu'
    exact ih c1 p1 ht ht'


/-- A loop of bodies that completes is the run of its commands. -/
theorem execAll_overBlocks {body : Nat → Nat → State → Except ErrCode State} {mk : Nat → Nat → Instr}
   (hm : ∀ br bc s, bodyOf (mk br bc) s = body br bc s) (l : List (Nat × Nat)) {s t : State} (he : s.err = none)
   (h : overBlocks body l s = .ok t) : execAll (l.map fun b => mk b.1 b.2) s = .next t := by
  induction l generalizing s with
  | nil => cases h; rfl
  | cons b l ih =>
    obtain ⟨br, bc⟩ := b
    simp only [overBlocks, except_bind_ok_iff] at h
    obtain ⟨u, hu, ht⟩ := h
    have c1 : u.err = none := by
      rcases bodyOf_cases (mk br bc) s with ⟨t', h', hd⟩ | ⟨h', -⟩ | ⟨h', -⟩ | ⟨h', -⟩ <;> rw [hm, hu] at h' <;> cases h'
      rw [hd.error, he]
    simp only [List.map_cons, execAll, exec_of_ok he ((hm br bc s).trans hu)]
    exact ih c1 ht

/-- Three bodies that complete one after the other are the run of their three commands (R12). -/
theorem execAll_three {i j k : Instr} {s t u w : State} (he : s.err = none) (h1 : bodyOf i s = .ok t)
    (h2 : bodyOf j t = .ok u) (h3 : bodyOf k u = .ok w) : execAll [i, j, k] s = .next w := by
  have c1 : t.err = none := by
    rcases bodyOf_cases i s with ⟨t', h', hd⟩ | ⟨h', -⟩ | ⟨h', -⟩ | ⟨h', -⟩ <;> rw [h1] at h' <;> cases h'
    rw [hd.error, he]
  have c2 : u.err = none := by
    rcases bodyOf_cases j t with ⟨t', h', hd⟩ | ⟨h', -⟩ | ⟨h', -⟩ | ⟨h', -⟩ <;> rw [h2] at h' <;> cases h'
    rw [hd.error, c1]
  simp only [execAll, exec_of_ok he h1, exec_of_ok c1 h2, exec_of_ok c2 h3]

end Sys2Proof.Machine
end

