-- ==== Sys2Proof/Laws/Codec.lean ====
section
/-! SUPPORT. Fields of a word: their bounds, a word from its fields, and the fields of an encoded word. -/

namespace Sys2Proof

theorem field_lt (w : Word) (hi lo : Nat) : field w hi lo < 2 ^ (hi + 1 - lo) :=
  Nat.mod_lt _ (Nat.two_pow_pos _)

/-- A word as a number is its opcode and its lower 24 bits. -/
theorem word_eq_fields (w : Word) : w.toNat = field w 31 24 * 2 ^ 24 + field w 23 0 := by
  have := w.isLt
  unfold field
  norm_num at this ⊢
  omega

theorem field_23_0_block (w : Word) : field w 23 0 = field w 23 12 * 2 ^ 12 + field w 11 0 := by
  unfold field; norm_num; omega

theorem field_23_0_reg (w : Word) :
    field w 23 0 = field w 23 13 * 2 ^ 13 + field w 12 8 * 2 ^ 8 + field w 7 0 := by
  unfold field; norm_num; omega

theorem field_23_0_csr (w : Word) : field w 23 0 = field w 23 8 * 2 ^ 8 + field w 7 0 := by
  unfold field; norm_num; omega

/-- The opcode byte and the low bits of a word given as a number. -/
theorem field_ofNat (n hi lo : Nat) (h : n < 2 ^ 32) :
    field (BitVec.ofNat 32 n) hi lo = n / 2 ^ lo % 2 ^ (hi + 1 - lo) := by
  rw [field, BitVec.toNat_ofNat, Nat.mod_eq_of_lt h]

@[simp] theorem regField_val (w : Word) : (regField w).val = field w 12 8 := by
  have : field w 12 8 < 32 := field_lt w 12 8
  simp [regField, Fin.ofNat, Nat.mod_eq_of_lt this]

/-- Two words with the same number are the same word. -/
theorem word_ext {w w' : Word} (h : w.toNat = w'.toNat) : w = w' := BitVec.eq_of_toNat_eq h

/-- The number below `2 ^ (a + 8)` from the number below `2 ^ a` and the next byte. -/
theorem take_byte (n a : Nat) : n % 2 ^ a + n / 2 ^ a % 2 ^ 8 * 2 ^ a = n % 2 ^ (a + 8) := by
  rw [Nat.pow_add, Nat.mod_mul, Nat.mul_comm (2 ^ a)]

theorem four_bytes (n : Nat) (hn : n < 2 ^ 32) :
    (n / 2 ^ 0 % 2 ^ 8 % 2 ^ 8 + n / 2 ^ 8 % 2 ^ 8 % 2 ^ 8 * 2 ^ 8 + n / 2 ^ 16 % 2 ^ 8 % 2 ^ 8 * 2 ^ 16 +
      n / 2 ^ 24 % 2 ^ 8 % 2 ^ 8 * 2 ^ 24) % 2 ^ 32 = n := by
  rw [Nat.pow_zero, Nat.div_one, Nat.mod_mod, Nat.mod_mod, Nat.mod_mod, Nat.mod_mod, take_byte, take_byte,
    take_byte, Nat.mod_mod, Nat.mod_eq_of_lt hn]

/-- The word of a word's four stored bytes is the word (R44). -/
theorem wordOfBytes_fields (w : Word) :
    wordOfBytes (BitVec.ofNat 8 (field w 7 0)) (BitVec.ofNat 8 (field w 15 8)) (BitVec.ofNat 8 (field w 23 16))
      (BitVec.ofNat 8 (field w 31 24)) = w := by
  apply word_ext
  simp only [wordOfBytes, BitVec.toNat_ofNat, field]
  exact four_bytes w.toNat w.isLt

theorem decodeBytes_cons (b0 b1 b2 b3 : Byte) (rest : List Byte) :
    decodeBytes (b0 :: b1 :: b2 :: b3 :: rest) = (decode (wordOfBytes b0 b1 b2 b3)).map fun i => (i, rest) := rfl

/-- The decoder on a stored word: the decoder on the word, and the bytes after it. -/
theorem decodeBytes_bytesOfWord (w : Word) (rest : List Byte) :
    decodeBytes (bytesOfWord w ++ rest) = (decode w).map fun i => (i, rest) := by
  simp only [bytesOfWord, List.cons_append, List.nil_append, decodeBytes_cons, wordOfBytes_fields]

/-! Masks (R66): a word under the mask of one run of bits is that field put back in its place. -/

theorem toNat_and_run (w : Word) (lo n : Nat) (h : lo + n ≤ 32) :
    (w &&& BitVec.ofNat 32 ((2 ^ n - 1) * 2 ^ lo)).toNat = w.toNat / 2 ^ lo % 2 ^ n * 2 ^ lo := by
  have hlt : (2 ^ n - 1) * 2 ^ lo < 2 ^ 32 := calc
    (2 ^ n - 1) * 2 ^ lo < 2 ^ n * 2 ^ lo :=
      Nat.mul_lt_mul_of_pos_right (Nat.sub_lt (Nat.two_pow_pos n) Nat.one_pos) (Nat.two_pow_pos lo)
    _ = 2 ^ (lo + n) := by rw [Nat.pow_add, Nat.mul_comm]
    _ ≤ 2 ^ 32 := Nat.pow_le_pow_right (by omega) h
  rw [BitVec.toNat_and, BitVec.toNat_ofNat, Nat.mod_eq_of_lt hlt]
  apply Nat.eq_of_testBit_eq
  intro i
  simp only [Nat.testBit_and, Nat.testBit_mul_two_pow, Nat.testBit_two_pow_sub_one, Nat.testBit_mod_two_pow,
    Nat.testBit_div_two_pow]
  by_cases hi : lo ≤ i
  · simp [hi, Bool.and_comm]
  · simp [hi]

/-- A word that matches a pattern under a mask matches it under any part of the mask. -/
theorem and_part {w m p part : Word} (h : w &&& m = p) (hp : m &&& part = part) : w &&& part = p &&& part := by
  rw [← h, BitVec.and_assoc, hp]

/-- A field under the mask of a match is the pattern's. -/
theorem field_of_match {w m p : Word} (hi lo v : Nat) (h : w &&& m = p) (hl : lo + (hi + 1 - lo) ≤ 32)
    (hm : m &&& BitVec.ofNat 32 ((2 ^ (hi + 1 - lo) - 1) * 2 ^ lo) =
      BitVec.ofNat 32 ((2 ^ (hi + 1 - lo) - 1) * 2 ^ lo))
    (hv : p.toNat / 2 ^ lo % 2 ^ (hi + 1 - lo) = v) : field w hi lo = v := by
  have e := congrArg BitVec.toNat (and_part h hm)
  rw [toNat_and_run _ _ _ hl, toNat_and_run _ _ _ hl] at e
  rw [← hv]
  exact Nat.eq_of_mul_eq_mul_right (Nat.two_pow_pos lo) e

/-- Format `N` decodes exactly when its 24 operand bits are 0 (R61). -/
theorem decodeN_ok_iff (w : Word) (i j : Instr) : decodeN w i = .ok j ↔ field w 23 0 = 0 ∧ j = i := by
  unfold decodeN
  by_cases h : field w 23 0 = 0
  · rw [if_pos h, Except.ok.injEq]
    exact ⟨fun e => ⟨h, e.symm⟩, fun e => e.2.symm⟩
  · rw [if_neg h]
    exact ⟨fun e => (nomatch e), fun e => absurd e.1 h⟩

theorem decodeB_ok_iff (w : Word) (mk : Nat → Nat → Instr) (j : Instr) :
    decodeB w mk = .ok j ↔ j = mk (field w 23 12) (field w 11 0) := by
  simp [decodeB, eq_comm]

theorem decodeW_ok_iff (w : Word) (mk : Fin 32 → Byte → Instr) (j : Instr) :
    decodeW w mk = .ok j ↔
      field w 23 13 = 0 ∧ j = mk (regField w) (BitVec.ofNat 8 (field w 7 0)) := by
  unfold decodeW
  by_cases h : field w 23 13 = 0
  · rw [if_pos h, Except.ok.injEq]
    exact ⟨fun e => ⟨h, e.symm⟩, fun e => e.2.symm⟩
  · rw [if_neg h]
    exact ⟨fun e => (nomatch e), fun e => absurd e.1 h⟩

theorem decodeR_ok_iff (w : Word) (mk : Fin 32 → Instr) (j : Instr) :
    decodeR w mk = .ok j ↔ (field w 23 13 = 0 ∧ field w 7 0 = 0) ∧ j = mk (regField w) := by
  unfold decodeR
  by_cases h : field w 23 13 = 0 ∧ field w 7 0 = 0
  · rw [if_pos h, Except.ok.injEq]
    exact ⟨fun e => ⟨h, e.symm⟩, fun e => e.2.symm⟩
  · rw [if_neg h]
    exact ⟨fun e => (nomatch e), fun e => absurd e.1 h⟩

theorem decodeC_ok_iff (w : Word) (mk : Nat → Instr) (j : Instr) :
    decodeC w mk = .ok j ↔ field w 23 8 = 0 ∧ j = mk (field w 7 0) := by
  unfold decodeC
  by_cases h : field w 23 8 = 0
  · rw [if_pos h, Except.ok.injEq]
    exact ⟨fun e => ⟨h, e.symm⟩, fun e => e.2.symm⟩
  · rw [if_neg h]
    exact ⟨fun e => (nomatch e), fun e => absurd e.1 h⟩

end Sys2Proof
end

