-- ==== Sys2Proof/Laws/Csr.lean ====
section
/-! SUPPORT. The CSRs: which numbers are defined, and the bits of `STATUS` and `WVALID`. -/

namespace Sys2Proof.Machine

/-- The numbers with a CSR are those of R133. -/
theorem csrOfNumber_isSome_iff (n : Nat) : (∃ c, csrOfNumber n = some c) ↔ n ∈ definedCsrNumbers := by
  constructor
  · rintro ⟨c, h⟩
    unfold csrOfNumber at h
    split at h <;> first | decide | cases h
  · intro h
    simp only [definedCsrNumbers, List.mem_cons, List.not_mem_nil, or_false] at h
    rcases h with rfl | rfl | rfl | rfl | rfl | rfl | rfl | rfl | rfl | rfl | rfl | rfl | rfl | rfl | rfl | rfl |
      rfl | rfl | rfl | rfl <;> exact ⟨_, rfl⟩

theorem csrOfNumber_none_iff (n : Nat) : csrOfNumber n = none ↔ n ∉ definedCsrNumbers := by
  rw [← csrOfNumber_isSome_iff]
  rcases csrOfNumber n with _ | c <;> simp

/-- A bit of the number of a list of bits. -/
theorem testBit_maskOf (l : List Bool) (n : Nat) : (maskOf l).testBit n = (l[n]?).getD false := by
  induction l generalizing n with
  | nil => simp [maskOf]
  | cons b l ih =>
    cases n with
    | zero => simp [maskOf]
    | succ n => simp [maskOf, Nat.testBit_bit_succ, ih]

/-- Bit `n` of `WVALID` is the valid bit of register `n` (R30). -/
theorem getLsbD_wvalidWord (s : State) (n : Fin 32) : (wvalidWord s).getLsbD n.val = (s.reg n).isSome := by
  have h := n.isLt
  rw [wvalidWord, BitVec.getLsbD_ofNat, testBit_maskOf]
  simp [h, State.reg]

end Sys2Proof.Machine
end

