-- ==== Sys2Proof/Laws/PerInstr.lean ====
section
/-! SUPPORT. One lemma per command: its word stands in its own row of the opcode map (R66), `(w & mask) == match`. -/

namespace Sys2Proof.Laws.TableRow

/-- The word of a well-formed command matches the row of its mnemonic. -/
def Statement (i : Instr) : Prop :=
  i.wf = true → ∃ row ∈ opcodeTable, row.mnemonic = i.mnemonic ∧ encode i &&& row.mask = row.pattern

/-- A command of format `B`: only the opcode is under the mask. -/
theorem of_block {op br bc : Nat} (hr : fitsBlockField br = true) (hc : fitsBlockField bc = true) :
    encodeB op br bc &&& 0xFF000000 = BitVec.ofNat 32 (op * 2 ^ 24) := by
  simp only [fitsBlockField, decide_eq_true_eq] at hr hc
  apply word_ext
  rw [show (0xFF000000 : Word) = BitVec.ofNat 32 ((2 ^ 8 - 1) * 2 ^ 24) from rfl, toNat_and_run _ 24 8 (by omega)]
  simp only [encodeB, BitVec.toNat_ofNat]
  norm_num
  omega

/-- A command of format `W`: the opcode and bits 23:13 are under the mask. -/
theorem of_write (reg : Fin 32) (v : Byte) : encodeW 0x01 reg v &&& 0xFFFFE000 = 0x01000000 := by
  apply word_ext
  rw [show (0xFFFFE000 : Word) = BitVec.ofNat 32 ((2 ^ 19 - 1) * 2 ^ 13) from rfl, toNat_and_run _ 13 19 (by omega)]
  have := reg.isLt
  have := v.isLt
  rw [show (0x01000000 : Word).toNat = 0x01000000 from rfl]
  simp only [encodeW, BitVec.toNat_ofNat]
  norm_num
  omega

/-- A command of format `R`: all but the register number is under the mask. -/
theorem of_read (reg : Fin 32) : encodeR 0x02 reg &&& 0xFFFFE0FF = 0x02000000 := by
  revert reg
  decide

/-- A command of format `C`: all but the CSR number is under the mask. -/
theorem of_csr {csr : Nat} (h : fitsCsrField csr = true) : encodeC 0x03 csr &&& 0xFFFFFF00 = 0x03000000 := by
  simp only [fitsCsrField, decide_eq_true_eq] at h
  apply word_ext
  rw [show (0xFFFFFF00 : Word) = BitVec.ofNat 32 ((2 ^ 24 - 1) * 2 ^ 8) from rfl, toNat_and_run _ 8 24 (by omega)]
  rw [show (0x03000000 : Word).toNat = 0x03000000 from rfl]
  simp only [encodeC, BitVec.toNat_ofNat]
  norm_num
  omega

theorem nop : Statement .nop := fun _ => ⟨⟨"NOP", 0x00000000, 0xFFFFFFFF⟩, by decide, rfl, by decide⟩

theorem wrw (reg : Fin 32) (imm8 : Byte) : Statement (.wrw reg imm8) := fun _ =>
  ⟨⟨"WRW", 0x01000000, 0xFFFFE000⟩, by decide, rfl, of_write reg imm8⟩

theorem rdw (reg : Fin 32) : Statement (.rdw reg) := fun _ =>
  ⟨⟨"RDW", 0x02000000, 0xFFFFE0FF⟩, by decide, rfl, of_read reg⟩

theorem rdcsr (csr : Nat) : Statement (.rdcsr csr) := fun h =>
  ⟨⟨"RDCSR", 0x03000000, 0xFFFFFF00⟩, by decide, rfl, of_csr h⟩

theorem ldrgb (br bc : Nat) : Statement (.ldrgb br bc) := fun h => by
  obtain ⟨hr, hc⟩ := Bool.and_eq_true_iff.1 h
  exact ⟨⟨"LDRGB", 0x10000000, 0xFF000000⟩, by decide, rfl, of_block hr hc⟩

theorem ldycc (br bc : Nat) : Statement (.ldycc br bc) := fun h => by
  obtain ⟨hr, hc⟩ := Bool.and_eq_true_iff.1 h
  exact ⟨⟨"LDYCC", 0x11000000, 0xFF000000⟩, by decide, rfl, of_block hr hc⟩

theorem stycc (br bc : Nat) : Statement (.stycc br bc) := fun h => by
  obtain ⟨hr, hc⟩ := Bool.and_eq_true_iff.1 h
  exact ⟨⟨"STYCC", 0x12000000, 0xFF000000⟩, by decide, rfl, of_block hr hc⟩

theorem strgb (br bc : Nat) : Statement (.strgb br bc) := fun h => by
  obtain ⟨hr, hc⟩ := Bool.and_eq_true_iff.1 h
  exact ⟨⟨"STRGB", 0x13000000, 0xFF000000⟩, by decide, rfl, of_block hr hc⟩

theorem luma : Statement .luma := fun _ => ⟨⟨"LUMA", 0x20000000, 0xFFFFFFFF⟩, by decide, rfl, by decide⟩

theorem chroma : Statement .chroma := fun _ => ⟨⟨"CHROMA", 0x21000000, 0xFFFFFFFF⟩, by decide, rfl, by decide⟩

theorem ds : Statement .ds := fun _ => ⟨⟨"DS", 0x22000000, 0xFFFFFFFF⟩, by decide, rfl, by decide⟩

theorem us : Statement .us := fun _ => ⟨⟨"US", 0x23000000, 0xFFFFFFFF⟩, by decide, rfl, by decide⟩

theorem recon : Statement .recon := fun _ => ⟨⟨"RECON", 0x24000000, 0xFFFFFFFF⟩, by decide, rfl, by decide⟩

theorem fwdw : Statement .fwdw := fun _ => ⟨⟨"FWDW", 0x28000000, 0xFFFFFFFF⟩, by decide, rfl, by decide⟩

theorem invw : Statement .invw := fun _ => ⟨⟨"INVW", 0x29000000, 0xFFFFFFFF⟩, by decide, rfl, by decide⟩

theorem fwdblk (br bc : Nat) : Statement (.fwdblk br bc) := fun h => by
  obtain ⟨hr, hc⟩ := Bool.and_eq_true_iff.1 h
  exact ⟨⟨"FWDBLK", 0x30000000, 0xFF000000⟩, by decide, rfl, of_block hr hc⟩

theorem invblk (br bc : Nat) : Statement (.invblk br bc) := fun h => by
  obtain ⟨hr, hc⟩ := Bool.and_eq_true_iff.1 h
  exact ⟨⟨"INVBLK", 0x31000000, 0xFF000000⟩, by decide, rfl, of_block hr hc⟩

theorem fwdpln : Statement .fwdpln := fun _ => ⟨⟨"FWDPLN", 0x40000000, 0xFFFFFFFF⟩, by decide, rfl, by decide⟩

theorem invpln : Statement .invpln := fun _ => ⟨⟨"INVPLN", 0x41000000, 0xFFFFFFFF⟩, by decide, rfl, by decide⟩

end Sys2Proof.Laws.TableRow
end

