-- ==== Sys2Proof/Machine/Assembler.lean ====
section
/-! DEFINITION. The assembler syntax (R72) and its two pseudo-commands (R73), as a function from text to commands.
What the rules leave open (blanks, empty lines, how numbers and register numbers are written, an operand that does
not fit) is log entry 13. -/

namespace Sys2Proof.Machine

/-- The characters before the first `;` (R72: it starts a comment). -/
def dropComment : List Char → List Char
  | [] => []
  | c :: cs => if c = ';' then [] else c :: dropComment cs

/-- Blanks that may stand around a mnemonic or an operand (DESIGN CHOICE, log entry 13). -/
def isBlank (c : Char) : Bool := c == ' ' || c == '\t' || c == '\r'

/-- The text without the blanks at its two ends. -/
def trim (cs : List Char) : List Char := ((cs.dropWhile isBlank).reverse.dropWhile isBlank).reverse

/-- The pieces of a text between occurrences of a character. -/
def splitAtChar (sep : Char) : List Char → List (List Char)
  | [] => [[]]
  | c :: cs =>
    match splitAtChar sep cs with
    | [] => [[]]
    | piece :: pieces => if c = sep then [] :: piece :: pieces else (c :: piece) :: pieces

/-- The value of a digit in the given base, 10 or 16. -/
def digitValue (base : Nat) (c : Char) : Option Nat :=
  let n := c.toNat
  let v :=
    if '0'.toNat ≤ n ∧ n ≤ '9'.toNat then n - '0'.toNat
    else if 'A'.toNat ≤ n ∧ n ≤ 'F'.toNat then n - 'A'.toNat + 10
    else if 'a'.toNat ≤ n ∧ n ≤ 'f'.toNat then n - 'a'.toNat + 10
    else base
  if v < base then some v else none

/-- The digits read so far and the ones to come, most significant first. -/
def digitsValue (base : Nat) : Nat → List Char → Option Nat
  | acc, [] => some acc
  | acc, c :: cs => (digitValue base c).bind fun d => digitsValue base (acc * base + d) cs

/-- A number: decimal, or hexadecimal with `0x` (R72).  Leading zeros are allowed and hexadecimal
digits may be of either case (DESIGN CHOICE, log entry 13). -/
def parseNumber : List Char → Option Nat
  | [] => none
  | ['0', 'x'] => none
  | '0' :: 'x' :: cs => digitsValue 16 0 cs
  | cs => digitsValue 10 0 cs

/-- The bank names (R21, R73). -/
def bankNames : List (String × Bank) :=
  [("R", .r), ("G", .g), ("B", .b), ("Y", .y), ("CB", .cb), ("CR", .cr), ("CBS", .cbs), ("CRS", .crs)]

/-- A bank by its name. -/
def parseBank (cs : List Char) : Option Bank := (bankNames.find? fun x => x.1.toList == cs).map Prod.snd

/-- The index at the end of a bank register's name, 0 to 3 (R72). -/
def parseIndex : List Char → Option (Fin 4)
  | ['0'] => some 0
  | ['1'] => some 1
  | ['2'] => some 2
  | ['3'] => some 3
  | _ => none

/-- A window register operand: `x<n>` with `n` from 0 to 31, or a bank name and an index (R72).  DESIGN CHOICE (log entry
13): R72 does not say how `n` may be written; it is read in decimal only, leading zeros allowed. -/
def parseReg (cs : List Char) : Option (Fin 32) :=
  match cs with
  | 'x' :: ds => (digitsValue 10 0 ds).bind fun n =>
      if h : n < 32 then if ds = [] then none else some ⟨n, h⟩ else none
  | _ => (parseBank cs.dropLast).bind fun bank => (parseIndex (cs.drop (cs.length - 1))).map fun q => bankReg bank q

/-- The CSR names (R27). -/
def csrNames : List (String × Nat) :=
  [("STATUS", 0x00), ("ERRCMD", 0x01), ("WVALID", 0x02), ("DIM", 0x03), ("KSHIFT", 0x04), ("C11", 0x10),
    ("C12", 0x11), ("C13", 0x12), ("C21", 0x13), ("C22", 0x14)] ++
  [("C23", 0x15), ("C31", 0x16), ("C32", 0x17), ("C33", 0x18), ("D1", 0x20), ("D2", 0x21), ("D3", 0x22),
    ("D4", 0x23), ("D5", 0x24), ("VERSION", 0x3F)]

/-- A CSR operand: its name or a number (R72). -/
def parseCsr (cs : List Char) : Option Nat :=
  match csrNames.find? fun x => x.1.toList == cs with
  | some x => some x.2
  | none => parseNumber cs

/-- A sample operand: a number of 0 to 255 (R63). -/
def parseSample (cs : List Char) : Option Byte :=
  (parseNumber cs).bind fun n => if n < 256 then some (BitVec.ofNat 8 n) else none

/-- The commands without operands, by mnemonic (format `N`). -/
def plainCommands : List Instr :=
  [.nop, .luma, .chroma, .ds, .us, .recon, .fwdw, .invw, .fwdpln, .invpln]

/-- The commands of a block, by mnemonic (format `B`). -/
def blockCommands : List (Nat → Nat → Instr) :=
  [.ldrgb, .ldycc, .stycc, .strgb, .fwdblk, .invblk]

/-- The commands of a mnemonic and its operands: one, or the expansion of a pseudo-command (R72, R73). -/
def assembleCommand (mnemonic : List Char) (operands : List (List Char)) : Option (List Instr) :=
  match operands with
  | [] => (plainCommands.find? fun i => i.mnemonic.toList == mnemonic).map fun i => [i]
  | [a] =>
    if mnemonic = "RDW".toList then (parseReg a).map fun reg => [.rdw reg]
    else if mnemonic = "RDCSR".toList then (parseCsr a).map fun csr => [.rdcsr csr]
    else if mnemonic = "RDBANK".toList then (parseBank a).map fun bank =>
      [.rdw (bankReg bank 0), .rdw (bankReg bank 1), .rdw (bankReg bank 2), .rdw (bankReg bank 3)]
    else none
  | [a, b] =>
    if mnemonic = "WRW".toList then
      (parseReg a).bind fun reg => (parseSample b).map fun v => [.wrw reg v]
    else
      (blockCommands.find? fun mk => (mk 0 0).mnemonic.toList == mnemonic).bind fun mk =>
        (parseNumber a).bind fun br => (parseNumber b).map fun bc => [mk br bc]
  | [a, b, c, d, e] =>
    if mnemonic = "WRBANK".toList then
      (parseBank a).bind fun bank => (parseSample b).bind fun v0 => (parseSample c).bind fun v1 =>
        (parseSample d).bind fun v2 => (parseSample e).map fun v3 =>
          [.wrw (bankReg bank 0) v0, .wrw (bankReg bank 1) v1, .wrw (bankReg bank 2) v2, .wrw (bankReg bank 3) v3]
    else none
  | _ => none

/-- The operands of a command: the pieces between commas, none when nothing follows the mnemonic. -/
def splitOperands (cs : List Char) : List (List Char) :=
  if trim cs = [] then [] else (splitAtChar ',' cs).map trim

/-- One line of assembler text (R72): no command on a blank line, else the commands of its mnemonic, each with
operands that fit its fields. -/
def assembleLine (line : List Char) : Option (List Instr) :=
  match trim (dropComment line) with
  | [] => some []
  | cs =>
    (assembleCommand (cs.takeWhile fun c => !isBlank c) (splitOperands (cs.dropWhile fun c => !isBlank c))).bind
      fun is => if is.all Instr.wf then some is else none

/-- The lines one after the other. -/
def assembleLines : List (List Char) → Option (List Instr)
  | [] => some []
  | line :: lines => (assembleLine line).bind fun is => (assembleLines lines).map fun rest => is ++ rest

/-- A program text to its command words (R72): one command per line, in the order of the lines. -/
def assemble (text : String) : Option (List Word) :=
  (assembleLines (splitAtChar '\n' text.toList)).map fun is => is.map encode

end Sys2Proof.Machine
end

