-- ==== Sys2Proof/Tests/Slice0.lean ====
section
/-! SUPPORT. Tests and witnesses.  Every expected value is written out from the spec: a `V<n>` or `P<n>` names a row
or a program of 95_test_vectors.md, an `R<n>` the rule the value was worked out from by hand. -/

namespace Sys2Proof.Tests

open Sys2Proof Sys2Proof.Machine

-- Each kernel evaluation would else take a thread of its own.
set_option Elab.async false

/-! ## Helpers -/

/-- `REF601_K8` on the 4 by 6 raster of 95_test_vectors.md 2.6, and on the rasters of P2, P3 and P5. -/
abbrev c46 : Config := Config.ref601K8 4 6
abbrev c44 : Config := Config.ref601K8 4 4
abbrev c22 : Config := Config.ref601K8 2 2
abbrev c26 : Config := Config.ref601K8 2 6

/-- The engine after reset with blank planes. -/
def idle (c : Config) : State := State.powerUp c Planes.blank []

/-- The same with window registers set, from register `n` on. -/
def State.withRegs (s : State) : Nat → List Nat → State
  | _, [] => s
  | n, v :: vs => State.withRegs (s.writeReg (Fin.ofNat 32 n) (BitVec.ofNat 8 v)) (n + 1) vs

/-- All 32 registers valid, register `n` holding `n`. -/
def full (c : Config) : State := State.withRegs (idle c) 0 (List.range 32)

/-- A plane memory from its samples in address order. -/
def samples (vs : List Nat) : Memory :=
  vs.zipIdx.filterMap fun x => if x.1 = 0 then none else some (x.2, BitVec.ofNat 8 x.1)

/-- An engine halted by `FWDBLK 2, 0` on a 4 by 4 raster (V93). -/
def halted : State := { idle c44 with err := some ⟨.badBlock, 0x30002000⟩ }

/-- The outcome is a next state with the given property. -/
def goesOn (o : Host.Outcome State Fault Refusal) (p : State → Bool) : Bool :=
  match o with
  | .next t => p t
  | _ => false

/-- The next state, or the given one. -/
def after (o : Host.Outcome State Fault Refusal) (s : State) : State :=
  match o with
  | .next t => t
  | _ => s

theorem next_after {o : Host.Outcome State Fault Refusal} (s : State) (h : goesOn o (fun _ => true) = true) :
    o = .next (after o s) := by
  cases o with
  | next t => rfl
  | fault f => simp [goesOn] at h
  | refused r => simp [goesOn] at h

/-- The registers from number `n` on hold the given values. -/
def regsFrom (t : State) (n : Nat) (vs : List Nat) : Bool :=
  vs.zipIdx.all fun x => t.reg (Fin.ofNat 32 (n + x.2)) == some (BitVec.ofNat 8 x.1)

/-- The plane holds the given samples from address 0 on. -/
def planeIs (t : State) (p : Plane) (vs : List Nat) : Bool :=
  vs.zipIdx.all fun x => t.peek p x.2 == BitVec.ofNat 8 x.1

/-- `STATUS` and `ERRCMD`, and everything else as in `s`. -/
def errorIs (s t : State) (status errcmd : Word) : Bool :=
  csrWord t .status == status && csrWord t .errcmd == errcmd && decide ({ t with err := s.err } = s)

/-! ## Well-formed commands and configurations -/

theorem test_wf_refuses_csr : (Instr.rdcsr 256).wf = false ∧ (Instr.rdcsr 255).wf = true := by decide

theorem test_wf_refuses_block_row :
    ([Instr.ldrgb 4096 0, .ldycc 4096 0, .stycc 4096 0, .strgb 4096 0, .fwdblk 4096 0, .invblk 4096 0].all
      fun i => !i.wf) = true := by decide

theorem test_wf_refuses_block_column :
    ([Instr.ldrgb 0 4096, .ldycc 0 4096, .stycc 0 4096, .strgb 0 4096, .fwdblk 0 4096, .invblk 0 4096].all
      fun i => !i.wf) = true := by decide

/-- R62: 4095 is the largest block index. -/
theorem test_wf_accepts_largest_block :
    ([Instr.ldrgb 4095 4095, .ldycc 4095 4095, .stycc 4095 4095, .strgb 4095 4095, .fwdblk 4095 4095,
      .invblk 4095 4095].all Instr.wf) = true := by decide

/-- R5: a dimension is even, from 2 to 8192. -/
theorem test_config_refuses_dimensions :
    ([0, 1, 3, 8191, 8194].all fun n => !(Config.ref601K8 n 4).wf && !(Config.ref601K8 4 n).wf) = true ∧
    ([2, 8192].all fun n => (Config.ref601K8 n 4).wf && (Config.ref601K8 4 n).wf) = true := by decide

/-- R7: `K` is 1 to 16. -/
theorem test_config_refuses_shift :
    ([0, 17].all fun k => !(Config.wf { c44 with k := k })) = true ∧
    ([1, 16].all fun k => Config.wf { c44 with k := k }) = true := by decide

/-- R7: each coefficient has 20 bits. -/
theorem test_config_refuses_coefficients :
    ([Config.wf { c44 with c11 := 2 ^ 20 }, Config.wf { c44 with c12 := 2 ^ 20 }, Config.wf { c44 with c13 := 2 ^ 20 },
      Config.wf { c44 with c21 := 2 ^ 20 }, Config.wf { c44 with c22 := 2 ^ 20 }, Config.wf { c44 with c23 := 2 ^ 20 },
      Config.wf { c44 with c31 := 2 ^ 20 }, Config.wf { c44 with c32 := 2 ^ 20 }, Config.wf { c44 with c33 := 2 ^ 20 },
      Config.wf { c44 with d1 := 2 ^ 20 }, Config.wf { c44 with d2 := 2 ^ 20 }, Config.wf { c44 with d3 := 2 ^ 20 },
      Config.wf { c44 with d4 := 2 ^ 20 }, Config.wf { c44 with d5 := 2 ^ 20 }].all fun b => !b) = true ∧
    Config.wf { c44 with c11 := 2 ^ 20 - 1, d5 := 2 ^ 20 - 1 } = true := by decide

/-! ## Decoding -/

/-- One word of each format written out bit by bit from R61 to R65: opcode, reserved field, operands. -/
theorem test_decode_formats :
    decode 0b00100000000000000000000000000000 = .ok .luma ∧
    decode 0b00010010000000000001000000000010 = .ok (.stycc 1 2) ∧
    decode 0b00000001000000000001001111111111 = .ok (.wrw 19 255) ∧
    decode 0b00000010000000000001111100000000 = .ok (.rdw 31) ∧
    decode 0b00000011000000000000000000111111 = .ok (.rdcsr 63) := by decide

/-- The register, load and store commands by their words (R66; V60 to V79). -/
theorem test_decode_access :
    decode 0x00000000 = .ok .nop ∧ decode 0x010013FF = .ok (.wrw 19 255) ∧ decode 0x02001F00 = .ok (.rdw 31) ∧
    decode 0x03000005 = .ok (.rdcsr 5) ∧ decode 0x10001002 = .ok (.ldrgb 1 2) ∧
    decode 0x11000002 = .ok (.ldycc 0 2) ∧ decode 0x12001002 = .ok (.stycc 1 2) ∧
    decode 0x13000001 = .ok (.strgb 0 1) := by decide

/-- The datapath, block and plane commands by their words (R66). -/
theorem test_decode_transform :
    decode 0x20000000 = .ok .luma ∧ decode 0x21000000 = .ok .chroma ∧ decode 0x22000000 = .ok .ds ∧
    decode 0x23000000 = .ok .us ∧ decode 0x24000000 = .ok .recon ∧ decode 0x28000000 = .ok .fwdw ∧
    decode 0x29000000 = .ok .invw ∧ decode 0x30FFFFFF = .ok (.fwdblk 4095 4095) ∧
    decode 0x31001000 = .ok (.invblk 1 0) ∧ decode 0x40000000 = .ok .fwdpln ∧ decode 0x41000000 = .ok .invpln := by
  decide

/-- V71, V73, V75, V78, V80: a non-zero reserved field. -/
theorem test_decode_reserved :
    ([0x00000001, 0x01002000, 0x02001F01, 0x03000100, 0x20000001, 0x41800000].all fun w =>
      decide (decode w = .error .reservedField)) = true := by decide

/-- V81 to V83: an undefined opcode. -/
theorem test_decode_undefined :
    ([0x25000000, 0x04000000, 0xFFFFFFFF].all fun w => decide (decode w = .error .undefinedOpcode)) = true := by
  decide

/-- R44: the bytes of `WRW CB3, 255`, least significant first; R71: four bytes, no fewer. -/
theorem test_decode_bytes :
    decodeBytes [0xFF, 0x13, 0x00, 0x01, 0xAA] = .ok (.wrw 19 255, [0xAA]) ∧
    decodeBytes [0xFF, 0x13, 0x00] = .error .truncated ∧
    decodeTableWord 32 0x010013FF = some (.wrw 19 255) ∧ decodeTableWord 32 0x01002000 = none := by decide

/-- The examples of R72, and the encoder on the operands' ends. -/
theorem test_encode :
    encode (.wrw 19 255) = 0x010013FF ∧ encode (.fwdblk 1 0) = 0x30001000 ∧
    encode (.invblk 4095 4095) = 0x31FFFFFF ∧ encode (.rdw 31) = 0x02001F00 ∧ encode .invpln = 0x41000000 := by
  decide

/-! ## The assembler -/

/-- The two examples of R72, in both spellings of the register. -/
theorem test_assemble_examples :
    assemble "WRW CB3, 255" = some [0x010013FF] ∧ assemble "WRW x19, 0xFF" = some [0x010013FF] ∧
    assemble "FWDBLK 1, 0" = some [0x30001000] := by decide +kernel

/-- R72: one command per line, comments, CSR names and numbers. -/
theorem test_assemble_lines :
    assemble "RDCSR VERSION ; who are you\n\nFWDPLN\nRDW CRS3\nRDCSR 5" =
      some [0x0300003F, 0x40000000, 0x02001F00, 0x03000005] := by decide +kernel

/-- R73: the expansions of the two pseudo-commands, on the values of P1. -/
theorem test_assemble_pseudo :
    assemble "WRBANK CB, 0, 0, 0, 255" = some [0x01001000, 0x01001100, 0x01001200, 0x010013FF] ∧
    assemble "RDBANK CR" = some [0x02001400, 0x02001500, 0x02001600, 0x02001700] := by decide +kernel

/-- No such register, block index, mnemonic or sample; and the model's choices of log entry 13 on register numbers. -/
theorem test_assemble_refuses :
    assemble "RDW x007" = some [0x02000700] ∧
    (["WRW x32, 1", "RDW x0x13", "RDW R00", "RDW x", "WRW R4, 1", "LDRGB 4096, 0", "nop", "WRW R0, 256", "WRBANK Q, 1, 2, 3, 4", "NOP 1",
      "RDCSR FLAGS"].all fun t => assemble t == none) = true := by decide +kernel

/-! ## Register access -/

theorem test_nop : goesOn (exec .nop (full c44)) (fun t => t == full c44) = true := by decide +kernel

/-- R110: discarded while halted, with the same empty effect. -/
theorem test_nop_halted : goesOn (exec .nop halted) (fun t => t == halted) = true := by decide +kernel

/-- R111's example: `x[19] = 255`, valid; its neighbour stays invalid. -/
theorem test_wrw : goesOn (exec (.wrw 19 255) (idle c44)) (fun t =>
    t.reg 19 == some 255 && t.reg 18 == none && t.responses == []) = true := by decide +kernel

/-- P3 step 6: discarded while halted. -/
theorem test_wrw_halted : goesOn (exec (.wrw 0 1) halted) (fun t => t == halted) = true := by decide +kernel

/-- R112's example: the response has bits 31:8 zero and the register stays. -/
theorem test_rdw : goesOn (exec (.rdw 19) (State.withRegs (idle c44) 19 [255])) (fun t =>
    t.responses == [0x000000FF] && t.reg 19 == some 255) = true := by decide +kernel

/-- V90. -/
theorem test_rdw_invalid : goesOn (exec (.rdw 0) (idle c44)) (fun t =>
    errorIs (idle c44) t 0x00000041 0x02000000) = true := by decide +kernel

/-- R113's example, P2 step 1, V99 and V97: `KSHIFT`, `DIM`, `WVALID`, and `STATUS` of a halted engine (V93). -/
theorem test_rdcsr :
    goesOn (exec (.rdcsr 0x04) (idle c44)) (fun t => t.responses == [0x00000008]) = true ∧
    goesOn (exec (.rdcsr 0x03) (idle c26)) (fun t => t.responses == [0x00060002]) = true ∧
    goesOn (exec (.rdcsr 0x02) (State.withRegs (idle c44) 0 [7])) (fun t => t.responses == [0x00000001]) = true ∧
    goesOn (exec (.rdcsr 0x00) halted) (fun t => t.responses == [0x00000031]) = true := by decide +kernel

/-- V92, and V98: discarded silently while halted. -/
theorem test_rdcsr_undefined :
    goesOn (exec (.rdcsr 5) (idle c44)) (fun t => errorIs (idle c44) t 0x00000021 0x03000005) = true ∧
    goesOn (exec (.rdcsr 5) halted) (fun t => t == halted) = true := by decide +kernel

/-! ## Loads and stores (95_test_vectors.md 2.6: the raster of 4 by 6; each location holds its address plus 1) -/

/-- Planes in which each location holds its own address plus a constant. -/
def numbered : State :=
  { idle c46 with planes :=
    { pr := samples ((List.range 24).map (· + 1)), pg := samples ((List.range 24).map (· + 51)),
      pb := samples ((List.range 24).map (· + 101)), py := samples ((List.range 24).map (· + 151)),
      pcb := samples ((List.range 6).map (· + 201)), pcr := samples ((List.range 6).map (· + 221)) } }

/-- V61: addresses 16, 17, 22, 23. -/
theorem test_ldrgb : goesOn (exec (.ldrgb 1 2) numbered) (fun t =>
    regsFrom t 0 [17, 18, 23, 24, 67, 68, 73, 74, 117, 118, 123, 124] && t.reg 12 == none) = true := by
  decide +kernel

/-- V68, V69. -/
theorem test_ldrgb_outside :
    goesOn (exec (.ldrgb 2 0) numbered) (fun t => errorIs numbered t 0x00000031 0x10002000) = true ∧
    goesOn (exec (.ldrgb 0 3) numbered) (fun t => errorIs numbered t 0x00000031 0x10000003) = true := by
  decide +kernel

/-- V64: an interior block, slots from addresses 0, 1, 3, 4. -/
theorem test_ldycc : goesOn (exec (.ldycc 0 0) numbered) (fun t =>
    regsFrom t 12 [151, 152, 157, 158] && regsFrom t 24 [201, 202, 204, 205, 221, 222, 224, 225] &&
    t.reg 16 == none) = true := by decide +kernel

/-- V65, V66, V67: last column, last row, corner. -/
theorem test_ldycc_edges :
    goesOn (exec (.ldycc 0 2) numbered) (fun t => regsFrom t 24 [203, 203, 206, 206]) = true ∧
    goesOn (exec (.ldycc 1 0) numbered) (fun t => regsFrom t 24 [204, 205, 204, 205]) = true ∧
    goesOn (exec (.ldycc 1 2) numbered) (fun t => regsFrom t 24 [206, 206, 206, 206]) = true := by decide +kernel

/-- V62: `PY` 16, 17, 22, 23, `PCB[5]`, `PCR[5]`; the registers hold their own numbers. -/
theorem test_stycc : goesOn (exec (.stycc 1 2) (full c46)) (fun t =>
    t.planes == { Planes.blank with
      py := [(16, 12), (17, 13), (22, 14), (23, 15)], pcb := [(5, 24)], pcr := [(5, 28)] }) = true := by decide +kernel

/-- V94: priority; and V95: `UNINIT_REG` with nothing written. -/
theorem test_stycc_errors :
    goesOn (exec (.stycc 4095 0) (idle c44)) (fun t => errorIs (idle c44) t 0x00000031 0x12FFF000) = true ∧
    goesOn (exec (.stycc 0 0) (State.withRegs (idle c44) 0 (List.range 16))) (fun t =>
      errorIs (State.withRegs (idle c44) 0 (List.range 16)) t 0x00000041 0x12000000 &&
        csrWord t .wvalid == 0x0000FFFF) = true := by decide +kernel

/-- V63: addresses 2, 3, 8, 9.  Register 0 holds 0, which leaves its location unlisted (log entry 3). -/
theorem test_strgb : goesOn (exec (.strgb 0 1) (full c46)) (fun t =>
    t.planes == { Planes.blank with
      pr := [(3, 1), (8, 2), (9, 3)]
      pg := [(2, 4), (3, 5), (8, 6), (9, 7)]
      pb := [(2, 8), (3, 9), (8, 10), (9, 11)] }) = true := by decide +kernel

theorem test_strgb_invalid : goesOn (exec (.strgb 1 2) (State.withRegs (idle c46) 0 (List.range 11))) (fun t =>
    errorIs (State.withRegs (idle c46) 0 (List.range 11)) t 0x00000041 0x13001002) = true := by decide +kernel

/-! ## The datapath -/

/-- Red, green, blue and V20 in the four lanes: V13, V14, V15, V20. -/
def colours : State := State.withRegs (idle c44) 0 [255, 0, 0, 200, 0, 255, 0, 100, 0, 0, 255, 50]

theorem test_luma : goesOn (exec .luma colours) (fun t =>
    regsFrom t 12 [81, 144, 40, 122] && t.reg 16 == none) = true := by decide +kernel

/-- V19 and V10, V11, V12: truncation, black, white, grey. -/
theorem test_luma_greys : goesOn (exec .luma
    (State.withRegs (idle c44) 0 [1, 0, 255, 128, 2, 0, 255, 128, 3, 0, 255, 128])) (fun t =>
    regsFrom t 12 [17, 16, 235, 126]) = true := by decide +kernel

theorem test_chroma : goesOn (exec .chroma colours) (fun t =>
    regsFrom t 16 [90, 54, 239, 91, 239, 34, 110, 175] && t.reg 24 == none) = true := by decide +kernel

/-- R91, R92 with other parameters: `C23 = C31 = 1000` drive blue and red over 255, `C21 = C22 = 400` and
`C32 = C33 = 400` below 0, and both clamp. -/
theorem test_chroma_clamps :
    goesOn (exec .chroma { colours with cfg :=
      { c44 with c21 := 400, c22 := 400, c23 := 1000, c31 := 1000, c32 := 400, c33 := 400 } }) (fun t =>
      regsFrom t 16 [0, 0, 255] && regsFrom t 20 [255, 0, 0]) = true := by decide +kernel

/-- V23 in `CB` and V26 in `CR`; slot 1 stays. -/
theorem test_ds : goesOn (exec .ds (State.withRegs (State.withRegs (idle c44) 16 [0, 0, 0, 255, 1, 2, 3, 4]) 25 [9]))
    (fun t => t.reg 24 == some 63 && t.reg 28 == some 2 && t.reg 25 == some 9 && t.reg 29 == none) = true := by
  decide +kernel

/-- R98: clamped first, `down4(0, 255, 128, 128) = 127`. -/
theorem test_ds_after_clamp : goesOn (exec .ds
    (State.withRegs (idle c44) 16 [0, 255, 128, 128, 255, 255, 255, 255])) (fun t =>
    t.reg 24 == some 127 && t.reg 28 == some 255) = true := by decide +kernel

/-- V32 in `CB`, V39 in `CR`. -/
theorem test_us : goesOn (exec .us (State.withRegs (idle c44) 24 [100, 101, 102, 104, 127, 100, 140, 90])) (fun t =>
    regsFrom t 16 [100, 100, 101, 101, 127, 113, 133, 114]) = true := by decide +kernel

/-- V34 and V36. -/
theorem test_us_truncates : goesOn (exec .us (State.withRegs (idle c44) 24 [255, 0, 0, 0, 10, 11, 13, 16])) (fun t =>
    regsFrom t 16 [255, 127, 127, 63, 10, 10, 11, 12]) = true := by decide +kernel

/-- V44, V48, V53, V56 in the four lanes: negative, over 255, both in one pixel, a tie. -/
theorem test_recon : goesOn (exec .recon
    (State.withRegs (idle c44) 12 [81, 255, 128, 80, 90, 255, 0, 128, 240, 255, 255, 128])) (fun t =>
    regsFrom t 0 [255, 255, 255, 75, 0, 125, 77, 75, 0, 255, 0, 75]) = true := by decide +kernel

/-- V45, V47, V49, V54. -/
theorem test_recon_more : goesOn (exec .recon
    (State.withRegs (idle c44) 12 [145, 0, 0, 100, 54, 0, 255, 130, 34, 0, 255, 120])) (fun t =>
    regsFrom t 0 [0, 0, 184, 85, 255, 135, 0, 104, 1, 0, 237, 102]) = true := by decide +kernel

/-- P2 step 3, on registers: luma, chroma lanes and the two slots. -/
theorem test_fwdw : goesOn (exec .fwdw (State.withRegs (idle c22) 0 [255, 0, 0, 255, 0, 255, 0, 255, 0, 0, 255, 255]))
    (fun t => regsFrom t 12 [81, 144, 40, 235, 90, 54, 239, 128, 239, 34, 110, 128] && t.reg 24 == some 127 &&
      t.reg 28 == some 127 && t.reg 25 == none) = true := by decide +kernel

/-- V57. -/
theorem test_invw : goesOn (exec .invw (State.withRegs (State.withRegs (idle c44) 12 [81, 144, 40, 235]) 24
    [127, 100, 140, 90, 127, 160, 110, 200])) (fun t =>
    regsFrom t 0 [74, 173, 12, 255, 77, 143, 34, 243, 74, 119, 38, 227] &&
    regsFrom t 16 [127, 113, 133, 114, 127, 143, 118, 149]) = true := by decide +kernel

/-- R104: an invalid `Y` register leaves `CB`, `CR` unchanged. -/
theorem test_invw_invalid : goesOn (exec .invw (State.withRegs (idle c44) 13 (List.range 19))) (fun t =>
    errorIs (State.withRegs (idle c44) 13 (List.range 19)) t 0x00000041 0x29000000) = true := by decide +kernel

/-! ## Block and plane commands -/

/-- The start of P2: red, green, blue, white. -/
def p2 : State :=
  { idle c22 with planes := { Planes.blank with
      pr := samples [255, 0, 0, 255]
      pg := samples [0, 255, 0, 255]
      pb := samples [0, 0, 255, 255] } }

theorem test_fwdblk : goesOn (exec (.fwdblk 0 0) p2) (fun t =>
    planeIs t .py [81, 144, 40, 235] && planeIs t .pcb [127] && planeIs t .pcr [127] &&
    t.reg 15 == some 0xEB && t.reg 24 == some 0x7F && t.reg 25 == none && t.responses == []) = true := by
  decide +kernel

/-- V93. -/
theorem test_fwdblk_outside : goesOn (exec (.fwdblk 2 0) (idle c44)) (fun t =>
    errorIs (idle c44) t 0x00000031 0x30002000) = true := by decide +kernel

/-- P2 step 6: every neighbour clamped, and all 32 registers valid. -/
theorem test_invblk : goesOn (exec (.invblk 0 0) { idle c22 with planes := { Planes.blank with
      py := samples [81, 144, 40, 235], pcb := samples [127], pcr := samples [127] } }) (fun t =>
    planeIs t .pr [74, 147, 26, 253] && planeIs t .pg [77, 150, 29, 255] && planeIs t .pb [74, 147, 26, 253] &&
    csrWord t .wvalid == 0xFFFFFFFF) = true := by decide +kernel

theorem test_invblk_outside : goesOn (exec (.invblk 0 1) (idle c22)) (fun t =>
    errorIs (idle c22) t 0x00000031 0x31000001) = true := by decide +kernel

/-- The start of P3. -/
def p3 : State :=
  { idle c44 with planes := { Planes.blank with
      pr := samples [255, 255, 0, 0, 255, 200, 0, 0, 0, 0, 16, 128, 0, 0, 128, 255],
      pg := samples [0, 0, 255, 255, 0, 100, 255, 255, 0, 0, 128, 128, 0, 0, 128, 255],
      pb := samples [0, 0, 0, 0, 0, 50, 0, 0, 255, 255, 240, 128, 255, 255, 128, 255] } }

/-- P3 step 1. -/
theorem test_fwdpln : goesOn (exec .fwdpln p3) (fun t =>
    planeIs t .py [81, 81, 144, 144, 81, 122, 144, 144, 40, 40, 108, 126, 40, 40, 126, 235] &&
    planeIs t .pcb [90, 54, 239, 144] && planeIs t .pcr [223, 34, 110, 113] && csrWord t .wvalid == 0 &&
    t.planes.pr == p3.planes.pr) = true := by decide +kernel

/-- V96: discarded while halted. -/
theorem test_fwdpln_halted : goesOn (exec .fwdpln { p3 with err := some ⟨.badBlock, 0x30002000⟩ }) (fun t =>
    t == { p3 with err := some ⟨.badBlock, 0x30002000⟩ }) = true := by decide +kernel

/-- P3 step 3: interior, clamped column, clamped row, both. -/
theorem test_invpln : goesOn (exec .invpln { idle c44 with planes := { Planes.blank with
      py := samples [81, 81, 144, 144, 81, 122, 144, 144, 40, 40, 108, 126, 40, 40, 126, 235],
      pcb := samples [90, 54, 239, 144], pcr := samples [223, 34, 110, 113] } }) (fun t =>
    planeIs t .pr [227, 76, 0, 0, 136, 111, 61, 61, 0, 1, 83, 104, 0, 1, 104, 231] &&
    planeIs t .pg [13, 98, 254, 254, 31, 129, 205, 205, 0, 17, 113, 134, 0, 17, 134, 255] &&
    planeIs t .pb [0, 0, 0, 0, 148, 129, 91, 91, 252, 155, 139, 160, 252, 155, 160, 255] &&
    csrWord t .wvalid == 0) = true := by decide +kernel

/-- P5: a raster that is not square, one block row. -/
theorem test_invpln_p5 : goesOn (exec .invpln { idle c26 with planes := { Planes.blank with
      py := samples (List.replicate 12 126), pcb := samples [100, 140, 200], pcr := samples [90, 128, 160] } })
    (fun t => planeIs t .pr [67, 98, 128, 154, 179, 179, 67, 98, 128, 154, 179, 179] &&
      planeIs t .pg [170, 147, 123, 99, 74, 74, 170, 147, 123, 99, 74, 74] &&
      planeIs t .pb [72, 112, 152, 213, 255, 255, 72, 112, 152, 213, 255, 255]) = true := by decide +kernel

/-! ## The step -/

/-- V91 through the step, and the word the host asks about run as the first command after reset. -/
theorem test_step_illegal :
    goesOn (step (State.reset.withFetchWord 32 0x20000001)) (fun t =>
      errorIs State.reset t 0x00000011 0x20000001) = true ∧
    goesOn (step (State.reset.withFetchWord 32 0x01000007)) (fun t =>
      t.reg 0 == some 7 && t.inputs == []) = true := by decide +kernel

/-- V97: an illegal word is discarded while halted. -/
theorem test_step_halted : goesOn (step (halted.sendNext 0xFFFFFFFF)) (fun t => t == halted) = true := by
  decide +kernel

/-- R139, R150: reset leaves the halted state, invalidates the registers and keeps the planes. -/
theorem test_step_reset : goesOn (step { p3 with err := some ⟨.uninitReg, 0x02000000⟩, inputs := [.reset] })
    (fun t => t == p3) = true := by decide +kernel

/-- R150, 93 U5: of the writes of `STYCC 1, 2` only the one to `PY[17]` was made. -/
theorem test_step_abandoned :
    goesOn (step { full c46 with inputs := [.commandThenReset 0x12001002 [(.py, 17), (.pr, 3)]] }) (fun t =>
      t == { idle c46 with planes := { Planes.blank with py := [(17, 13)] } }) = true := by decide +kernel

/-- R153: the host writes the last location of `PCB`; 93 U2: there is none after it. -/
theorem test_step_host_write :
    goesOn (step { idle c46 with inputs := [.writePlane .pcb 5 9] }) (fun t => t.planes.pcb == [(5, 9)]) = true ∧
    step { idle c46 with inputs := [.writePlane .pcb 6 9] } = .fault .hostPlaneAddress := by
  refine ⟨by decide +kernel, rfl⟩

/-- R5: an odd raster is refused. -/
theorem test_step_refuses_odd_raster : step (idle (Config.ref601K8 3 4)) = .refused .illFormedConfig := rfl

/-! ## Witnesses: for every statement with hypotheses, states and operands that meet all of them, each clause at an end
of its range -/

/-- A next state exists; which one does not matter. -/
theorem next_of {o : Host.Outcome State Fault Refusal} (h : goesOn o (fun _ => true) = true) : ∃ t, o = .next t :=
  ⟨_, next_after State.reset h⟩

/-- The next state has the property that was evaluated. -/
theorem next_with {o : Host.Outcome State Fault Refusal} {p : State → Bool} (h : goesOn o p = true) :
    ∃ t, o = .next t ∧ p t = true := by
  cases o with
  | next t => exact ⟨t, rfl, h⟩
  | fault f => simp [goesOn] at h
  | refused r => simp [goesOn] at h

theorem witness_EncodedCommandDecodesBack : (Instr.fwdblk 4095 4095).wf = true ∧ (Instr.rdcsr 255).wf = true := by
  decide

theorem witness_DecodedWordIsItsEncoding : decode 0x31FFF000 = .ok (.invblk 4095 0) := by decide

theorem witness_DecodeMatchesTheOpcodeMap :
    decode 0x01001FFF = .ok (.wrw 31 255) ∧ (⟨"WRW", 0x01000000, 0xFFFFE000⟩ : OpcodeRow) ∈ opcodeTable ∧
      (0x01001FFF : Word) &&& 0xFFFFE000 = 0x01000000 := by decide

theorem witness_StoredBytesDecodeLittleEndian :
    (3 : Nat) < 4 ∧ decode 0x30FFFFFF = .ok (.fwdblk 4095 4095) ∧ decode 0xFFFFFFFF = .error .undefinedOpcode := by
  decide

theorem witness_StepRunsTheDecodedCommand :
    c46.wf = true ∧ ((idle c46).sendNext 0x10001002).inputs = .command 0x10001002 :: [] ∧
      decode 0x10001002 = .ok (.ldrgb 1 2) := by decide

theorem witness_IllegalWordTakesIllegalCmd :
    c46.wf = true ∧ ((idle c46).sendNext 0x00000001).err = none ∧
      ((idle c46).sendNext 0x00000001).inputs = .command 0x00000001 :: [] ∧
      (∀ row ∈ opcodeTable, (0x00000001 : Word) &&& row.mask ≠ row.pattern) ∧
      ∀ row ∈ opcodeTable, (0xFFFFFFFF : Word) &&& row.mask ≠ row.pattern := by
  refine ⟨by decide, rfl, rfl, by decide, by decide⟩

theorem witness_HostMovesBetweenCommands :
    c46.wf = true ∧ (idle c46).inputs = [] ∧ 23 < planeSize c46 .pr ∧ ¬24 < planeSize c46 .pr ∧
      5 < planeSize c46 .pcb ∧ ¬6 < planeSize c46 .pcb := by decide

theorem witness_ResetLeavesTheEngineIdle :
    ({ halted with inputs := [.reset] } : State).cfg.wf = true ∧
      ({ halted with inputs := [.reset] } : State).inputs = .reset :: [] ∧
      State.powerUp c46 numbered.planes [] = State.powerUp c46 numbered.planes [] := by
  refine ⟨by decide, rfl, rfl⟩

theorem witness_AbandonedCommandLandsAnySubset :
    (full c46).cfg.wf = true ∧ ∃ u, runWord 0x12001002 { full c46 with inputs := [] } = .next u :=
  ⟨by decide, next_of (by decide +kernel)⟩

theorem witness_ExactlyIllFormedConfigurationsAreRefused :
    (step (idle (Config.ref601K8 8194 2)) = .refused .illFormedConfig) ∧
      ∃ t, step (idle (Config.ref601K8 8192 2)) = .next t := ⟨rfl, next_of (by decide +kernel)⟩

theorem witness_EveryStepKeepsTheInvariant :
    (p3.sendNext 0x40000000).Inv ∧ ∃ t, step (p3.sendNext 0x40000000) = .next t :=
  ⟨⟨by decide, by decide +kernel⟩, next_of (by decide +kernel)⟩

theorem witness_ResetMeetsTheInvariant : c46.wf = true ∧ numbered.planes.wf c46 = true := by decide +kernel

theorem witness_NoStepChangesAParameter : ∃ t, step (p2.sendNext 0x30000000) = .next t := next_of (by decide +kernel)

theorem witness_ValidBitsFallOnlyByResetOrPlaneCommand :
    (full c44).reg 31 ≠ none ∧ ∃ t, step ((full c44).sendNext 0x40000000) = .next t ∧ (t.reg 31 == none) = true :=
  ⟨by decide +kernel, next_with (p := fun t => t.reg 31 == none) (by decide +kernel)⟩

theorem witness_StepErrorRecordsTheWordItself :
    (idle c44).err = none ∧ ∃ t, step ((idle c44).sendNext 0x02000000) = .next t ∧ t.err.isSome = true :=
  ⟨rfl, next_with (p := fun t => t.err.isSome) (by decide +kernel)⟩

theorem witness_HaltedEngineDiscardsWords :
    halted.cfg.wf = true ∧ halted.err ≠ none ∧
      (decode 0x0300003F = .ok (.rdcsr 0x3F) ∧ csrOfNumber 0x3F = some .version) ∧
      ∀ csr c, decode 0x03000005 = .ok (.rdcsr csr) → csrOfNumber csr ≠ some c := by
  refine ⟨by decide, by decide, by decide, fun csr c h => ?_⟩
  rw [show decode 0x03000005 = .ok (.rdcsr 5) by decide] at h
  cases h
  simp [csrOfNumber]

theorem witness_OnlyResetClearsAnError :
    halted.err = some ⟨.badBlock, 0x30002000⟩ ∧ (∃ t, step (halted.sendNext 0x00000000) = .next t) ∧
      ∃ t, step { halted with inputs := [.reset] } = .next t :=
  ⟨rfl, next_of (by decide +kernel), next_of (by decide +kernel)⟩

theorem witness_HaltedRunOnlyAddsResponses :
    halted.err ≠ none ∧ (∀ m ∈ ((halted.sendNext 0x03000001).sendNext 0x02000000).inputs, ∃ w, m = .command w) ∧
      ∃ t, Host.Core.run Sys2Proof.core 2 ((halted.sendNext 0x03000001).sendNext 0x02000000) = .next t := by
  refine ⟨by decide, fun m hm => ?_, next_of (by decide +kernel)⟩
  simp only [State.sendNext, halted, idle, State.powerUp, List.mem_cons, List.not_mem_nil, or_false] at hm
  rcases hm with rfl | rfl <;> exact ⟨_, rfl⟩

theorem witness_BlockOutsideRasterTakesBadBlock :
    blockOf (.stycc 2 0) = some (2, 0) ∧ blockOf (.ldycc 0 3) = some (0, 3) ∧ (idle c46).err = none ∧
      c46.brMax < 2 ∧ c46.bcMax < 3 ∧
      ∃ t, exec (.stycc 2 0) (idle c46) = .next t ∧ (t.err == some ⟨.badBlock, 0x12002000⟩) = true :=
  ⟨rfl, rfl, rfl, by decide, by decide,
    next_with (p := fun t => t.err == some ⟨.badBlock, 0x12002000⟩) (by decide +kernel)⟩

theorem witness_InvalidSourceTakesUninitReg :
    (State.withRegs (idle c46) 12 [1, 2, 3, 4]).err = none ∧ positionLegal c46 (.stycc 1 2) ∧
      bankReg .crs 0 ∈ sources (.stycc 1 2) ∧ (State.withRegs (idle c46) 12 [1, 2, 3, 4]).reg (bankReg .crs 0) = none ∧
      ∃ t, exec .ds (idle c46) = .next t ∧ (t.err == some ⟨.uninitReg, 0x22000000⟩) = true := by
  refine ⟨rfl, ?_, by decide, by decide +kernel,
    next_with (p := fun t => t.err == some ⟨.uninitReg, 0x22000000⟩) (by decide +kernel)⟩
  intro br bc h
  cases h
  decide

theorem witness_RdcsrRespondsOrTakesBadCsr :
    0x3F ∈ definedCsrNumbers ∧ 0x40 ∉ definedCsrNumbers ∧ 0x05 ∉ definedCsrNumbers ∧ (idle c44).err = none ∧
      halted.err ≠ none := by decide

/-- One command of every row of the opcode table. -/
def oneOfEach : List Instr :=
  [.nop, .wrw 31 255, .rdw 31, .rdcsr 0x3F, .ldrgb 1 2, .ldycc 1 2, .stycc 1 2, .strgb 1 2, .luma, .chroma] ++
  [.ds, .us, .recon, .fwdw, .invw, .fwdblk 1 2, .invblk 1 2, .fwdpln, .invpln]

theorem mem_oneOfEach {i : Instr} (h : i ∈ oneOfEach) :
    i = .nop ∨ i = .wrw 31 255 ∨ i = .rdw 31 ∨ i = .rdcsr 0x3F ∨ i = .ldrgb 1 2 ∨ i = .ldycc 1 2 ∨ i = .stycc 1 2 ∨
      i = .strgb 1 2 ∨ i = .luma ∨ i = .chroma ∨ i = .ds ∨ i = .us ∨ i = .recon ∨ i = .fwdw ∨ i = .invw ∨
      i = .fwdblk 1 2 ∨ i = .invblk 1 2 ∨ i = .fwdpln ∨ i = .invpln := by
  simpa [oneOfEach] using h

/-- Every command of the table, on the last block of the raster: its position and its CSR number are legal and its
sources are valid. -/
theorem witness_LegalCommandsComplete : (full c46).err = none ∧ ∀ i ∈ oneOfEach,
    positionLegal (full c46).cfg i ∧ csrLegal i ∧ ∀ n ∈ sources i, (full c46).reg n ≠ none := by
  refine ⟨rfl, fun i hi => ?_⟩
  have valid : ∀ n : Fin 32, (full c46).reg n ≠ none := by decide +kernel
  refine ⟨?_, ?_, fun n _ => valid n⟩
  · rcases mem_oneOfEach hi with rfl | rfl | rfl | rfl | rfl | rfl | rfl | rfl | rfl | rfl | rfl | rfl | rfl | rfl |
      rfl | rfl | rfl | rfl | rfl <;> intro br bc h <;> cases h <;> decide +kernel
  · rcases mem_oneOfEach hi with rfl | rfl | rfl | rfl | rfl | rfl | rfl | rfl | rfl | rfl | rfl | rfl | rfl | rfl |
      rfl | rfl | rfl | rfl | rfl <;> intro csr h <;> cases h
    decide

/-- Every command of the table gives a next state there: the hypothesis of the statements about what a command writes,
stores, keeps and sends (CommandsWriteOnlyTheirRegisters, CommandsStoreOnlyTheirLocations,
EachDirectionKeepsItsSourcePlanes, OnlyRdwAndRdcsrRespond). -/
theorem witness_CommandsWriteOnlyTheirRegisters : ∀ i ∈ oneOfEach, ∃ t, exec i (full c46) = .next t := by
  intro i hi
  have h : (oneOfEach.all fun i => goesOn (exec i (full c46)) (fun _ => true)) = true := by decide +kernel
  exact next_of (List.all_eq_true.1 h i hi)

theorem witness_CommandsStoreOnlyTheirLocations :
    (∃ t, exec (.fwdblk 1 2) (full c46) = .next t) ∧ (Plane.py, 15) ∉ storedLocations c46 (.fwdblk 1 2) ∧
      (Plane.pcb, 4) ∉ storedLocations c46 (.fwdblk 1 2) := ⟨next_of (by decide +kernel), by decide, by decide⟩

theorem witness_EachDirectionKeepsItsSourcePlanes :
    (∃ t, exec .fwdpln (full c46) = .next t) ∧ (∃ t, exec .invpln (full c46) = .next t) ∧
      (∀ br bc, Instr.fwdpln ≠ .strgb br bc ∧ Instr.fwdpln ≠ .invblk br bc) ∧
      ∀ br bc, Instr.invpln ≠ .stycc br bc ∧ Instr.invpln ≠ .fwdblk br bc :=
  ⟨next_of (by decide +kernel), next_of (by decide +kernel), fun _ _ => ⟨nofun, nofun⟩, fun _ _ => ⟨nofun, nofun⟩⟩

theorem witness_OnlyRdwAndRdcsrRespond : ∃ t, exec (.rdw 31) (full c46) = .next t ∧ (t.responses == [31]) = true :=
  next_with (p := fun t => t.responses == [31]) (by decide +kernel)

theorem witness_WrwWritesOneRegister : (idle c44).err = none := rfl

theorem witness_RdwRespondsWithTheRegister :
    (full c44).err = none ∧ (full c44).reg 31 = some 31 ∧ (idle c44).err = none ∧ (idle c44).reg 31 = none := by
  decide +kernel

theorem witness_StatusAndErrcmdReadAndChange :
    (idle c44).err = none ∧ halted.err = some ⟨.badBlock, 0x30002000⟩ ∧
      ∃ t, step ((idle c44).sendNext 0x02000000) = .next t := ⟨rfl, rfl, next_of (by decide +kernel)⟩

theorem witness_HardwiredCsrsReadTheParameters : (idle (Config.ref601K8 8192 8192)).cfg.wf = true := by decide

/-- LdrgbLoadsTheBlock and LdyccLoadsTheBlockAndItsNeighbours: the last block, and one past it either way; the address
of lane 3. -/
theorem witness_LdrgbLoadsTheBlock :
    (full c46).err = none ∧ 1 ≤ c46.brMax ∧ 2 ≤ c46.bcMax ∧ c46.brMax < 2 ∧ c46.bcMax < 3 ∧
      23 = (2 * 1 + (3 : Fin 4).val / 2) * c46.cols + (2 * 2 + (3 : Fin 4).val % 2) := by decide

theorem witness_LdyccLoadsTheBlockAndItsNeighbours :
    (full c46).err = none ∧ 1 ≤ c46.brMax ∧ 2 ≤ c46.bcMax ∧ c46.brMax < 2 ∧ c46.bcMax < 3 ∧
      1 = min (1 + 1) c46.brMax ∧ 2 = min (2 + 1) c46.bcMax ∧ 1 = min (0 + 1) c46.bcMax := by decide

theorem witness_StyccStoresTheBlock :
    (full c46).cfg.wf = true ∧ (full c46).err = none ∧ 1 ≤ c46.brMax ∧ 2 ≤ c46.bcMax ∧
      (∀ q, (full c46).reg (bankReg .y q) = some ((fun q : Fin 4 => BitVec.ofNat 8 (12 + q.val)) q)) ∧
      (full c46).reg (bankReg .cbs 0) = some 24 ∧ (full c46).reg (bankReg .crs 0) = some 28 ∧
      (idle c46).err = none ∧ bankReg .crs 0 ∈ bankRegs .y ++ [bankReg .cbs 0, bankReg .crs 0] ∧
      (idle c46).reg (bankReg .crs 0) = none ∧ c46.brMax < 2 ∧ c46.bcMax < 3 := by decide +kernel

/-- Three banks hold four lanes each, and a state in which one of them is invalid: the hypotheses of
StrgbStoresTheBlock, LumaComputesTheFourLanes, ChromaComputesTheFourLanes. -/
theorem witness_StrgbStoresTheBlock :
    (full c46).cfg.wf = true ∧ (full c46).err = none ∧ 1 ≤ c46.brMax ∧ 2 ≤ c46.bcMax ∧
      (∀ q, (full c46).reg (bankReg .r q) = some ((fun q : Fin 4 => BitVec.ofNat 8 q.val) q)) ∧
      (∀ q, (full c46).reg (bankReg .g q) = some ((fun q : Fin 4 => BitVec.ofNat 8 (4 + q.val)) q)) ∧
      (∀ q, (full c46).reg (bankReg .b q) = some ((fun q : Fin 4 => BitVec.ofNat 8 (8 + q.val)) q)) ∧
      (idle c46).err = none ∧ bankReg .b 3 ∈ bankRegs .r ++ bankRegs .g ++ bankRegs .b ∧
      (idle c46).reg (bankReg .b 3) = none ∧ c46.brMax < 2 ∧ c46.bcMax < 3 := by decide +kernel

theorem witness_LumaComputesTheFourLanes :
    colours.err = none ∧
      (∀ q, colours.reg (bankReg .r q) = some (laneOf ⟨255, 0, 0, 200⟩ q)) ∧
      (∀ q, colours.reg (bankReg .g q) = some (laneOf ⟨0, 255, 0, 100⟩ q)) ∧
      (∀ q, colours.reg (bankReg .b q) = some (laneOf ⟨0, 0, 255, 50⟩ q)) ∧
      (idle c44).err = none ∧ bankReg .r 0 ∈ bankRegs .r ++ bankRegs .g ++ bankRegs .b ∧
      (idle c44).reg (bankReg .r 0) = none := by decide +kernel

theorem witness_ChromaComputesTheFourLanes :
    colours.err = none ∧
      (∀ q, colours.reg (bankReg .r q) = some (laneOf ⟨255, 0, 0, 200⟩ q)) ∧
      (∀ q, colours.reg (bankReg .g q) = some (laneOf ⟨0, 255, 0, 100⟩ q)) ∧
      (∀ q, colours.reg (bankReg .b q) = some (laneOf ⟨0, 0, 255, 50⟩ q)) ∧
      (idle c44).err = none ∧ bankReg .g 3 ∈ bankRegs .r ++ bankRegs .g ++ bankRegs .b ∧
      (idle c44).reg (bankReg .g 3) = none := by decide +kernel

theorem witness_DsAveragesTheFourLanes :
    (full c44).err = none ∧ (∀ q, (full c44).reg (bankReg .cb q) = some (laneOf ⟨16, 17, 18, 19⟩ q)) ∧
      (∀ q, (full c44).reg (bankReg .cr q) = some (laneOf ⟨20, 21, 22, 23⟩ q)) ∧
      (idle c44).err = none ∧ bankReg .cr 3 ∈ bankRegs .cb ++ bankRegs .cr ∧
      (idle c44).reg (bankReg .cr 3) = none := by decide +kernel

theorem witness_UsInterpolatesTheFourSlots :
    (full c44).err = none ∧ (∀ q, (full c44).reg (bankReg .cbs q) = some (laneOf ⟨24, 25, 26, 27⟩ q)) ∧
      (∀ q, (full c44).reg (bankReg .crs q) = some (laneOf ⟨28, 29, 30, 31⟩ q)) ∧
      (idle c44).err = none ∧ bankReg .crs 3 ∈ bankRegs .cbs ++ bankRegs .crs ∧
      (idle c44).reg (bankReg .crs 3) = none := by decide +kernel

theorem witness_ReconComputesTheFourLanes :
    (full c44).err = none ∧ (∀ q, (full c44).reg (bankReg .y q) = some (laneOf ⟨12, 13, 14, 15⟩ q)) ∧
      (∀ q, (full c44).reg (bankReg .cb q) = some (laneOf ⟨16, 17, 18, 19⟩ q)) ∧
      (∀ q, (full c44).reg (bankReg .cr q) = some (laneOf ⟨20, 21, 22, 23⟩ q)) ∧
      (idle c44).err = none ∧ bankReg .cr 3 ∈ bankRegs .y ++ bankRegs .cb ++ bankRegs .cr ∧
      (idle c44).reg (bankReg .cr 3) = none := by decide +kernel

theorem witness_FwdwEqualsItsThreeStages :
    colours.err = none ∧ (∀ n ∈ bankRegs .r ++ bankRegs .g ++ bankRegs .b, colours.reg n ≠ none) ∧
      (idle c44).err = none ∧ bankReg .b 3 ∈ bankRegs .r ++ bankRegs .g ++ bankRegs .b ∧
      (idle c44).reg (bankReg .b 3) = none := by decide +kernel

theorem witness_InvwEqualsItsTwoStages :
    (full c44).err = none ∧ (∀ n ∈ bankRegs .y ++ bankRegs .cbs ++ bankRegs .crs, (full c44).reg n ≠ none) ∧
      (idle c44).err = none ∧ bankReg .y 0 ∈ bankRegs .y ++ bankRegs .cbs ++ bankRegs .crs ∧
      (idle c44).reg (bankReg .y 0) = none := by decide +kernel

/-- The second state differs in a destination register, a plane and what was sent. -/
theorem witness_DatapathDependsOnlyOnItsSources :
    Instr.luma ∈ [Instr.luma, .chroma, .ds, .us, .recon, .fwdw, .invw] ∧ colours.cfg = colours.cfg ∧
      colours.err = none ∧ (∀ n ∈ sources .luma, colours.reg n ≠ none ∧
        ((colours.writeReg 12 9).poke .pr 0 7).reg n = colours.reg n) ∧
      (∃ t, exec .luma colours = .next t) ∧
      ∃ t, exec .luma ((colours.writeReg 12 9).poke .pr 0 7) = .next t :=
  ⟨by decide, rfl, rfl, by decide +kernel, next_of (by decide +kernel), next_of (by decide +kernel)⟩

theorem witness_ShiftTruncatesAndRndRounds : 1 ≤ { c44 with k := 1 }.k ∧ 1 ≤ { c44 with k := 16 }.k := by decide

/-- The three clauses of SaturationAtBothBounds at the ends of their ranges. -/
theorem witness_SaturationAtBothBounds : (-1 : Int) < 0 ∧ 256 * (2 : Int) ^ 16 ≤ 256 * 2 ^ 16 := by decide

/-- The six formulas on the pixels of V16 (yellow) and V44, written out by hand: each pairs its terms, whose sums are
those of 95_test_vectors.md, with its own function; and the largest coefficients and shift are legal. -/
theorem witness_IntermediatesFitThirtyTwoBits :
    Config.wf { c44 with k := 16, c21 := 2 ^ 20 - 1, c22 := 2 ^ 20 - 1, c23 := 0 } = true ∧ c44.wf = true ∧
      ([16 * 2 ^ 8, 66 * 255, 129 * 255, 25 * 0] : List Int).sum = 53821 ∧ lumaPx c44 255 255 0 = 210 ∧
      ([128 * 2 ^ 8, -(38 * 255), -(74 * 255), 112 * 0] : List Int).sum = 4208 ∧ cbPx c44 255 255 0 = 16 ∧
      ([128 * 2 ^ 8, 112 * 255, -(94 * 255), -(18 * 0)] : List Int).sum = 37358 ∧ crPx c44 255 255 0 = 145 ∧
      ([298 * 65, 409 * 112, 2 ^ 7] : List Int).sum = 65306 ∧ reconRed c44 81 240 = 255 ∧
      ([298 * 65, -(208 * 112), -(100 * (-38)), 2 ^ 7] : List Int).sum = 2 ∧ reconGreen c44 81 90 240 = 0 ∧
      ([298 * 65, 516 * (-38), 2 ^ 7] : List Int).sum = -110 ∧ reconBlue c44 81 90 = 0 ∧
      [298 * 65, -(208 * 112)].Sublist ([298 * 65, -(208 * 112), -(100 * (-38)), 2 ^ 7] : List Int) := by
  decide

theorem witness_BlackAndWhitePoints :
    (State.withRegs (idle c44) 0 (List.replicate 12 0)).err = none ∧
      ∀ n ∈ bankRegs .r ++ bankRegs .g ++ bankRegs .b,
        (State.withRegs (idle c44) 0 (List.replicate 12 0)).reg n = some 0 := by decide +kernel

theorem witness_UniformChromaUpsamplesToItself :
    (idle c46).cfg.wf = true ∧ (idle c46).err = none ∧ 1 ≤ c46.brMax ∧ 2 ≤ c46.bcMax ∧
      ∀ a, a < c46.nchr → (idle c46).peek .pcb a = 0 ∧ (idle c46).peek .pcr a = 0 :=
  ⟨by decide, rfl, by decide, by decide, fun _ _ => ⟨rfl, rfl⟩⟩

theorem witness_GeneratedAddressesAreInRange :
    (Config.ref601K8 8192 8192).wf = true ∧ 4095 ≤ (Config.ref601K8 8192 8192).brMax ∧
      4095 ≤ (Config.ref601K8 8192 8192).bcMax := by decide

theorem witness_BlocksPartitionThePlanes :
    c46.wf = true ∧ 23 < c46.rows * c46.cols ∧ 5 < (c46.rows / 2) * (c46.cols / 2) := by decide

/-- FwdblkEqualsItsThreeCommands and InvblkEqualsItsThreeCommands: the last block, and one past it either way. -/
theorem witness_FwdblkEqualsItsThreeCommands :
    (idle c46).err = none ∧ 1 ≤ c46.brMax ∧ 2 ≤ c46.bcMax ∧ c46.brMax < 2 ∧ c46.bcMax < 3 := by decide

theorem witness_InvblkEqualsItsThreeCommands :
    numbered.err = none ∧ 1 ≤ c46.brMax ∧ 2 ≤ c46.bcMax ∧ c46.brMax < 2 ∧ c46.bcMax < 3 := by decide

theorem witness_PlaneCommandsEqualTheirBlockCommands :
    (idle c46).err = none ∧ [(0, 0), (0, 1), (0, 2), (1, 0), (1, 1), (1, 2)] =
      (List.range (c46.brMax + 1)).flatMap fun br => (List.range (c46.bcMax + 1)).map fun bc => (br, bc) := by decide

/-- The last pixel and the last block of the raster. -/
theorem witness_FwdplnConvertsTheWholeRaster :
    numbered.cfg.wf = true ∧ numbered.err = none ∧ 3 < c46.rows ∧ 5 < c46.cols ∧ 23 = 3 * c46.cols + 5 ∧
      1 < c46.rows / 2 ∧ 2 < c46.cols / 2 := by decide

/-- The last pixel, whose three neighbours are clamped, and its upsampled chroma: the own sample's in lane 0, and the
averages of four equal samples elsewhere. -/
theorem witness_InvplnConvertsTheWholeRaster :
    numbered.cfg.wf = true ∧ numbered.err = none ∧ 1 < c46.rows / 2 ∧ 2 < c46.cols / 2 ∧
      23 = (2 * 1 + 1) * c46.cols + (2 * 2 + 1) ∧
      min (1 + 1) (c46.rows / 2 - 1) * (c46.cols / 2) + min (2 + 1) (c46.cols / 2 - 1) = 5 ∧
      numbered.peek .pcb 5 = 206 ∧ (206 + 206 + 206 + 206) / 4 = 206 := by decide +kernel

theorem witness_PlaneCommandsAreOrderIndependent :
    c46.wf = true ∧ numbered.err = none ∧
      [(1, 2), (0, 0), (1, 1), (0, 2), (1, 0), (0, 1)].Perm (rasterBlocks c46) := by decide

/-- Two states that differ in every window register, and two that differ in a plane the command writes. -/
theorem witness_PlanesDoNotDependOnTheWindow :
    (idle c46).cfg = (full c46).cfg ∧ (idle c46).planes = (full c46).planes ∧ (idle c46).err = none ∧
      (full c46).err = none ∧ (∃ t, exec (.invblk 1 2) (idle c46) = .next t) ∧
      (∃ t, exec (.invblk 1 2) (full c46) = .next t) ∧ c46.wf = true ∧ positionLegal c46 (.invblk 1 2) ∧
      (∀ p ∈ [Plane.py, .pcb, .pcr], ∀ a, ((full c46).poke .pr 23 9).peek p a = (idle c46).peek p a) ∧
      (∃ t, exec (.invblk 1 2) ((full c46).poke .pr 23 9) = .next t) ∧
      (Plane.pr, 23) ∈ storedLocations c46 (.invblk 1 2) ∧ halted.err ≠ none := by
  refine ⟨rfl, rfl, rfl, rfl, next_of (by decide +kernel), next_of (by decide +kernel), by decide, ?_, ?_,
    next_of (by decide +kernel), by decide, by decide⟩
  · intro br bc h
    cases h
    decide
  · intro p hp a
    simp only [List.mem_cons, List.not_mem_nil, or_false] at hp
    rcases hp with rfl | rfl | rfl <;> rfl

/-- The grey image of V31 on the raster of 4 by 6. -/
def grey : State :=
  { idle c46 with planes := { Planes.blank with
      pr := samples (List.replicate 24 128)
      pg := samples (List.replicate 24 128)
      pb := samples (List.replicate 24 128) } }

theorem witness_SolidGreyRoundTripIsExact :
    grey.cfg = Config.ref601K8 4 6 ∧ grey.cfg.wf = true ∧ grey.err = none ∧
      ∀ a, a < 4 * 6 → grey.peek .pr a = 128 ∧ grey.peek .pg a = 128 ∧ grey.peek .pb a = 128 := by
  refine ⟨rfl, by decide, rfl, fun a ha => ?_⟩
  have h : ∀ a : Fin 24, grey.peek .pr a.val = 128 ∧ grey.peek .pg a.val = 128 ∧ grey.peek .pb a.val = 128 := by
    decide +kernel
  exact h ⟨a, ha⟩

end Sys2Proof.Tests
end

section
/-! The statements of the scope (00_scope.md): what a step refuses and keeps, and which commands respond. -/

namespace Sys2Proof.Machine

/-! ## The step -/

/-- Settles O6: a legal configuration serves the move, and the move is the word that decodes. -/
theorem stepRunsTheDecodedCommand : Obligations.StepRunsTheDecodedCommand := by
  intro s w rest i hwf hin hdec
  calc step s = runWord w { s with inputs := rest } := step_move hwf hin
    _ = exec i { s with inputs := rest } := runWord_of_decode hdec _

/-- A move of the host is answered by a next state or by the fault of a plane write. -/
theorem applyMove_ne_refused (m : HostMove) (s : State) (r : Refusal) : applyMove m s ≠ .refused r := by
  cases m with
  | command w =>
    obtain ⟨t, ht, -⟩ := runWord_next w s
    simp [applyMove, ht]
  | reset => simp [applyMove]
  | commandThenReset w landed =>
    obtain ⟨t, ht, -⟩ := runWord_next w s
    simp [applyMove, runWordThenReset, ht]
  | writePlane p a v =>
    by_cases ha : a < planeSize s.cfg p <;> simp [applyMove, hostWrite, ha]

/-- A step refuses for one reason only: its parameters. -/
theorem step_refused_iff (s : State) : step s = .refused .illFormedConfig ↔ ¬s.cfg.wf = true := by
  constructor
  · intro h hwf
    rcases hi : s.inputs with _ | ⟨m, rest⟩
    · rw [step_idle hwf hi] at h
      cases h
    · rw [step_move hwf hi] at h
      exact applyMove_ne_refused m _ _ h
  · intro h
    exact step_refused (by simpa using h)

/-- Settles O11: a step refuses exactly when `Config.wf` fails, which is a bound of R5 or R7 broken. -/
theorem exactlyIllFormedConfigurationsAreRefused : Obligations.ExactlyIllFormedConfigurationsAreRefused := by
  intro s
  have hcoef : (∀ x ∈ s.cfg.coefficients, x < 2 ^ 20) ↔ ∀ x ∈ s.cfg.coefficients, x ≤ 2 ^ 20 - 1 :=
    forall₂_congr fun x _ => Nat.lt_iff_le_pred (by decide)
  rw [step_refused_iff, wf_config_iff, hcoef]
  rfl

/-! ## Invariants -/

/-- A word at the port keeps the parameters. -/
theorem runWord_cfg {w : Word} {s t : State} (h : runWord w s = .next t) : t.cfg = s.cfg := by
  obtain ⟨u, hu, hcfg, -⟩ := runWord_next w s
  rw [h] at hu
  cases hu
  exact hcfg

/-- Settles O14, by the moves a step can make. -/
theorem noStepChangesAParameter : Obligations.NoStepChangesAParameter := by
  intro s t h
  obtain ⟨-, ⟨-, rfl⟩ | ⟨w, rest, -, hw⟩ | ⟨rest, -, rfl⟩ | ⟨w, landed, rest, u, -, -, rfl⟩ |
    ⟨p, a, v, rest, -, -, rfl⟩⟩ := step_cases h
  · rfl
  · exact runWord_cfg (s := { s with inputs := rest }) hw
  · rfl
  · exact (State.landWrites_spec u landed { s with inputs := rest }).1
  · rfl

theorem State.Inv.resetEngine {s : State} (h : s.Inv) : s.resetEngine.Inv := h.congr rfl rfl

/-- Settles O12, by the moves a step can make.  What an abandoned command has landed keeps the invariant because the
state the command would have ended in meets it too. -/
theorem everyStepKeepsTheInvariant : Obligations.EveryStepKeepsTheInvariant := by
  intro s t hs h
  have hrest (rest : List HostMove) : State.Inv { s with inputs := rest } := hs.congr rfl rfl
  obtain ⟨-, ⟨-, rfl⟩ | ⟨w, rest, -, hw⟩ | ⟨rest, -, rfl⟩ | ⟨w, landed, rest, u, -, hw, rfl⟩ |
    ⟨p, a, v, rest, -, ha, rfl⟩⟩ := step_cases h
  · exact hs
  · exact runWord_inv w (hrest rest) hw
  · exact (hrest rest).resetEngine
  · have hcfg : s.cfg = u.cfg := (runWord_cfg hw).symm
    exact (landWrites_inv (runWord_inv w (hrest rest) hw) landed (hrest rest) hcfg).resetEngine
  · exact (hrest rest).poke ha

/-! ## Responses -/

/-- Settles O27: a completed body responds by `Completed.responses`, error entry does not respond, and in the halted
state `RDCSR` alone does. -/
theorem onlyRdwAndRdcsrRespond : Obligations.OnlyRdwAndRdcsrRespond := by
  intro i s t h
  obtain ⟨u, hu, -, -, hcase⟩ := exec_next i s
  rw [h] at hu
  cases hu
  rcases hcase with ⟨-, -, hdone⟩ | ⟨-, code, -, rfl⟩ | ⟨-, rfl | ⟨csr, c, hi, -, rfl⟩⟩
  · exact hdone.responses
  · exact .inl rfl
  · exact .inl rfl
  · exact .inr ⟨.inr ⟨csr, hi⟩, _, rfl⟩

end Sys2Proof.Machine
end

section
/-! The statements of the engine state (10_state.md): the registers and their valid bits, the CSRs, the state after
reset. -/

namespace Sys2Proof.Machine

/-! ## The word behind a command (R61 to R67) -/

theorem ofNat_eq_word {w : Word} {n : Nat} (h : n = w.toNat) : BitVec.ofNat 32 n = w := by
  rw [h, BitVec.ofNat_toNat, BitVec.setWidth_eq]

theorem encode_of_decodeN {w : Word} {op : Nat} {i j : Instr} (hop : field w 31 24 = op) (hi : encode i = encodeN op)
    (h : decodeN w i = .ok j) : encode j = w := by
  obtain ⟨hzero, rfl⟩ := (decodeN_ok_iff w i j).1 h
  rw [hi]
  exact ofNat_eq_word (by rw [word_eq_fields w, hop, hzero, Nat.add_zero])

theorem encode_of_decodeB {w : Word} {op : Nat} {mk : Nat → Nat → Instr} {j : Instr} (hop : field w 31 24 = op)
    (hmk : ∀ br bc, encode (mk br bc) = encodeB op br bc) (h : decodeB w mk = .ok j) : encode j = w := by
  rw [(decodeB_ok_iff w mk j).1 h, hmk]
  exact ofNat_eq_word (by rw [word_eq_fields w, hop, field_23_0_block, Nat.add_assoc])

theorem encode_of_decodeW {w : Word} {op : Nat} {mk : Fin 32 → Byte → Instr} {j : Instr} (hop : field w 31 24 = op)
    (hmk : ∀ reg v, encode (mk reg v) = encodeW op reg v) (h : decodeW w mk = .ok j) : encode j = w := by
  obtain ⟨hzero, rfl⟩ := (decodeW_ok_iff w mk j).1 h
  have hbyte : (BitVec.ofNat 8 (field w 7 0)).toNat = field w 7 0 := Nat.mod_eq_of_lt (field_lt w 7 0)
  rw [hmk]
  exact ofNat_eq_word (by rw [word_eq_fields w, hop, field_23_0_reg, hzero, regField_val, hbyte]; omega)

theorem encode_of_decodeR {w : Word} {op : Nat} {mk : Fin 32 → Instr} {j : Instr} (hop : field w 31 24 = op)
    (hmk : ∀ reg, encode (mk reg) = encodeR op reg) (h : decodeR w mk = .ok j) : encode j = w := by
  obtain ⟨⟨hhigh, hlow⟩, rfl⟩ := (decodeR_ok_iff w mk j).1 h
  rw [hmk]
  exact ofNat_eq_word (by rw [word_eq_fields w, hop, field_23_0_reg, hhigh, hlow, regField_val]; omega)

theorem encode_of_decodeC {w : Word} {op : Nat} {mk : Nat → Instr} {j : Instr} (hop : field w 31 24 = op)
    (hmk : ∀ csr, encode (mk csr) = encodeC op csr) (h : decodeC w mk = .ok j) : encode j = w := by
  obtain ⟨hzero, rfl⟩ := (decodeC_ok_iff w mk j).1 h
  rw [hmk]
  exact ofNat_eq_word (by rw [word_eq_fields w, hop, field_23_0_csr, hzero]; omega)

/-- A decoded command's encoding is the word it came from: the decoder reads every bit of a legal word. -/
theorem encode_of_decode {w : Word} {i : Instr} (h : decode w = .ok i) : encode i = w := by
  unfold decode at h
  split at h
  next hop => exact encode_of_decodeN hop rfl h
  next hop => exact encode_of_decodeW hop (fun _ _ => rfl) h
  next hop => exact encode_of_decodeR hop (fun _ => rfl) h
  next hop => exact encode_of_decodeC hop (fun _ => rfl) h
  next hop => exact encode_of_decodeB hop (fun _ _ => rfl) h
  next hop => exact encode_of_decodeB hop (fun _ _ => rfl) h
  next hop => exact encode_of_decodeB hop (fun _ _ => rfl) h
  next hop => exact encode_of_decodeB hop (fun _ _ => rfl) h
  next hop => exact encode_of_decodeN hop rfl h
  next hop => exact encode_of_decodeN hop rfl h
  next hop => exact encode_of_decodeN hop rfl h
  next hop => exact encode_of_decodeN hop rfl h
  next hop => exact encode_of_decodeN hop rfl h
  next hop => exact encode_of_decodeN hop rfl h
  next hop => exact encode_of_decodeN hop rfl h
  next hop => exact encode_of_decodeB hop (fun _ _ => rfl) h
  next hop => exact encode_of_decodeB hop (fun _ _ => rfl) h
  next hop => exact encode_of_decodeN hop rfl h
  next hop => exact encode_of_decodeN hop rfl h
  next => cases h

/-! ## The registers over a command -/

/-- A command that is legal where it stands completes: each of the three errors of a body needs what is ruled out
here. -/
theorem bodyOf_completes {i : Instr} {s : State} (hpos : positionLegal s.cfg i) (hcsr : csrLegal i)
    (hsrc : ∀ n ∈ sources i, s.reg n ≠ none) : ∃ t, bodyOf i s = .ok t ∧ Completed i s t := by
  rcases bodyOf_cases i s with hok | ⟨-, hout⟩ | ⟨-, -, n, hn, hinvalid⟩ | ⟨-, csr, hi, hundef⟩
  · exact hok
  · exact absurd hpos hout
  · exact absurd hinvalid (hsrc n hn)
  · exact absurd (hcsr csr hi) ((csrOfNumber_none_iff csr).1 hundef)

/-- Settles O23: the body completes, and `Completed` says the rest. -/
theorem legalCommandsComplete : Obligations.LegalCommandsComplete := by
  intro i s herr hpos hcsr hsrc
  obtain ⟨t, hbody, hdone⟩ := bodyOf_completes hpos hcsr hsrc
  exact ⟨t, exec_of_ok herr hbody, hdone.error.trans herr, hdone.config, hdone.inputs, hdone.destinations⟩

theorem isPlaneCommand_iff (i : Instr) : isPlaneCommand i = true ↔ i = .fwdpln ∨ i = .invpln := by
  simp [isPlaneCommand]

/-- A plane command has no position, no CSR number and no source, so it always completes. -/
theorem bodyOf_planeCommand_completes {i : Instr} (hplane : isPlaneCommand i = true) (s : State) :
    ∃ t, bodyOf i s = .ok t ∧ Completed i s t := by
  rcases (isPlaneCommand_iff i).1 hplane with rfl | rfl
  · exact bodyOf_completes (positionLegal_of_none rfl) (fun _ h => nomatch h) (by simp [sources])
  · exact bodyOf_completes (positionLegal_of_none rfl) (fun _ h => nomatch h) (by simp [sources])

/-- A command that ends in `t` completed there, or left every register as it was. -/
theorem exec_completed_or_same_reg {i : Instr} {s t : State} (h : exec i s = .next t) :
    Completed i s t ∨ ∀ n, t.reg n = s.reg n := by
  obtain ⟨u, hu, -, -, hcase⟩ := exec_next i s
  rw [h] at hu
  cases hu
  rcases hcase with ⟨-, -, hdone⟩ | ⟨-, code, -, rfl⟩ | ⟨-, rfl | ⟨csr, c, -, -, rfl⟩⟩
  · exact .inl hdone
  · exact .inr fun _ => rfl
  · exact .inr fun _ => rfl
  · exact .inr fun _ => rfl

/-- Settles O24: a completed command by `Completed`, any other outcome changes no register. -/
theorem commandsWriteOnlyTheirRegisters : Obligations.CommandsWriteOnlyTheirRegisters := by
  intro i s t h
  constructor
  · intro hplane n hn
    rcases exec_completed_or_same_reg h with hdone | hsame
    · exact hdone.registers hplane n hn
    · exact hsame n
  · intro hplane herr
    obtain ⟨u, hbody, hdone⟩ := bodyOf_planeCommand_completes hplane s
    rw [exec_of_ok herr hbody] at h
    cases h
    exact hdone.invalidated hplane

/-- Only a plane command can invalidate a register: of any other, the destinations end valid and the rest stay. -/
theorem exec_keeps_valid {i : Instr} {s t : State} {n : Fin 32} (h : exec i s = .next t)
    (hplane : isPlaneCommand i = false) (hn : s.reg n ≠ none) : t.reg n ≠ none := by
  rcases exec_completed_or_same_reg h with hdone | hsame
  · by_cases hdest : n ∈ destinations i
    · exact hdone.destinations n hdest
    · rwa [hdone.registers hplane n hdest]
  · rwa [hsame n]

/-- A word at the port that invalidates a register is the word of a plane command. -/
theorem runWord_invalidates {w : Word} {s t : State} {n : Fin 32} (h : runWord w s = .next t) (hn : s.reg n ≠ none)
    (hn' : t.reg n = none) : decode w = .ok .fwdpln ∨ decode w = .ok .invpln := by
  rcases runWord_cases w s with ⟨i, hdec, hrun⟩ | ⟨-, -, hrun⟩ | ⟨-, -, hrun⟩ <;> rw [hrun] at h
  · have hplane : isPlaneCommand i = true := by
      by_contra hno
      exact exec_keeps_valid h (by simpa using hno) hn hn'
    rcases (isPlaneCommand_iff i).1 hplane with rfl | rfl
    · exact .inl hdec
    · exact .inr hdec
  · cases h
    exact absurd hn' hn
  · cases h
    exact absurd hn' hn

/-- Settles O15, by the moves a step can make. -/
theorem validBitsFallOnlyByResetOrPlaneCommand : Obligations.ValidBitsFallOnlyByResetOrPlaneCommand := by
  intro s t n h hn hn'
  obtain ⟨-, ⟨-, rfl⟩ | ⟨w, rest, hin, hw⟩ | ⟨rest, hin, -⟩ | ⟨w, landed, rest, -, hin, -⟩ |
    ⟨p, a, v, rest, -, -, rfl⟩⟩ := step_cases h
  · exact absurd hn' hn
  · exact ⟨_, rest, hin, .inr (.inr ⟨w, rfl, runWord_invalidates hw hn hn'⟩)⟩
  · exact ⟨_, rest, hin, .inl rfl⟩
  · exact ⟨_, rest, hin, .inr (.inl ⟨w, landed, rfl⟩)⟩
  · exact absurd hn' hn

/-! ## The error record over a step -/

/-- The error record after a command: as before, or written by a running engine with the command's own word. -/
theorem exec_err {i : Instr} {s t : State} (h : exec i s = .next t) :
    t.err = s.err ∨ (s.err = none ∧ ∃ code, t.err = some ⟨code, encode i⟩) := by
  obtain ⟨u, hu, -, -, hcase⟩ := exec_next i s
  rw [h] at hu
  cases hu
  rcases hcase with ⟨-, -, hdone⟩ | ⟨herr, code, -, rfl⟩ | ⟨-, rfl | ⟨csr, c, -, -, rfl⟩⟩
  · exact .inl hdone.error
  · exact .inr ⟨herr, code, rfl⟩
  · exact .inl rfl
  · exact .inl rfl

/-- The error record after a word at the port: as before, or written by a running engine with that very word. -/
theorem runWord_err {w : Word} {s t : State} (h : runWord w s = .next t) :
    t.err = s.err ∨ (s.err = none ∧ ∃ code, t.err = some ⟨code, w⟩) := by
  rcases runWord_cases w s with ⟨i, hdec, hrun⟩ | ⟨-, herr, hrun⟩ | ⟨-, -, hrun⟩ <;> rw [hrun] at h
  · rw [← encode_of_decode hdec]
    exact exec_err h
  · cases h
    exact .inr ⟨herr, _, rfl⟩
  · cases h
    exact .inl rfl

/-- The error record over a step: it stays, or a running engine records the word sent, or a reset clears it. -/
theorem step_err {s t : State} (h : step s = .next t) :
    t.err = s.err ∨
      (s.err = none ∧ ∃ code w rest, s.inputs = .command w :: rest ∧ t.err = some ⟨code, w⟩) ∨
      (t.err = none ∧ ∃ rest, s.inputs = .reset :: rest ∨
        ∃ w landed, s.inputs = .commandThenReset w landed :: rest) := by
  obtain ⟨-, ⟨-, rfl⟩ | ⟨w, rest, hin, hw⟩ | ⟨rest, hin, rfl⟩ | ⟨w, landed, rest, u, hin, -, rfl⟩ |
    ⟨p, a, v, rest, -, -, rfl⟩⟩ := step_cases h
  · exact .inl rfl
  · rcases runWord_err hw with hsame | ⟨herr, code, hrec⟩
    · exact .inl hsame
    · exact .inr (.inl ⟨herr, code, w, rest, hin, hrec⟩)
  · exact .inr (.inr ⟨rfl, rest, .inl hin⟩)
  · exact .inr (.inr ⟨rfl, rest, .inr ⟨w, landed, hin⟩⟩)
  · exact .inl rfl

/-! ## The status CSRs -/

theorem statusWord_of_running {s : State} (h : s.err = none) : statusWord s = 0 := by
  simp [statusWord, h]

theorem errcmdWord_of_running {s : State} (h : s.err = none) : errcmdWord s = 0 := by
  simp [errcmdWord, h]

theorem errcmdWord_of_error {s : State} {e : ErrRecord} (h : s.err = some e) : errcmdWord s = e.cmd := by
  simp [errcmdWord, h]

theorem errCodeNumber_lt (code : ErrCode) : errCodeNumber code < 2 ^ 4 := by
  cases code <;> decide

/-- `STATUS` after an error as a number: `ECODE` in bits 7:4 over a 1 (R28). -/
theorem toNat_statusWord_of_error {s : State} {e : ErrRecord} (h : s.err = some e) :
    (statusWord s).toNat = 2 ^ 4 * errCodeNumber e.code + 1 := by
  have := errCodeNumber_lt e.code
  simp only [statusWord, h, BitVec.toNat_ofNat]
  omega

/-- The bits of `STATUS` after an error: bit 0 set, then `ECODE` from bit 4 on. -/
theorem getLsbD_statusWord_of_error {s : State} {e : ErrRecord} (h : s.err = some e) (j : Nat) :
    (statusWord s).getLsbD j = if j < 4 then decide (j = 0) else (errCodeNumber e.code).testBit (j - 4) := by
  have hone : Nat.testBit 1 j = decide (j = 0) :=
    Bool.eq_iff_iff.2 (Nat.testBit_one_eq_true_iff_self_eq_zero.trans decide_eq_true_iff.symm)
  rw [BitVec.getLsbD, toNat_statusWord_of_error h, Nat.testBit_two_pow_mul_add _ (by decide), hone]

/-- Bit 0 of `STATUS` is `ERR` (R28). -/
theorem getLsbD_statusWord_zero (s : State) : (statusWord s).getLsbD 0 = s.err.isSome := by
  rcases h : s.err with _ | e
  · simp [statusWord_of_running h]
  · simp [getLsbD_statusWord_of_error h]

/-- The bits of `STATUS` outside `ERR` and `ECODE` are 0 (R28). -/
theorem getLsbD_statusWord_reserved (s : State) {j : Nat} (hj : (1 ≤ j ∧ j ≤ 3) ∨ 8 ≤ j) :
    (statusWord s).getLsbD j = false := by
  rcases h : s.err with _ | e
  · simp [statusWord_of_running h]
  rw [getLsbD_statusWord_of_error h]
  rcases hj with ⟨hlow, hhigh⟩ | hj
  · rw [if_pos (by omega)]
    exact decide_eq_false (by omega)
  · rw [if_neg (by omega)]
    exact Nat.testBit_lt_two_pow ((errCodeNumber_lt e.code).trans_le (Nat.pow_le_pow_right (by decide) (by omega)))

/-- Bits 7:4 of `STATUS` after an error are the number of its cause (R28, R131). -/
theorem statusWord_ecode_of_error {s : State} {e : ErrRecord} (h : s.err = some e) :
    (statusWord s).toNat / 2 ^ 4 % 2 ^ 4 = errCodeNumber e.code := by
  have := errCodeNumber_lt e.code
  rw [toNat_statusWord_of_error h]
  omega

/-- Settles O31, by the bits of `STATUS` and what a step does to the error record. -/
theorem statusAndErrcmdReadAndChange : Obligations.StatusAndErrcmdReadAndChange := by
  intro s
  refine ⟨⟨statusWord s, exec_rdcsr_defined (c := .status) s rfl, getLsbD_statusWord_zero s,
    (getLsbD_statusWord_zero s).symm, fun j => getLsbD_statusWord_reserved s, ?_⟩, fun h => ?_, fun e h => ?_,
    fun t => step_err⟩
  · rcases h : s.err with _ | ⟨code, cmd⟩
    · simp [statusWord_of_running h]
    · rw [statusWord_ecode_of_error h]
      cases code <;> rfl
  · rw [← errcmdWord_of_running h]
    exact exec_rdcsr_defined (c := .errcmd) s rfl
  · rw [← errcmdWord_of_error h]
    exact exec_rdcsr_defined (c := .errcmd) s rfl

/-- Settles O32: `RDCSR` of a defined number responds in any state, here with the valid bits. -/
theorem wvalidReadsTheValidBits : Obligations.WvalidReadsTheValidBits := fun s =>
  ⟨wvalidWord s, exec_rdcsr_defined (c := .wvalid) s rfl, getLsbD_wvalidWord s⟩

/-! ## The CSRs of the parameters -/

/-- The CSRs that return one parameter each: number, name and value (R31, R32). -/
def parameterCsrs (c : Config) : List (Nat × Csr × Nat) :=
  [(0x04, .kshift, c.k),
    (0x10, .c11, c.c11), (0x11, .c12, c.c12), (0x12, .c13, c.c13), (0x13, .c21, c.c21), (0x14, .c22, c.c22),
    (0x15, .c23, c.c23), (0x16, .c31, c.c31), (0x17, .c32, c.c32), (0x18, .c33, c.c33),
    (0x20, .d1, c.d1), (0x21, .d2, c.d2), (0x22, .d3, c.d3), (0x23, .d4, c.d4), (0x24, .d5, c.d5)]

theorem csrOfNumber_parameterCsrs (c : Config) : ∀ x ∈ parameterCsrs c, csrOfNumber x.1 = some x.2.1 := by
  simp [parameterCsrs, csrOfNumber]

theorem csrWord_parameterCsrs (s : State) :
    ∀ x ∈ parameterCsrs s.cfg, csrWord s x.2.1 = BitVec.ofNat 32 x.2.2 := by
  simp [parameterCsrs, csrWord]

/-- Every parameter of a legal configuration fits its CSR (R7). -/
theorem parameterCsrs_lt {c : Config} (h : c.wf = true) : ∀ x ∈ parameterCsrs c, x.2.2 < 2 ^ 32 := by
  obtain ⟨-, -, ⟨-, hk⟩, hcoef⟩ := (wf_config_iff c).1 h
  intro x hx
  have hvalue : x.2.2 ∈ c.k :: c.coefficients := List.mem_map_of_mem (f := fun y => y.2.2) hx
  rcases List.mem_cons.1 hvalue with hx | hx
  · omega
  · have := hcoef _ hx
    omega

/-- Settles O33: the bounds of R5 and R7 make every parameter fit its field. -/
theorem hardwiredCsrsReadTheParameters : Obligations.HardwiredCsrsReadTheParameters := by
  intro s hwf
  obtain ⟨⟨-, hrows, -⟩, ⟨-, hcols, -⟩, -⟩ := (wf_config_iff s.cfg).1 hwf
  have hdim : (dimWord s.cfg).toNat = s.cfg.cols * 2 ^ 16 + s.cfg.rows := Nat.mod_eq_of_lt (by omega)
  refine ⟨⟨dimWord s.cfg, exec_rdcsr_defined (c := .dim) s rfl, ?_, ?_, rfl⟩,
    exec_rdcsr_defined (c := .version) s rfl, rfl, fun x hx => ?_⟩
  · rw [hdim]
    omega
  · rw [hdim]
    omega
  · have hx : x ∈ parameterCsrs s.cfg := hx
    have hword := csrWord_parameterCsrs s x hx
    refine ⟨csrWord s x.2.1, exec_rdcsr_defined s (csrOfNumber_parameterCsrs s.cfg x hx), ?_, ?_⟩
    · rw [hword]
      exact Nat.mod_eq_of_lt (parameterCsrs_lt hwf x hx)
    · rw [hword]
      exact csrWord_parameterCsrs s.resetEngine x hx

/-! ## The state after reset -/

theorem wvalidWord_eq_zero {s : State} (h : ∀ n, s.reg n = none) : wvalidWord s = 0 := by
  refine BitVec.eq_of_getLsbD_eq fun j hj => ?_
  rw [getLsbD_wvalidWord s ⟨j, hj⟩, h]
  simp

/-- With every register invalid and no error, the status CSRs read 0 and the ports are at rest. -/
theorem status_and_ports_at_rest {s : State} (hreg : ∀ n, s.reg n = none) (herr : s.err = none) :
    csrWord s .status = 0 ∧ csrWord s .errcmd = 0 ∧ csrWord s .wvalid = 0 ∧ errPort s = false ∧
      cmdReadyPort s = true ∧ rspValidPort s = false :=
  ⟨statusWord_of_running herr, errcmdWord_of_running herr, wvalidWord_eq_zero hreg,
    by simp [errPort, State.halted, herr], rfl, rfl⟩

theorem State.powerUp_reg (c : Config) (ps : Planes) (ms : List HostMove) (n : Fin 32) :
    (State.powerUp c ps ms).reg n = none := by
  simp [State.reg, State.powerUp]

/-- Settles O9, after the reset move and at power-up alike: no register is valid and no error is recorded. -/
theorem resetLeavesTheEngineIdle : Obligations.ResetLeavesTheEngineIdle := by
  constructor
  · intro s rest hwf hin
    have hreg := State.resetEngine_reg { s with inputs := rest }
    obtain ⟨hstatus, herrcmd, hwvalid, herr, hready, hrsp⟩ := status_and_ports_at_rest hreg rfl
    exact ⟨_, step_move hwf hin, hreg, rfl, hstatus, herrcmd, hwvalid, herr, hready, hrsp, rfl, rfl, rfl⟩
  · rintro c ps ms t rfl
    have hreg := State.powerUp_reg c ps ms
    obtain ⟨hstatus, herrcmd, hwvalid, herr, hready, hrsp⟩ := status_and_ports_at_rest hreg rfl
    exact ⟨hreg, rfl, hstatus, herrcmd, hwvalid, herr, hready, hrsp, rfl, rfl, rfl⟩

theorem State.powerUp_inv {c : Config} {ps : Planes} (hc : c.wf = true) (hps : ps.wf c = true)
    (ms : List HostMove) : (State.powerUp c ps ms).Inv := ⟨hc, hps⟩

/-- Settles O13: `State.reset` is a power-up with legal parameters and blank planes. -/
theorem resetMeetsTheInvariant : Obligations.ResetMeetsTheInvariant :=
  ⟨State.powerUp_inv (by decide) (by decide) [], fun _ _ ms hc hps => State.powerUp_inv hc hps ms⟩

end Sys2Proof.Machine
end

section
/-! The statements of memory (20_memory.md): stored words, the plane locations a command changes, the addresses the
engine generates, and the order of the blocks. -/

namespace Sys2Proof.Machine

/-! ## Stored words (R44, R71) -/

/-- Byte `k` of a stored word is its bits `8k + 7` to `8k`. -/
theorem bytesOfWord_getElem? (w : Word) {k : Nat} (hk : k < 4) :
    (bytesOfWord w)[k]? = some (BitVec.ofNat 8 (field w (8 * k + 7) (8 * k))) := by
  match k, hk with
  | 0, _ => rfl
  | 1, _ => rfl
  | 2, _ => rfl
  | 3, _ => rfl

/-- Settles O5: the bytes are fields of the word, and the decoder on them is the decoder on the word. -/
theorem storedBytesDecodeLittleEndian : Obligations.StoredBytesDecodeLittleEndian := by
  intro w rest
  refine ⟨rfl, fun k hk => ⟨_, bytesOfWord_getElem? w hk, ?_⟩, fun i h => ?_, fun e h => ?_⟩
  · have hwidth : 8 * k + 7 + 1 - 8 * k = 8 := by omega
    rw [BitVec.toNat_ofNat, field, hwidth, Nat.mod_mod]
  · rw [decodeBytes_bytesOfWord, h]
    rfl
  · rw [decodeBytes_bytesOfWord, h]
    rfl

/-! ## The bytes a command leaves (R43, R48) -/

/-- Whatever becomes of a command, it changes no byte outside its locations: a completed one by `Completed.bytes`, any
other changes no byte at all. -/
theorem exec_sameBytesBut {i : Instr} {s t : State} (h : exec i s = .next t) :
    SameBytesBut (storedLocations s.cfg i) s t := by
  obtain ⟨u, hu, -, -, hcase⟩ := exec_next i s
  rw [h] at hu
  cases hu
  rcases hcase with ⟨-, -, hdone⟩ | ⟨-, code, -, rfl⟩ | ⟨-, rfl | ⟨csr, c, -, -, rfl⟩⟩
  · exact hdone.bytes
  · exact fun _ _ _ => rfl
  · exact fun _ _ _ => rfl
  · exact fun _ _ _ => rfl

/-- Settles O25. -/
theorem commandsStoreOnlyTheirLocations : Obligations.CommandsStoreOnlyTheirLocations :=
  fun _ _ _ h => exec_sameBytesBut h

/-- The forward results of a block go to no RGB plane (R116). -/
theorem rgb_not_mem_yccLocations (c : Config) (br bc a : Nat) {p : Plane} (hp : p = .pr ∨ p = .pg ∨ p = .pb) :
    (p, a) ∉ yccLocations c br bc := by
  rw [mem_yccLocations]
  rcases hp with rfl | rfl | rfl <;> simp

/-- The RGB of a block goes to no YCbCr plane (R117). -/
theorem ycc_not_mem_rgbLocations (c : Config) (br bc a : Nat) {p : Plane} (hp : p = .py ∨ p = .pcb ∨ p = .pcr) :
    (p, a) ∉ rgbLocations c br bc := by
  rw [mem_rgbLocations]
  rcases hp with rfl | rfl | rfl <;> simp

/-- A command that stores to an RGB plane is one of the three of the inverse direction (R43). -/
theorem inverse_of_mem_storedLocations {c : Config} {i : Instr} {p : Plane} {a : Nat}
    (hp : p = .pr ∨ p = .pg ∨ p = .pb) (h : (p, a) ∈ storedLocations c i) :
    (∃ br bc, i = .strgb br bc ∨ i = .invblk br bc) ∨ i = .invpln := by
  cases i with
  | strgb br bc => exact .inl ⟨br, bc, .inl rfl⟩
  | invblk br bc => exact .inl ⟨br, bc, .inr rfl⟩
  | invpln => exact .inr rfl
  | stycc br bc => exact absurd h (rgb_not_mem_yccLocations c br bc a hp)
  | fwdblk br bc => exact absurd h (rgb_not_mem_yccLocations c br bc a hp)
  | fwdpln =>
    obtain ⟨b, -, hb⟩ := List.mem_flatMap.1 h
    exact absurd hb (rgb_not_mem_yccLocations c b.1 b.2 a hp)
  | _ => exact absurd h List.not_mem_nil

/-- A command that stores to a YCbCr plane is one of the three of the forward direction (R43). -/
theorem forward_of_mem_storedLocations {c : Config} {i : Instr} {p : Plane} {a : Nat}
    (hp : p = .py ∨ p = .pcb ∨ p = .pcr) (h : (p, a) ∈ storedLocations c i) :
    (∃ br bc, i = .stycc br bc ∨ i = .fwdblk br bc) ∨ i = .fwdpln := by
  cases i with
  | stycc br bc => exact .inl ⟨br, bc, .inl rfl⟩
  | fwdblk br bc => exact .inl ⟨br, bc, .inr rfl⟩
  | fwdpln => exact .inr rfl
  | strgb br bc => exact absurd h (ycc_not_mem_rgbLocations c br bc a hp)
  | invblk br bc => exact absurd h (ycc_not_mem_rgbLocations c br bc a hp)
  | invpln =>
    obtain ⟨b, -, hb⟩ := List.mem_flatMap.1 h
    exact absurd hb (ycc_not_mem_rgbLocations c b.1 b.2 a hp)
  | _ => exact absurd h List.not_mem_nil

/-- Settles O26: a command changes only what it stores to, and which planes those are tells its direction. -/
theorem eachDirectionKeepsItsSourcePlanes : Obligations.EachDirectionKeepsItsSourcePlanes := by
  intro i s t h
  constructor
  · intro hblock hplane a
    have hkeep {p : Plane} (hp : p = .pr ∨ p = .pg ∨ p = .pb) : t.peek p a = s.peek p a := by
      refine exec_sameBytesBut h p a fun hmem => ?_
      obtain ⟨br, bc, hi⟩ | hi := inverse_of_mem_storedLocations hp hmem
      · exact hi.elim (hblock br bc).1 (hblock br bc).2
      · exact hplane hi
    exact ⟨hkeep (.inl rfl), hkeep (.inr (.inl rfl)), hkeep (.inr (.inr rfl))⟩
  · intro hblock hplane a
    have hkeep {p : Plane} (hp : p = .py ∨ p = .pcb ∨ p = .pcr) : t.peek p a = s.peek p a := by
      refine exec_sameBytesBut h p a fun hmem => ?_
      obtain ⟨br, bc, hi⟩ | hi := forward_of_mem_storedLocations hp hmem
      · exact hi.elim (hblock br bc).1 (hblock br bc).2
      · exact hplane hi
    exact ⟨hkeep (.inl rfl), hkeep (.inr (.inl rfl)), hkeep (.inr (.inr rfl))⟩

/-! ## Addresses (R41, R42) -/

section
variable {c : Config} {br bc : Nat}

/-- What a block of the raster stores forward are locations of their planes. -/
theorem yccLocations_inRange (hwf : c.wf = true) (hk : br ≤ c.brMax ∧ bc ≤ c.bcMax) :
    ∀ x ∈ yccLocations c br bc, x.2 < planeSize c x.1 := by
  rintro ⟨p, a⟩ hx
  rcases (mem_yccLocations c br bc p a).1 hx with ⟨rfl, q, rfl⟩ | ⟨rfl | rfl, rfl⟩
  · exact pixelAddr_lt hwf hk q
  · exact addrChroma_lt hwf hk
  · exact addrChroma_lt hwf hk

/-- What a block of the raster stores inverse are locations of their planes. -/
theorem rgbLocations_inRange (hwf : c.wf = true) (hk : br ≤ c.brMax ∧ bc ≤ c.bcMax) :
    ∀ x ∈ rgbLocations c br bc, x.2 < planeSize c x.1 := by
  rintro ⟨p, a⟩ hx
  obtain ⟨rfl | rfl | rfl, q, rfl⟩ := (mem_rgbLocations c br bc p a).1 hx
  · exact pixelAddr_lt hwf hk q
  · exact pixelAddr_lt hwf hk q
  · exact pixelAddr_lt hwf hk q

/-- So is what all blocks of the raster store, when it is so for each of them. -/
theorem rasterLocations_inRange {locations : Nat → Nat → List (Plane × Nat)}
    (h : ∀ br bc, br ≤ c.brMax ∧ bc ≤ c.bcMax → ∀ x ∈ locations br bc, x.2 < planeSize c x.1) :
    ∀ x ∈ (rasterBlocks c).flatMap fun b => locations b.1 b.2, x.2 < planeSize c x.1 := by
  intro x hx
  obtain ⟨b, hb, hx⟩ := List.mem_flatMap.1 hx
  exact h b.1 b.2 (rasterBlocks_inRaster c b hb) x hx

/-- A pixel of the raster is a lane of the block at half its row and column, the lane number made of the two
remainders (R15). -/
theorem addrFull_eq_pixelAddr (c : Config) (row col : Nat) :
    addrFull c row col =
      pixelAddr c (row / 2) (col / 2) ⟨2 * (row % 2) + col % 2, by omega⟩ := by
  unfold pixelAddr
  congr 1 <;> dsimp only <;> omega

/-- Every address of a full-resolution plane is the pixel address of a block and lane of the raster. -/
theorem exists_pixelAddr (hwf : c.wf = true) {a : Nat} (ha : a < c.npix) :
    ∃ br bc q, (br ≤ c.brMax ∧ bc ≤ c.bcMax) ∧ pixelAddr c br bc q = a := by
  obtain ⟨hrows, hcols, hhrows, hhcols⟩ := wf_dims hwf
  have hrow : a / c.cols < c.rows := Nat.div_lt_of_lt_mul (Nat.mul_comm c.rows c.cols ▸ ha)
  have hcol : a % c.cols < c.cols := Nat.mod_lt a (by omega)
  refine ⟨_, _, _, ?_, (addrFull_eq_pixelAddr c (a / c.cols) (a % c.cols)).symm.trans (Nat.div_add_mod' a c.cols)⟩
  omega

/-- Every address of a chroma plane is that of a block of the raster. -/
theorem exists_addrChroma (hwf : c.wf = true) {a : Nat} (ha : a < c.nchr) :
    ∃ br bc, (br ≤ c.brMax ∧ bc ≤ c.bcMax) ∧ addrChroma c br bc = a := by
  obtain ⟨-, -, hhrows, hhcols⟩ := wf_dims hwf
  have hrow : a / c.hcols < c.hrows := Nat.div_lt_of_lt_mul (Nat.mul_comm c.hrows c.hcols ▸ ha)
  have hcol : a % c.hcols < c.hcols := Nat.mod_lt a (by omega)
  exact ⟨_, _, by omega, Nat.div_add_mod' a c.hcols⟩

end

/-- Settles O51: the addresses of a block are bounded, and the locations of each storing command are those of one
block or of all. -/
theorem generatedAddressesAreInRange : Obligations.GeneratedAddressesAreInRange := by
  intro c br bc q hwf hbr hbc
  have hk : br ≤ c.brMax ∧ bc ≤ c.bcMax := ⟨hbr, hbc⟩
  refine ⟨pixelAddr_lt hwf hk q, addrChroma_lt hwf hk, neighbourAddr_lt hwf br bc q, fun i hi => ?_⟩
  simp only [List.mem_cons, List.not_mem_nil, or_false] at hi
  rcases hi with rfl | rfl | rfl | rfl | rfl | rfl
  · exact yccLocations_inRange hwf hk
  · exact rgbLocations_inRange hwf hk
  · exact yccLocations_inRange hwf hk
  · exact rgbLocations_inRange hwf hk
  · exact rasterLocations_inRange fun _ _ => yccLocations_inRange hwf
  · exact rasterLocations_inRange fun _ _ => rgbLocations_inRange hwf

/-- Settles O52: every address is met, and different blocks or lanes have different addresses. -/
theorem blocksPartitionThePlanes : Obligations.BlocksPartitionThePlanes := by
  intro c hwf
  constructor
  · intro a ha
    obtain ⟨br, bc, q, hk, haddr⟩ := exists_pixelAddr hwf ha
    refine ⟨(br, bc, q), ⟨hk.1, hk.2, haddr⟩, ?_⟩
    rintro ⟨br', bc', q'⟩ ⟨hbr', hbc', haddr'⟩
    obtain ⟨rfl, rfl, rfl⟩ := pixelAddr_inj hwf ⟨hbr', hbc'⟩ hk (haddr'.trans haddr.symm)
    rfl
  · intro a ha
    obtain ⟨br, bc, hk, haddr⟩ := exists_addrChroma hwf ha
    refine ⟨(br, bc), ⟨hk.1, hk.2, haddr⟩, ?_⟩
    rintro ⟨br', bc'⟩ ⟨hbr', hbc', haddr'⟩
    obtain ⟨rfl, rfl⟩ := addrChroma_inj hwf ⟨hbr', hbc'⟩ hk (haddr'.trans haddr.symm)
    rfl

/-! ## The order of the blocks (R125) -/

section
variable {s t u : State}

/-- Two states that differ from a third only at the same locations, and agree there, have the same planes. -/
theorem peek_eq_of_sameBytesBut {l l' : List (Plane × Nat)} (ht : SameBytesBut l s t) (hu : SameBytesBut l' s u)
    (hl : ∀ x, x ∈ l ↔ x ∈ l') (hagree : ∀ x ∈ l, t.peek x.1 x.2 = u.peek x.1 x.2) (p : Plane) (a : Nat) :
    t.peek p a = u.peek p a := by
  by_cases hmem : (p, a) ∈ l
  · exact hagree (p, a) hmem
  · rw [ht p a hmem, hu p a fun h => hmem ((hl (p, a)).2 h)]

/-- Agreement on the forward results of a block, location by location. -/
theorem peek_eq_on_yccLocations {c : Config} {br bc : Nat}
    (hy : ∀ q, t.peek .py (pixelAddr c br bc q) = u.peek .py (pixelAddr c br bc q))
    (hcb : t.peek .pcb (addrChroma c br bc) = u.peek .pcb (addrChroma c br bc))
    (hcr : t.peek .pcr (addrChroma c br bc) = u.peek .pcr (addrChroma c br bc)) :
    ∀ x ∈ yccLocations c br bc, t.peek x.1 x.2 = u.peek x.1 x.2 := by
  rintro ⟨p, a⟩ hx
  rcases (mem_yccLocations c br bc p a).1 hx with ⟨rfl, q, rfl⟩ | ⟨rfl | rfl, rfl⟩
  · exact hy q
  · exact hcb
  · exact hcr

/-- Agreement on the RGB of a block, location by location. -/
theorem peek_eq_on_rgbLocations {c : Config} {br bc : Nat}
    (h : ∀ q, (t.peek .pr (pixelAddr c br bc q), t.peek .pg (pixelAddr c br bc q), t.peek .pb (pixelAddr c br bc q)) =
      (u.peek .pr (pixelAddr c br bc q), u.peek .pg (pixelAddr c br bc q), u.peek .pb (pixelAddr c br bc q))) :
    ∀ x ∈ rgbLocations c br bc, t.peek x.1 x.2 = u.peek x.1 x.2 := by
  rintro ⟨p, a⟩ hx
  obtain ⟨hp, q, rfl⟩ := (mem_rgbLocations c br bc p a).1 hx
  have hlane := h q
  simp only [Prod.mk.injEq] at hlane
  obtain ⟨hr, hg, hb⟩ := hlane
  rcases hp with rfl | rfl | rfl
  · exact hr
  · exact hg
  · exact hb

variable {l l' : List (Nat × Nat)}

/-- The forward loop over blocks of the raster leaves the same planes in any order: each block ends with the results
of the state before the loop, and nothing else changes. -/
theorem overBlocks_fwd_perm (hwf : s.cfg.wf = true) (hl : ∀ b ∈ l, b.1 ≤ s.cfg.brMax ∧ b.2 ≤ s.cfg.bcMax)
    (hnodup : l.Nodup) (hperm : l.Perm l') :
    ∃ t u, overBlocks fwdblkBody l s = .ok t ∧ overBlocks fwdblkBody l' s = .ok u ∧
      ∀ p a, t.peek p a = u.peek p a := by
  obtain ⟨t, ht, hbytes, -, -, -, -, hval⟩ := overBlocks_fwd l s hl
  obtain ⟨u, hu, hbytes', -, -, -, -, hval'⟩ := overBlocks_fwd l' s fun b hb => hl b (hperm.mem_iff.2 hb)
  refine ⟨t, u, ht, hu, peek_eq_of_sameBytesBut hbytes hbytes' (fun _ => (hperm.flatMap_right _).mem_iff) ?_⟩
  intro x hx
  obtain ⟨⟨br, bc⟩, hb, hx⟩ := List.mem_flatMap.1 hx
  obtain ⟨hy, hcb, hcr⟩ := hval hwf hnodup br bc hb
  obtain ⟨hy', hcb', hcr'⟩ := hval' hwf (hperm.nodup_iff.1 hnodup) br bc (hperm.mem_iff.1 hb)
  exact peek_eq_on_yccLocations (fun q => (hy q).trans (hy' q).symm) (hcb.trans hcb'.symm) (hcr.trans hcr'.symm) x hx

/-- The inverse loop over blocks of the raster leaves the same planes in any order. -/
theorem overBlocks_inv_perm (hwf : s.cfg.wf = true) (hl : ∀ b ∈ l, b.1 ≤ s.cfg.brMax ∧ b.2 ≤ s.cfg.bcMax)
    (hnodup : l.Nodup) (hperm : l.Perm l') :
    ∃ t u, overBlocks invblkBody l s = .ok t ∧ overBlocks invblkBody l' s = .ok u ∧
      ∀ p a, t.peek p a = u.peek p a := by
  obtain ⟨t, ht, hbytes, -, -, -, -, hval⟩ := overBlocks_inv l s hl
  obtain ⟨u, hu, hbytes', -, -, -, -, hval'⟩ := overBlocks_inv l' s fun b hb => hl b (hperm.mem_iff.2 hb)
  refine ⟨t, u, ht, hu, peek_eq_of_sameBytesBut hbytes hbytes' (fun _ => (hperm.flatMap_right _).mem_iff) ?_⟩
  intro x hx
  obtain ⟨⟨br, bc⟩, hb, hx⟩ := List.mem_flatMap.1 hx
  have hrgb := hval hwf hnodup br bc hb
  have hrgb' := hval' hwf (hperm.nodup_iff.1 hnodup) br bc (hperm.mem_iff.1 hb)
  exact peek_eq_on_rgbLocations (fun q => (hrgb q).trans (hrgb' q).symm) x hx

end

/-- Settles O58: the block commands are the loop over their list, the plane command is the loop over the raster, and
the order of a loop cannot be seen in the planes. -/
theorem planeCommandsAreOrderIndependent : Obligations.PlaneCommandsAreOrderIndependent := by
  intro s blocks hwf herr hperm
  have hraster : ∀ b ∈ blocks, b.1 ≤ s.cfg.brMax ∧ b.2 ≤ s.cfg.bcMax := fun b hb =>
    rasterBlocks_inRaster s.cfg b (hperm.mem_iff.1 hb)
  have hnodup : blocks.Nodup := hperm.nodup_iff.2 (nodup_rasterBlocks s.cfg)
  constructor
  · obtain ⟨t, u, ht, hu, hsame⟩ := overBlocks_fwd_perm hwf hraster hnodup hperm
    exact ⟨t, u.invalidateAll, execAll_overBlocks (mk := .fwdblk) (fun _ _ _ => rfl) blocks herr ht,
      exec_of_ok herr (by simp [bodyOf, fwdplnBody, hu]), hsame⟩
  · obtain ⟨t, u, ht, hu, hsame⟩ := overBlocks_inv_perm hwf hraster hnodup hperm
    exact ⟨t, u.invalidateAll, execAll_overBlocks (mk := .invblk) (fun _ _ _ => rfl) blocks herr ht,
      exec_of_ok herr (by simp [bodyOf, invplnBody, hu]), hsame⟩

end Sys2Proof.Machine
end

section
/-! The statements of the encoding (30_encoding.md): the decoder against the encoder, in both directions, and against
the opcode map. -/

namespace Sys2Proof

/-! ## The decoder by opcode (R66), for the commands with operands -/

section

variable {w : Word}

theorem decode_wrw (h : field w 31 24 = 0x01) : decode w = decodeW w .wrw := by simp [decode, h]

theorem decode_rdw (h : field w 31 24 = 0x02) : decode w = decodeR w .rdw := by simp [decode, h]

theorem decode_rdcsr (h : field w 31 24 = 0x03) : decode w = decodeC w .rdcsr := by simp [decode, h]

theorem decode_ldrgb (h : field w 31 24 = 0x10) : decode w = decodeB w .ldrgb := by simp [decode, h]

theorem decode_ldycc (h : field w 31 24 = 0x11) : decode w = decodeB w .ldycc := by simp [decode, h]

theorem decode_stycc (h : field w 31 24 = 0x12) : decode w = decodeB w .stycc := by simp [decode, h]

theorem decode_strgb (h : field w 31 24 = 0x13) : decode w = decodeB w .strgb := by simp [decode, h]

theorem decode_fwdblk (h : field w 31 24 = 0x30) : decode w = decodeB w .fwdblk := by simp [decode, h]

theorem decode_invblk (h : field w 31 24 = 0x31) : decode w = decodeB w .invblk := by simp [decode, h]

end

/-! ## From a command to its word and back: the fields of an encoded word, format by format (R62 to R65) -/

theorem fitsBlockFields_iff (br bc : Nat) :
    (fitsBlockField br && fitsBlockField bc) = true ↔ br < 2 ^ 12 ∧ bc < 2 ^ 12 := by
  simp

/-- Format `B`: the opcode and both block indices come back, and nothing is reserved. -/
theorem decode_encodeB {op br bc : Nat} {mk : Nat → Nat → Instr} (hop : op < 2 ^ 8)
    (hdec : ∀ {w}, field w 31 24 = op → decode w = decodeB w mk)
    (hfit : (fitsBlockField br && fitsBlockField bc) = true) : decode (encodeB op br bc) = .ok (mk br bc) := by
  obtain ⟨hbr, hbc⟩ := (fitsBlockFields_iff br bc).1 hfit
  have hfield := fun hi lo => field_ofNat (op * 2 ^ 24 + br * 2 ^ 12 + bc) hi lo (by omega)
  have hopcode : field (encodeB op br bc) 31 24 = op := by rw [encodeB, hfield]; omega
  have hrow : field (encodeB op br bc) 23 12 = br := by rw [encodeB, hfield]; omega
  have hcol : field (encodeB op br bc) 11 0 = bc := by rw [encodeB, hfield]; omega
  rw [hdec hopcode, decodeB, hrow, hcol]

/-- `WRW`, the command of format `W`: register number and sample come back, and bits 23:13 are 0. -/
theorem decode_encodeW (reg : Fin 32) (imm8 : Byte) : decode (encodeW 0x01 reg imm8) = .ok (.wrw reg imm8) := by
  have hreg := reg.isLt
  have himm := imm8.isLt
  have hfield := fun hi lo => field_ofNat (0x01 * 2 ^ 24 + reg.val * 2 ^ 8 + imm8.toNat) hi lo (by omega)
  have hopcode : field (encodeW 0x01 reg imm8) 31 24 = 0x01 := by rw [encodeW, hfield]; omega
  have hreserved : field (encodeW 0x01 reg imm8) 23 13 = 0 := by rw [encodeW, hfield]; omega
  have hnumber : regField (encodeW 0x01 reg imm8) = reg :=
    Fin.ext (by rw [regField_val, encodeW, hfield]; omega)
  have hsample : field (encodeW 0x01 reg imm8) 7 0 = imm8.toNat := by rw [encodeW, hfield]; omega
  rw [decode_wrw hopcode, decodeW_ok_iff, hnumber, hsample, BitVec.ofNat_toNat, BitVec.setWidth_eq]
  exact ⟨hreserved, rfl⟩

/-- `RDCSR`, the command of format `C`: the CSR number comes back, and bits 23:8 are 0. -/
theorem decode_encodeC {csr : Nat} (hfit : fitsCsrField csr = true) :
    decode (encodeC 0x03 csr) = .ok (.rdcsr csr) := by
  have hcsr : csr < 2 ^ 8 := of_decide_eq_true hfit
  have hfield := fun hi lo => field_ofNat (0x03 * 2 ^ 24 + csr) hi lo (by omega)
  have hopcode : field (encodeC 0x03 csr) 31 24 = 0x03 := by rw [encodeC, hfield]; omega
  have hreserved : field (encodeC 0x03 csr) 23 8 = 0 := by rw [encodeC, hfield]; omega
  have hnumber : field (encodeC 0x03 csr) 7 0 = csr := by rw [encodeC, hfield]; omega
  rw [decode_rdcsr hopcode, decodeC_ok_iff, hnumber]
  exact ⟨hreserved, rfl⟩

/-- Settles O2: a command without operands has one fixed word and `RDW` has 32; the other formats give every operand
back. -/
theorem encodedCommandDecodesBack : Obligations.EncodedCommandDecodesBack := by
  intro i hwf
  cases i with
  | nop => decide
  | wrw reg imm8 => exact decode_encodeW reg imm8
  | rdw reg => revert reg; decide
  | rdcsr csr => exact decode_encodeC hwf
  | ldrgb br bc => exact decode_encodeB (by decide) decode_ldrgb hwf
  | ldycc br bc => exact decode_encodeB (by decide) decode_ldycc hwf
  | stycc br bc => exact decode_encodeB (by decide) decode_stycc hwf
  | strgb br bc => exact decode_encodeB (by decide) decode_strgb hwf
  | luma => decide
  | chroma => decide
  | ds => decide
  | us => decide
  | recon => decide
  | fwdw => decide
  | invw => decide
  | fwdblk br bc => exact decode_encodeB (by decide) decode_fwdblk hwf
  | invblk br bc => exact decode_encodeB (by decide) decode_invblk hwf
  | fwdpln => decide
  | invpln => decide

/-! ## From a word to its command: the operands fit their fields -/

section

variable {w : Word} {j : Instr}

theorem wf_of_decodeN {i : Instr} (hi : i.wf = true) (h : decodeN w i = .ok j) : j.wf = true := by
  obtain ⟨-, rfl⟩ := (decodeN_ok_iff w i j).1 h
  exact hi

theorem wf_of_decodeB {mk : Nat → Nat → Instr}
    (hmk : ∀ br bc, (mk br bc).wf = (fitsBlockField br && fitsBlockField bc)) (h : decodeB w mk = .ok j) :
    j.wf = true := by
  rw [(decodeB_ok_iff w mk j).1 h, hmk, fitsBlockFields_iff]
  exact ⟨field_lt w 23 12, field_lt w 11 0⟩

theorem wf_of_decodeW (h : decodeW w .wrw = .ok j) : j.wf = true := by
  obtain ⟨-, rfl⟩ := (decodeW_ok_iff w .wrw j).1 h
  rfl

theorem wf_of_decodeR (h : decodeR w .rdw = .ok j) : j.wf = true := by
  obtain ⟨-, rfl⟩ := (decodeR_ok_iff w .rdw j).1 h
  rfl

theorem wf_of_decodeC (h : decodeC w .rdcsr = .ok j) : j.wf = true := by
  obtain ⟨-, rfl⟩ := (decodeC_ok_iff w .rdcsr j).1 h
  exact decide_eq_true (field_lt w 7 0)

/-- A decoded command is well-formed: an operand is a field of the word, and a field is as wide as `Instr.wf` asks. -/
theorem wf_of_decode {i : Instr} (h : decode w = .ok i) : i.wf = true := by
  unfold decode at h
  split at h
  next => exact wf_of_decodeN rfl h
  next => exact wf_of_decodeW h
  next => exact wf_of_decodeR h
  next => exact wf_of_decodeC h
  next => exact wf_of_decodeB (fun _ _ => rfl) h
  next => exact wf_of_decodeB (fun _ _ => rfl) h
  next => exact wf_of_decodeB (fun _ _ => rfl) h
  next => exact wf_of_decodeB (fun _ _ => rfl) h
  next => exact wf_of_decodeN rfl h
  next => exact wf_of_decodeN rfl h
  next => exact wf_of_decodeN rfl h
  next => exact wf_of_decodeN rfl h
  next => exact wf_of_decodeN rfl h
  next => exact wf_of_decodeN rfl h
  next => exact wf_of_decodeN rfl h
  next => exact wf_of_decodeB (fun _ _ => rfl) h
  next => exact wf_of_decodeB (fun _ _ => rfl) h
  next => exact wf_of_decodeN rfl h
  next => exact wf_of_decodeN rfl h
  next => cases h

end

/-- Settles O3: the operands are fields, and the decoder ignores no bit. -/
theorem decodedWordIsItsEncoding : Obligations.DecodedWordIsItsEncoding := fun _ _ h =>
  ⟨wf_of_decode h, Machine.encode_of_decode h⟩

/-! ## The opcode map (R66) -/

/-- The word of every well-formed command matches the row of its mnemonic. -/
theorem encode_matches_row (i : Instr) : Laws.TableRow.Statement i := by
  cases i with
  | nop => exact Laws.TableRow.nop
  | wrw reg imm8 => exact Laws.TableRow.wrw reg imm8
  | rdw reg => exact Laws.TableRow.rdw reg
  | rdcsr csr => exact Laws.TableRow.rdcsr csr
  | ldrgb br bc => exact Laws.TableRow.ldrgb br bc
  | ldycc br bc => exact Laws.TableRow.ldycc br bc
  | stycc br bc => exact Laws.TableRow.stycc br bc
  | strgb br bc => exact Laws.TableRow.strgb br bc
  | luma => exact Laws.TableRow.luma
  | chroma => exact Laws.TableRow.chroma
  | ds => exact Laws.TableRow.ds
  | us => exact Laws.TableRow.us
  | recon => exact Laws.TableRow.recon
  | fwdw => exact Laws.TableRow.fwdw
  | invw => exact Laws.TableRow.invw
  | fwdblk br bc => exact Laws.TableRow.fwdblk br bc
  | invblk br bc => exact Laws.TableRow.invblk br bc
  | fwdpln => exact Laws.TableRow.fwdpln
  | invpln => exact Laws.TableRow.invpln

section

variable {w p : Word}

/-- A full mask leaves one word: the pattern. -/
theorem decode_of_full_match {i : Instr} (h : w &&& 0xFFFFFFFF = p) (hp : decode p = .ok i) : decode w = .ok i := by
  have hw : w = p := by rwa [show (0xFFFFFFFF : Word) = BitVec.allOnes 32 from rfl, BitVec.and_allOnes] at h
  rw [hw, hp]

/-- Under the mask of format `B` the opcode is the pattern's. -/
theorem opcode_of_block_match (h : w &&& 0xFF000000 = p) : field w 31 24 = p.toNat / 2 ^ 24 % 2 ^ 8 :=
  field_of_match 31 24 _ h (by decide) (by decide) rfl

theorem decode_of_write_match (h : w &&& 0xFFFFE000 = 0x01000000) : ∃ reg imm8, decode w = .ok (.wrw reg imm8) := by
  have hopcode : field w 31 24 = 0x01 := field_of_match 31 24 _ h (by decide) (by decide) (by decide)
  have hreserved : field w 23 13 = 0 := field_of_match 23 13 _ h (by decide) (by decide) (by decide)
  exact ⟨_, _, (decode_wrw hopcode).trans ((decodeW_ok_iff w .wrw _).2 ⟨hreserved, rfl⟩)⟩

theorem decode_of_read_match (h : w &&& 0xFFFFE0FF = 0x02000000) : ∃ reg, decode w = .ok (.rdw reg) := by
  have hopcode : field w 31 24 = 0x02 := field_of_match 31 24 _ h (by decide) (by decide) (by decide)
  have hhigh : field w 23 13 = 0 := field_of_match 23 13 _ h (by decide) (by decide) (by decide)
  have hlow : field w 7 0 = 0 := field_of_match 7 0 _ h (by decide) (by decide) (by decide)
  exact ⟨_, (decode_rdw hopcode).trans ((decodeR_ok_iff w .rdw _).2 ⟨⟨hhigh, hlow⟩, rfl⟩)⟩

theorem decode_of_csr_match (h : w &&& 0xFFFFFF00 = 0x03000000) : ∃ csr, decode w = .ok (.rdcsr csr) := by
  have hopcode : field w 31 24 = 0x03 := field_of_match 31 24 _ h (by decide) (by decide) (by decide)
  have hreserved : field w 23 8 = 0 := field_of_match 23 8 _ h (by decide) (by decide) (by decide)
  exact ⟨_, (decode_rdcsr hopcode).trans ((decodeC_ok_iff w .rdcsr _).2 ⟨hreserved, rfl⟩)⟩

end

/-- A word that matches a row decodes to a command of the row's mnemonic: the mask fixes the opcode and every
reserved field. -/
theorem decode_of_row_match {w : Word} {row : OpcodeRow} (hrow : row ∈ opcodeTable)
    (h : w &&& row.mask = row.pattern) : ∃ i, decode w = .ok i ∧ i.mnemonic = row.mnemonic := by
  simp only [opcodeTable, List.cons_append, List.nil_append, List.mem_cons, List.not_mem_nil, or_false] at hrow
  rcases hrow with rfl | rfl | rfl | rfl | rfl | rfl | rfl | rfl | rfl | rfl | rfl | rfl | rfl | rfl | rfl | rfl |
    rfl | rfl | rfl
  · exact ⟨.nop, decode_of_full_match h (by decide), rfl⟩
  · obtain ⟨reg, imm8, hdec⟩ := decode_of_write_match h
    exact ⟨.wrw reg imm8, hdec, rfl⟩
  · obtain ⟨reg, hdec⟩ := decode_of_read_match h
    exact ⟨.rdw reg, hdec, rfl⟩
  · obtain ⟨csr, hdec⟩ := decode_of_csr_match h
    exact ⟨.rdcsr csr, hdec, rfl⟩
  · exact ⟨_, decode_ldrgb (opcode_of_block_match h), rfl⟩
  · exact ⟨_, decode_ldycc (opcode_of_block_match h), rfl⟩
  · exact ⟨_, decode_stycc (opcode_of_block_match h), rfl⟩
  · exact ⟨_, decode_strgb (opcode_of_block_match h), rfl⟩
  · exact ⟨.luma, decode_of_full_match h (by decide), rfl⟩
  · exact ⟨.chroma, decode_of_full_match h (by decide), rfl⟩
  · exact ⟨.ds, decode_of_full_match h (by decide), rfl⟩
  · exact ⟨.us, decode_of_full_match h (by decide), rfl⟩
  · exact ⟨.recon, decode_of_full_match h (by decide), rfl⟩
  · exact ⟨.fwdw, decode_of_full_match h (by decide), rfl⟩
  · exact ⟨.invw, decode_of_full_match h (by decide), rfl⟩
  · exact ⟨_, decode_fwdblk (opcode_of_block_match h), rfl⟩
  · exact ⟨_, decode_invblk (opcode_of_block_match h), rfl⟩
  · exact ⟨.fwdpln, decode_of_full_match h (by decide), rfl⟩
  · exact ⟨.invpln, decode_of_full_match h (by decide), rfl⟩

/-- Settles O4: a decoded word is the encoding of a well-formed command, which matches its row; and a matching word
decodes. -/
theorem decodeMatchesTheOpcodeMap : Obligations.DecodeMatchesTheOpcodeMap := by
  refine ⟨fun w i h => ?_, fun w row hrow h => decode_of_row_match hrow h⟩
  obtain ⟨row, hrow, hname, hmatch⟩ := encode_matches_row i (wf_of_decode h)
  rw [Machine.encode_of_decode h] at hmatch
  exact ⟨row, hrow, hname, hmatch⟩

/-- Settles O1: the decoder evaluates on each of the thirteen fixed words. -/
theorem specWordsDecodeAsListed : Obligations.SpecWordsDecodeAsListed := by
  unfold Obligations.SpecWordsDecodeAsListed
  decide

end Sys2Proof
end

section
/-! The statements of the arithmetic (40_constants_and_arithmetic.md): saturation, rounding, and the range of the
intermediates. -/

namespace Sys2Proof.Machine

/-! ## Saturation (R81, R82) -/

/-- The shift as a floor, by order: a bound on `asr v n` is the scaled bound on `v`. -/
theorem le_asr_iff (a v : Int) (n : Nat) : a ≤ asr v n ↔ shl a n ≤ v := Int.le_ediv_iff_mul_le (two_pow_pos n)

theorem asr_neg {v : Int} (h : v < 0) (n : Nat) : asr v n < 0 := by
  rw [← not_le, le_asr_iff, shl, zero_mul]
  exact not_le.2 h

theorem clamp255_of_neg {v : Int} (h : v < 0) : clamp255 v = 0 := if_pos h

theorem clamp255_of_gt {v : Int} (h : 255 < v) : clamp255 v = 255 := by
  rw [clamp255, if_neg (by omega), if_pos h]

/-- Settles O46: `clamp255` as a number, and the two bounds carried over the shift. -/
theorem saturationAtBothBounds : Obligations.SaturationAtBothBounds := by
  refine ⟨fun v => ?_, fun v k h => clamp255_of_neg (asr_neg h k), fun v k h => clamp255_of_gt ?_⟩
  · rw [← sample_eq_toNat, sample_clamp255]
    split_ifs <;> omega
  · have hbound : 256 ≤ asr v k := (le_asr_iff 256 v k).2 (by simpa [shl] using h)
    omega

/-! ## Rounding (R82, R85) -/

theorem asr_eq_floor (v : Int) (n : Nat) : asr v n = ⌊(v : ℚ) / 2 ^ n⌋ := by
  have h := Rat.floor_intCast_div_natCast v (2 ^ n)
  push_cast at h
  rw [h, asr, Nat.cast_pow, Nat.cast_ofNat]

theorem rnd_eq_pow (c : Config) : rnd c = 2 ^ (c.k - 1) := by
  rw [rnd, two_pow_eq_shl, Nat.cast_pow, Nat.cast_ofNat]

/-- `RND` is half of the scale (R8). -/
theorem two_mul_rnd {c : Config} (h : 1 ≤ c.k) : 2 * rnd c = 2 ^ c.k := by
  rw [rnd_eq_pow, mul_pow_sub_one (by omega)]

/-- Settles O47: the shift is the floor, and `RND`, half of the scale, adds one half to the scaled value. -/
theorem shiftTruncatesAndRndRounds : Obligations.ShiftTruncatesAndRndRounds := by
  intro c v hk
  have hscaled : ((v + rnd c : Int) : ℚ) / 2 ^ c.k = (v : ℚ) / 2 ^ c.k + 1 / 2 := by
    have hrnd : (2 : ℚ) * rnd c = 2 ^ c.k := by exact_mod_cast two_mul_rnd hk
    field_simp
    push_cast
    linarith
  exact ⟨asr_eq_floor v c.k, by rw [asr_eq_floor, hscaled]⟩

/-! ## The range of the intermediates (R86)

A formula has at most four terms, each below `2^28` in magnitude: a quarter of the claimed bound. -/

/-- The bound of one term of a formula: an offset, a product or `RND`. -/
def TermBound (v : Int) : Prop := |v| < 2 ^ 28

theorem TermBound.neg {v : Int} (h : TermBound v) : TermBound (-v) := by rwa [TermBound, abs_neg]

/-- A 20-bit coefficient times a sample, biased or not. -/
theorem termBound_product {x : Nat} {v : Int} (hx : x < 2 ^ 20) (hv : |v| ≤ 255) : TermBound (x * v) := by
  rw [TermBound, abs_mul, Nat.abs_cast]
  calc (x : Int) * |v| ≤ (2 ^ 20 - 1) * 255 := by gcongr; omega
    _ < 2 ^ 28 := by norm_num

theorem termBound_pixel {x : Nat} (hx : x < 2 ^ 20) (v : Byte) : TermBound (x * (v.toNat : Int)) := by
  have := v.isLt
  exact termBound_product hx (abs_le.2 (by omega))

theorem termBound_biased {x bias : Nat} (hx : x < 2 ^ 20) (hbias : bias ≤ 255) (v : Byte) :
    TermBound (x * (v.toNat - bias : Int)) := by
  have := v.isLt
  exact termBound_product hx (abs_le.2 (by omega))

/-- An offset `a << k` (R90 to R92) or `RND` (R101). -/
theorem termBound_offset {a k : Nat} (ha : a ≤ 128) (hk : k ≤ 16) : TermBound (a * 2 ^ k) := by
  rw [TermBound, abs_of_nonneg (by positivity)]
  calc (a : Int) * 2 ^ k ≤ 128 * 2 ^ 16 := by
        gcongr
        · exact_mod_cast ha
        · decide
    _ < 2 ^ 28 := by norm_num

/-- The sum of a part of at most four terms stays inside 30 bits of magnitude. -/
theorem sum_part_bounds {terms part : List Int} (hlen : terms.length ≤ 4) (hterms : ∀ v ∈ terms, TermBound v)
    (hpart : part.Sublist terms) : -2 ^ 30 < part.sum ∧ part.sum < 2 ^ 30 := by
  have hle : ∀ v ∈ part, v ≤ 2 ^ 28 - 1 := fun v hv => by
    have := (abs_lt.1 (hterms v (hpart.mem hv))).2
    omega
  have hge : ∀ v ∈ part, -(2 ^ 28 - 1) ≤ v := fun v hv => by
    have := (abs_lt.1 (hterms v (hpart.mem hv))).1
    omega
  have hsumLe := List.sum_le_card_nsmul part _ hle
  have hsumGe := List.card_nsmul_le_sum part _ hge
  have hshort := hpart.length_le
  simp only [nsmul_eq_mul] at hsumLe hsumGe
  omega

/-- What 32-bit accumulators, wrapping or saturating, make of a value inside 30 bits of magnitude: the value. -/
theorem accumulators_exact {v : Int} (hlo : -2 ^ 30 < v) (hhi : v < 2 ^ 30) :
    (BitVec.ofInt 32 v).toInt = v ∧ max (-2 ^ 31) (min (2 ^ 31 - 1) v) = v :=
  ⟨BitVec.toInt_ofInt_eq_self (by decide) (by omega) (by omega), by omega⟩

/-! Each function of the model shifts and clamps the sum of its terms, an offset or `RND` among them. -/

theorem lumaPx_eq_sum (c : Config) (r g b : Byte) :
    lumaPx c r g b =
      clamp255 (asr [16 * 2 ^ c.k, c.c11 * (r.toNat : Int), c.c12 * g.toNat, c.c13 * b.toNat].sum c.k) := by
  simp [lumaPx, sample, shl, add_assoc]

theorem cbPx_eq_sum (c : Config) (r g b : Byte) :
    cbPx c r g b =
      clamp255 (asr [128 * 2 ^ c.k, -(c.c21 * (r.toNat : Int)), -(c.c22 * g.toNat), c.c23 * b.toNat].sum c.k) := by
  simp [cbPx, sample, shl, sub_eq_add_neg, add_assoc]

theorem crPx_eq_sum (c : Config) (r g b : Byte) :
    crPx c r g b =
      clamp255 (asr [128 * 2 ^ c.k, c.c31 * (r.toNat : Int), -(c.c32 * g.toNat), -(c.c33 * b.toNat)].sum c.k) := by
  simp [crPx, sample, shl, sub_eq_add_neg, add_assoc]

theorem reconRed_eq_sum (c : Config) (y cr : Byte) :
    reconRed c y cr =
      clamp255 (asr [c.d1 * (y.toNat - 16 : Int), c.d2 * (cr.toNat - 128 : Int), 2 ^ (c.k - 1)].sum c.k) := by
  simp [reconRed, sample, rnd_eq_pow, add_assoc]

theorem reconGreen_eq_sum (c : Config) (y cb cr : Byte) :
    reconGreen c y cb cr =
      clamp255 (asr [c.d1 * (y.toNat - 16 : Int), -(c.d3 * (cr.toNat - 128 : Int)), -(c.d4 * (cb.toNat - 128 : Int)),
        2 ^ (c.k - 1)].sum c.k) := by
  rw [reconGreen, sub_eq_add_neg, sub_eq_add_neg]
  simp [sample, rnd_eq_pow, add_assoc]

theorem reconBlue_eq_sum (c : Config) (y cb : Byte) :
    reconBlue c y cb =
      clamp255 (asr [c.d1 * (y.toNat - 16 : Int), c.d5 * (cb.toNat - 128 : Int), 2 ^ (c.k - 1)].sum c.k) := by
  simp [reconBlue, sample, rnd_eq_pow, add_assoc]

/-- Settles O48: a part of a formula has at most four terms, each a product or an offset inside its bound, and the two
accumulators keep a value of that size. -/
theorem intermediatesFitThirtyTwoBits : Obligations.IntermediatesFitThirtyTwoBits := by
  intro c r g b y cb cr formula hwf hformula
  obtain ⟨-, -, ⟨-, hk⟩, hcoef⟩ := (wf_config_iff c).1 hwf
  simp only [Config.coefficients, List.forall_mem_cons] at hcoef
  obtain ⟨h11, h12, h13, h21, h22, h23, h31, h32, h33, hd1, hd2, hd3, hd4, hd5, -⟩ := hcoef
  have h16 : TermBound (16 * 2 ^ c.k) := termBound_offset (a := 16) (by decide) hk
  have h128 : TermBound (128 * 2 ^ c.k) := termBound_offset (a := 128) (by decide) hk
  have hrnd : TermBound (2 ^ (c.k - 1)) := by
    simpa using termBound_offset (a := 1) (k := c.k - 1) (by decide) (by omega)
  have hy := termBound_biased (bias := 16) hd1 (by decide) y
  have hchroma {x : Nat} (hx : x < 2 ^ 20) := termBound_biased (bias := 128) hx (by decide)
  suffices h : formula.1.length ≤ 4 ∧ (∀ v ∈ formula.1, TermBound v) ∧
      formula.2 = clamp255 (asr formula.1.sum c.k) by
    obtain ⟨hlen, hterms, hsum⟩ := h
    refine ⟨fun part hpart => ?_, hsum⟩
    obtain ⟨hlo, hhi⟩ := sum_part_bounds hlen hterms hpart
    exact ⟨hlo, hhi, accumulators_exact hlo hhi⟩
  simp only [List.mem_cons, List.not_mem_nil, or_false] at hformula
  rcases hformula with rfl | rfl | rfl | rfl | rfl | rfl <;>
    simp only [List.forall_mem_cons, List.not_mem_nil, false_implies, implies_true, and_true]
  · exact ⟨by simp, ⟨h16, termBound_pixel h11 r, termBound_pixel h12 g, termBound_pixel h13 b⟩,
      lumaPx_eq_sum c r g b⟩
  · exact ⟨by simp, ⟨h128, (termBound_pixel h21 r).neg, (termBound_pixel h22 g).neg, termBound_pixel h23 b⟩,
      cbPx_eq_sum c r g b⟩
  · exact ⟨by simp, ⟨h128, termBound_pixel h31 r, (termBound_pixel h32 g).neg, (termBound_pixel h33 b).neg⟩,
      crPx_eq_sum c r g b⟩
  · exact ⟨by simp, ⟨hy, hchroma hd2 cr, hrnd⟩, reconRed_eq_sum c y cr⟩
  · exact ⟨by simp, ⟨hy, (hchroma hd3 cr).neg, (hchroma hd4 cb).neg, hrnd⟩, reconGreen_eq_sum c y cb cr⟩
  · exact ⟨by simp, ⟨hy, hchroma hd5 cb, hrnd⟩, reconBlue_eq_sum c y cb⟩

end Sys2Proof.Machine
end

section
/-! The statements of the forward transform (41_forward.md): the three stages, the whole transform, and its black and
white points. -/

namespace Sys2Proof.Machine

/-! ## The sources of a command without a block position (R136) -/

/-- Such a command raises `UNINIT_REG` on an invalid source: it cannot complete, and it has no position to be checked
first. -/
theorem raises_uninitReg_of_source {i : Instr} {s : State} (herr : s.err = none) (hblock : blockOf i = none) :
    ∀ n ∈ sources i, s.reg n = none → Raises i s .uninitReg := by
  intro n hn hinvalid
  rcases bodyOf_cases i s with ⟨t, -, hdone⟩ | ⟨-, hout⟩ | ⟨hbody, -⟩ | ⟨-, csr, rfl, -⟩
  · exact absurd hinvalid (hdone.sources n hn)
  · exact absurd (positionLegal_of_none hblock) hout
  · exact exec_of_error herr hbody
  · exact absurd hn List.not_mem_nil

theorem State.holds_quadOf {s : State} {k : Bank} {f : Fin 4 → Byte} (h : ∀ q, s.reg (bankReg k q) = some (f q)) :
    s.holds k (quadOf f) := fun q => by rw [h, laneOf_quadOf]

/-! ## The functions as numbers (R90 to R92) -/

/-- A value that is not negative is clamped from above only. -/
theorem clamp255_natCast_toNat (n : Nat) : (clamp255 n).toNat = min 255 n := by
  have hclamp : ((clamp255 n).toNat : Int) = max 0 (min 255 (n : Int)) := sample_clamp255 n
  omega

/-- `luma` as a number: no term is negative (R90). -/
theorem lumaPx_toNat (c : Config) (r g b : Byte) :
    (lumaPx c r g b).toNat =
      min 255 ((16 * 2 ^ c.k + c.c11 * r.toNat + c.c12 * g.toNat + c.c13 * b.toNat) / 2 ^ c.k) := by
  rw [← clamp255_natCast_toNat]
  simp [lumaPx, asr, shl, sample]

/-- `cbpx` as a number (R91). -/
theorem cbPx_toNat (c : Config) (r g b : Byte) :
    ((cbPx c r g b).toNat : Int) =
      max 0 (min 255 ((128 * 2 ^ c.k - c.c21 * r.toNat - c.c22 * g.toNat + c.c23 * b.toNat : Int) / 2 ^ c.k)) := by
  rw [← sample_eq_toNat, cbPx, sample_clamp255]
  simp [asr, shl, sample]

/-- `crpx` as a number (R92). -/
theorem crPx_toNat (c : Config) (r g b : Byte) :
    ((crPx c r g b).toNat : Int) =
      max 0 (min 255 ((128 * 2 ^ c.k + c.c31 * r.toNat - c.c32 * g.toNat - c.c33 * b.toNat : Int) / 2 ^ c.k)) := by
  rw [← sample_eq_toNat, crPx, sample_clamp255]
  simp [asr, shl, sample]

/-! ## The three stages (R94 to R96) -/

/-- Settles O38: the body writes `luma` lane by lane. -/
theorem lumaComputesTheFourLanes : Obligations.LumaComputesTheFourLanes := by
  refine ⟨by decide, fun s herr => ⟨fun r g b hr hg hb => ?_, raises_uninitReg_of_source (i := .luma) herr rfl⟩⟩
  have hbody := lumaBody_ok (State.holds_quadOf hr) (State.holds_quadOf hg) (State.holds_quadOf hb)
  refine ⟨_, exec_of_ok herr hbody, fun q => ?_, s.frame_writeBank .y _⟩
  exact ⟨lumaPx s.cfg (r q) (g q) (b q), by simp, lumaPx_toNat ..⟩

/-- Settles O39: the body writes `cbpx` and `crpx` lane by lane. -/
theorem chromaComputesTheFourLanes : Obligations.ChromaComputesTheFourLanes := by
  refine ⟨by decide, fun s herr =>
    ⟨fun r g b hr hg hb => ?_, raises_uninitReg_of_source (i := .chroma) herr rfl⟩⟩
  have hbody := chromaBody_ok (State.holds_quadOf hr) (State.holds_quadOf hg) (State.holds_quadOf hb)
  refine ⟨_, exec_of_ok herr hbody, fun q => ?_, (s.frame_writeBank .cb _).trans (State.frame_writeBank _ .cr _)⟩
  exact ⟨cbPx s.cfg (r q) (g q) (b q), crPx s.cfg (r q) (g q) (b q), by simp, by simp, cbPx_toNat .., crPx_toNat ..⟩

/-- Settles O40: the body writes `down4` of both banks to slot 0. -/
theorem dsAveragesTheFourLanes : Obligations.DsAveragesTheFourLanes := by
  refine ⟨by decide, fun s herr => ⟨fun u v hu hv => ?_, raises_uninitReg_of_source (i := .ds) herr rfl⟩⟩
  have hbody := dsBody_ok (State.holds_quadOf hu) (State.holds_quadOf hv)
  exact ⟨_, exec_of_ok herr hbody, ⟨_, by simp, down4_toNat (quadOf u)⟩, ⟨_, by simp, down4_toNat (quadOf v)⟩,
    (s.frame_writeReg _ _).trans (State.frame_writeReg _ _ _)⟩

/-! ## The whole transform (R97) -/

/-- Settles O43: each stage has its sources untouched or just written, so the three bodies complete one after the
other, and their writes are those of `FWDW` in the same order. -/
theorem fwdwEqualsItsThreeStages : Obligations.FwdwEqualsItsThreeStages := by
  refine ⟨by decide, fun s herr => ⟨fun hvalid => ?_, raises_uninitReg_of_source (i := .fwdw) herr rfl⟩⟩
  obtain ⟨r, g, b, hr, hg, hb, -⟩ | ⟨-, n, hn, hinvalid⟩ := three_banks_cases s .r .g .b
  · refine ⟨_, exec_of_ok herr (fwdwBody_ok hr hg hb),
      execAll_three herr (lumaBody_ok hr hg hb) (chromaBody_ok ?_ ?_ ?_) (dsBody_ok ?_ ?_), ?_⟩
    · simpa using hr
    · simpa using hg
    · simpa using hb
    · simp
    · simp
    · refine (((((s.frame_writeBank .y _).trans (State.frame_writeBank _ .cb _)).trans
        (State.frame_writeBank _ .cr _)).trans (State.frame_writeReg _ _ _)).trans
        (State.frame_writeReg _ _ _)).mono (fun n hn => ?_) (by simp)
      simpa [or_assoc] using hn
  · exact absurd hinvalid (hvalid n hn)

/-! ## Black (R99): with no product left, a formula gives the offset it starts from -/

theorem lumaPx_black (c : Config) : lumaPx c 0 0 0 = 16 := by
  simp only [lumaPx, sample_zero, mul_zero, add_zero, asr_shl]
  decide

theorem cbPx_black (c : Config) : cbPx c 0 0 0 = 128 := by
  simp only [cbPx, sample_zero, mul_zero, add_zero, sub_zero, asr_shl]
  decide

theorem crPx_black (c : Config) : crPx c 0 0 0 = 128 := by
  simp only [crPx, sample_zero, mul_zero, add_zero, sub_zero, asr_shl]
  decide

theorem lanes3_uniform (f : Byte → Byte → Byte → Byte) (u v w : Byte) :
    lanes3 f (quadOf fun _ => u) (quadOf fun _ => v) (quadOf fun _ => w) = quadOf fun _ => f u v w := rfl

/-- Four equal lanes average to their value (R96). -/
theorem down4_uniform (v : Byte) : down4 (quadOf fun _ => v) = v := by
  refine BitVec.eq_of_toNat_eq ?_
  rw [down4_toNat]
  simp only [quadOf]
  omega

/-- `FWDW` of a black block: the offsets in every lane, and their average. -/
theorem fwdw_black {s : State} (herr : s.err = none)
    (hblack : ∀ n ∈ bankRegs .r ++ bankRegs .g ++ bankRegs .b, s.reg n = some 0) :
    ∃ t, exec .fwdw s = .next t ∧
      (∀ q, t.reg (bankReg .y q) = some 16 ∧ t.reg (bankReg .cb q) = some 128 ∧
        t.reg (bankReg .cr q) = some 128) ∧
      t.reg (bankReg .cbs 0) = some 128 ∧ t.reg (bankReg .crs 0) = some 128 := by
  have hr : s.holds .r (quadOf fun _ => 0) := State.holds_quadOf fun q => hblack _ (by simp)
  have hg : s.holds .g (quadOf fun _ => 0) := State.holds_quadOf fun q => hblack _ (by simp)
  have hb : s.holds .b (quadOf fun _ => 0) := State.holds_quadOf fun q => hblack _ (by simp)
  have hbody := fwdwBody_ok hr hg hb
  simp only [lanes3_uniform, lumaPx_black, cbPx_black, crPx_black, down4_uniform] at hbody
  exact ⟨_, exec_of_ok herr hbody, by simp, by simp, by simp⟩

/-! ## White (R99): an output has a given value exactly when the products fall in one interval of the scale's length -/

/-- Inside the bounds the clamp is the identity, so a value there has one argument. -/
theorem clamp255_eq_iff {x : Byte} (hlo : 0 < x.toNat) (hhi : x.toNat < 255) (v : Int) :
    clamp255 v = x ↔ v = x.toNat := by
  have hclamp : ((clamp255 v).toNat : Int) = max 0 (min 255 v) := sample_clamp255 v
  rw [← BitVec.toNat_inj]
  omega

/-- The shift has a given value on an interval of the scale's length. -/
theorem asr_eq_iff (a v : Int) (n : Nat) : asr v n = a ↔ shl a n ≤ v ∧ v < shl (a + 1) n := by
  rw [← le_asr_iff, ← not_le, ← le_asr_iff]
  omega

/-- The two together, for a sum that starts from an offset `a << n`: the rest of it is worth `d`. -/
theorem clamp255_asr_eq_iff {x : Byte} {a d : Int} (hlo : 0 < x.toNat) (hhi : x.toNat < 255) (hx : x.toNat = a + d)
    (v : Int) (n : Nat) : clamp255 (asr (shl a n + v) n) = x ↔ d * 2 ^ n ≤ v ∧ v < (d + 1) * 2 ^ n := by
  rw [clamp255_eq_iff hlo hhi, asr_eq_iff, hx]
  simp [shl, add_mul, add_assoc]

theorem sample_white : sample 255 = 255 := rfl

theorem cbPx_white_iff (c : Config) :
    cbPx c 255 255 255 = 128 ↔
      0 ≤ 255 * (c.c23 - c.c21 - c.c22 : Int) ∧ 255 * (c.c23 - c.c21 - c.c22 : Int) < 2 ^ c.k := by
  have hsum : shl 128 c.k - c.c21 * sample 255 - c.c22 * sample 255 + c.c23 * sample 255 =
      shl 128 c.k + 255 * (c.c23 - c.c21 - c.c22) := by
    rw [sample_white]
    ring
  rw [cbPx, hsum, clamp255_asr_eq_iff (d := 0) (by decide) (by decide) (by decide), zero_mul, zero_add, one_mul]

theorem crPx_white_iff (c : Config) :
    crPx c 255 255 255 = 128 ↔
      0 ≤ 255 * (c.c31 - c.c32 - c.c33 : Int) ∧ 255 * (c.c31 - c.c32 - c.c33 : Int) < 2 ^ c.k := by
  have hsum : shl 128 c.k + c.c31 * sample 255 - c.c32 * sample 255 - c.c33 * sample 255 =
      shl 128 c.k + 255 * (c.c31 - c.c32 - c.c33) := by
    rw [sample_white]
    ring
  rw [crPx, hsum, clamp255_asr_eq_iff (d := 0) (by decide) (by decide) (by decide), zero_mul, zero_add, one_mul]

theorem lumaPx_white_iff (c : Config) :
    lumaPx c 255 255 255 = 235 ↔
      219 * 2 ^ c.k ≤ 255 * (c.c11 + c.c12 + c.c13) ∧ 255 * (c.c11 + c.c12 + c.c13) < 220 * 2 ^ c.k := by
  have hsum : shl 16 c.k + c.c11 * sample 255 + c.c12 * sample 255 + c.c13 * sample 255 =
      shl 16 c.k + (255 * (c.c11 + c.c12 + c.c13) : Nat) := by
    rw [sample_white]
    push_cast
    ring
  rw [lumaPx, hsum, clamp255_asr_eq_iff (d := 219) (by decide) (by decide) (by decide)]
  norm_cast

/-- Settles O49: black by the offsets, white by the three intervals, in which the numbers of `REF601_K8` lie. -/
theorem blackAndWhitePoints : Obligations.BlackAndWhitePoints := by
  refine ⟨fun s => fwdw_black, fun c => ⟨cbPx_white_iff c, crPx_white_iff c, lumaPx_white_iff c⟩, ?_⟩
  rintro rows cols c rfl
  refine ⟨(cbPx_white_iff _).2 ?_, (crPx_white_iff _).2 ?_, (lumaPx_white_iff _).2 ?_⟩ <;>
    norm_num [Config.ref601K8]

end Sys2Proof.Machine
end

section
/-! The statements of the inverse transform (42_inverse.md): the two stages, the whole transform, the datapath commands
as functions of their sources, uniform chroma, and the inverse over the whole raster. -/

namespace Sys2Proof.Machine

/-! ## The functions as numbers (R100, R101) -/

/-- The red output as a number (R101). -/
theorem reconRed_toNat (c : Config) (y cr : Byte) :
    ((reconRed c y cr).toNat : Int) =
      max 0 (min 255 ((c.d1 * (y.toNat - 16) + c.d2 * (cr.toNat - 128) + 2 ^ (c.k - 1) : Int) / 2 ^ c.k)) := by
  rw [← sample_eq_toNat, reconRed, sample_clamp255]
  simp [asr, sample, rnd_eq_pow]

/-- The green output as a number (R101). -/
theorem reconGreen_toNat (c : Config) (y cb cr : Byte) :
    ((reconGreen c y cb cr).toNat : Int) =
      max 0 (min 255 ((c.d1 * (y.toNat - 16) - c.d3 * (cr.toNat - 128) - c.d4 * (cb.toNat - 128) +
        2 ^ (c.k - 1) : Int) / 2 ^ c.k)) := by
  rw [← sample_eq_toNat, reconGreen, sample_clamp255]
  simp [asr, sample, rnd_eq_pow]

/-- The blue output as a number (R101). -/
theorem reconBlue_toNat (c : Config) (y cb : Byte) :
    ((reconBlue c y cb).toNat : Int) =
      max 0 (min 255 ((c.d1 * (y.toNat - 16) + c.d5 * (cb.toNat - 128) + 2 ^ (c.k - 1) : Int) / 2 ^ c.k)) := by
  rw [← sample_eq_toNat, reconBlue, sample_clamp255]
  simp [asr, sample, rnd_eq_pow]

/-- A lane of upsampled slots as a number (R100). -/
theorem laneOf_up4_toNat (f : Fin 4 → Byte) (q : Fin 4) :
    (laneOf (up4 (quadOf f)) q).toNat =
      if q.val / 2 = 0 ∧ q.val % 2 = 0 then (f 0).toNat
      else if q.val / 2 = 0 then ((f 0).toNat + (f 1).toNat) / 2
      else if q.val % 2 = 0 then ((f 0).toNat + (f 2).toNat) / 2
      else ((f 0).toNat + (f 1).toNat + (f 2).toNat + (f 3).toNat) / 4 := by
  obtain ⟨h0, h1, h2, h3⟩ := up4_toNat (quadOf f)
  match q with
  | 0 => exact congrArg BitVec.toNat h0
  | 1 => exact h1
  | 2 => exact h2
  | 3 => exact h3

/-! ## The two stages (R102, R103) -/

/-- A bank that holds upsampled slots, register by register. -/
theorem State.holds_up4 {t : State} {k : Bank} {f : Fin 4 → Byte} (h : t.holds k (up4 (quadOf f))) :
    t.reg (bankReg k 0) = some (f 0) ∧
      (∃ w : Byte, t.reg (bankReg k 1) = some w ∧ w.toNat = ((f 0).toNat + (f 1).toNat) / 2) ∧
      (∃ w : Byte, t.reg (bankReg k 2) = some w ∧ w.toNat = ((f 0).toNat + (f 2).toNat) / 2) ∧
      (∃ w : Byte, t.reg (bankReg k 3) = some w ∧
        w.toNat = ((f 0).toNat + (f 1).toNat + (f 2).toNat + (f 3).toNat) / 4) := by
  obtain ⟨-, h1, h2, h3⟩ := up4_toNat (quadOf f)
  exact ⟨h 0, ⟨_, h 1, h1⟩, ⟨_, h 2, h2⟩, _, h 3, h3⟩

/-- Settles O41: the body writes `up4` of the slots to both chroma banks. -/
theorem usInterpolatesTheFourSlots : Obligations.UsInterpolatesTheFourSlots := by
  refine ⟨by decide, fun s herr => ⟨fun u v hu hv => ?_, raises_uninitReg_of_source (i := .us) herr rfl⟩⟩
  have hbody := usBody_ok (State.holds_quadOf hu) (State.holds_quadOf hv)
  refine ⟨_, exec_of_ok herr hbody, ?_, (s.frame_writeBank .cb _).trans (State.frame_writeBank _ .cr _)⟩
  simp only [List.forall_mem_cons, List.not_mem_nil, false_implies, implies_true, and_true]
  exact ⟨State.holds_up4 (by simp), State.holds_up4 (by simp)⟩

/-- Settles O42: the body writes `recon` lane by lane. -/
theorem reconComputesTheFourLanes : Obligations.ReconComputesTheFourLanes := by
  refine ⟨by decide, fun s herr =>
    ⟨fun y u v hy hu hv => ?_, raises_uninitReg_of_source (i := .recon) herr rfl⟩⟩
  have hbody := reconBody_ok (State.holds_quadOf hy) (State.holds_quadOf hu) (State.holds_quadOf hv)
  refine ⟨_, exec_of_ok herr hbody, fun q => ?_, s.frame_writeRecon _ _ _⟩
  refine ⟨reconRed s.cfg (y q) (v q), reconGreen s.cfg (y q) (u q) (v q), reconBlue s.cfg (y q) (u q),
    by simp [State.writeRecon], by simp [State.writeRecon], by simp [State.writeRecon], ?_⟩
  rintro _ _ _ _ rfl rfl rfl rfl
  exact ⟨reconRed_toNat .., reconGreen_toNat .., reconBlue_toNat ..⟩

/-! ## The whole transform (R104) -/

/-- Two bodies that complete one after the other are the run of their two commands (R12). -/
theorem execAll_two {i j : Instr} {s t u : State} (hs : s.err = none) (h1 : bodyOf i s = .ok t)
    (ht : t.err = none) (h2 : bodyOf j t = .ok u) : execAll [i, j] s = .next u := by
  simp only [execAll, exec_of_ok hs h1, exec_of_ok ht h2]

/-- Settles O44: the upsampled chroma is what `RECON` reads, so the two bodies complete one after the other, and their
writes are those of `INVW` in the same order. -/
theorem invwEqualsItsTwoStages : Obligations.InvwEqualsItsTwoStages := by
  refine ⟨by decide, fun s herr => ⟨fun hvalid => ?_, raises_uninitReg_of_source (i := .invw) herr rfl⟩⟩
  obtain ⟨y, cbs, crs, hy, hcbs, hcrs, -⟩ | ⟨-, n, hn, hinvalid⟩ := three_banks_cases s .y .cbs .crs
  · refine ⟨_, exec_of_ok herr (invwBody_ok hy hcbs hcrs),
      execAll_two herr (usBody_ok hcbs hcrs) herr (reconBody_ok ?_ ?_ ?_), ?_⟩
    · simpa using hy
    · simp
    · simp
    · refine (((s.frame_writeBank .cb _).trans (State.frame_writeBank _ .cr _)).trans
        (State.frame_writeRecon _ _ _ _)).mono (fun n hn => ?_) (by simp)
      simpa [or_assoc] using hn
  · exact absurd hinvalid (hvalid n hn)

/-! ## The datapath commands are functions of their sources (R107) -/

/-- Two states hold the same in each of the registers. -/
def AgreeOn (regs : List (Fin 32)) (s s' : State) : Prop := ∀ n ∈ regs, s'.reg n = s.reg n

section
variable {regs : List (Fin 32)} {s s' : State}

theorem AgreeOn.nil (s s' : State) : AgreeOn [] s s' := fun _ h => absurd h List.not_mem_nil

/-- States that are given the same value in a register agree on it besides. -/
theorem AgreeOn.writeReg (h : AgreeOn regs s s') (n : Fin 32) (v : Byte) :
    AgreeOn (regs ++ [n]) (s.writeReg n v) (s'.writeReg n v) := by
  intro m hm
  by_cases hmn : m = n
  · simp [hmn]
  · simpa [hmn] using h m (by simpa [hmn] using hm)

theorem AgreeOn.writeBank (h : AgreeOn regs s s') (k : Bank) (x : Quad Byte) :
    AgreeOn (regs ++ bankRegs k) (s.writeBank k x) (s'.writeBank k x) := by
  have hfour := (((h.writeReg (bankReg k 0) x.l0).writeReg (bankReg k 1) x.l1).writeReg (bankReg k 2) x.l2).writeReg
    (bankReg k 3) x.l3
  simpa [State.writeBank, bankRegs] using hfour

theorem AgreeOn.writeRecon (h : AgreeOn regs s s') (hcfg : s'.cfg = s.cfg) (y cb cr : Quad Byte) :
    AgreeOn (regs ++ bankRegs .r ++ bankRegs .g ++ bankRegs .b) (s.writeRecon y cb cr) (s'.writeRecon y cb cr) := by
  simp only [State.writeRecon, hcfg]
  exact ((h.writeBank .r _).writeBank .g _).writeBank .b _

/-- A bank that is valid, and on which the states agree, holds one bundle in both. -/
theorem AgreeOn.exists_holds {k : Bank} (h : ∀ n ∈ bankRegs k, s.reg n ≠ none ∧ s'.reg n = s.reg n) :
    ∃ v, s.holds k v ∧ s'.holds k v := by
  obtain ⟨v, hv⟩ := State.holds_of_valid fun n hn => (h n hn).1
  exact ⟨v, hv, fun q => (h _ (by simp)).2.trans (hv q)⟩

theorem AgreeOn.two_banks {k1 k2 : Bank}
    (h : ∀ n ∈ bankRegs k1 ++ bankRegs k2, s.reg n ≠ none ∧ s'.reg n = s.reg n) :
    ∃ u v, (s.holds k1 u ∧ s.holds k2 v) ∧ s'.holds k1 u ∧ s'.holds k2 v := by
  obtain ⟨h1, h2⟩ := List.forall_mem_append.1 h
  obtain ⟨u, hu, hu'⟩ := AgreeOn.exists_holds h1
  obtain ⟨v, hv, hv'⟩ := AgreeOn.exists_holds h2
  exact ⟨u, v, ⟨hu, hv⟩, hu', hv'⟩

theorem AgreeOn.three_banks {k1 k2 k3 : Bank}
    (h : ∀ n ∈ bankRegs k1 ++ bankRegs k2 ++ bankRegs k3, s.reg n ≠ none ∧ s'.reg n = s.reg n) :
    ∃ u v w, (s.holds k1 u ∧ s.holds k2 v ∧ s.holds k3 w) ∧ s'.holds k1 u ∧ s'.holds k2 v ∧ s'.holds k3 w := by
  obtain ⟨h12, h3⟩ := List.forall_mem_append.1 h
  obtain ⟨u, v, ⟨hu, hv⟩, hu', hv'⟩ := AgreeOn.two_banks h12
  obtain ⟨w, hw, hw'⟩ := AgreeOn.exists_holds h3
  exact ⟨u, v, w, ⟨hu, hv, hw⟩, hu', hv', hw'⟩

end

/-- In states that agree on the parameters and on its valid sources a datapath command reads the same bundles, so its
two bodies complete and write the same bundles to the same banks. -/
theorem datapath_bodies_agree {i : Instr} {s s' : State}
    (hi : i ∈ [Instr.luma, .chroma, .ds, .us, .recon, .fwdw, .invw]) (hcfg : s.cfg = s'.cfg)
    (hsrc : ∀ n ∈ sources i, s.reg n ≠ none ∧ s'.reg n = s.reg n) :
    ∃ u u', bodyOf i s = .ok u ∧ bodyOf i s' = .ok u' ∧ AgreeOn (destinations i) u u' := by
  have hnil := AgreeOn.nil s s'
  cases i with
  | luma =>
    obtain ⟨r, g, b, ⟨hr, hg, hb⟩, hr', hg', hb'⟩ := AgreeOn.three_banks hsrc
    refine ⟨_, _, lumaBody_ok hr hg hb, lumaBody_ok hr' hg' hb', ?_⟩
    rw [hcfg]
    exact hnil.writeBank .y _
  | chroma =>
    obtain ⟨r, g, b, ⟨hr, hg, hb⟩, hr', hg', hb'⟩ := AgreeOn.three_banks hsrc
    refine ⟨_, _, chromaBody_ok hr hg hb, chromaBody_ok hr' hg' hb', ?_⟩
    rw [hcfg]
    exact (hnil.writeBank .cb _).writeBank .cr _
  | ds =>
    obtain ⟨cb, cr, ⟨hcb, hcr⟩, hcb', hcr'⟩ := AgreeOn.two_banks hsrc
    exact ⟨_, _, dsBody_ok hcb hcr, dsBody_ok hcb' hcr', (hnil.writeReg _ _).writeReg _ _⟩
  | us =>
    obtain ⟨cbs, crs, ⟨hcbs, hcrs⟩, hcbs', hcrs'⟩ := AgreeOn.two_banks hsrc
    exact ⟨_, _, usBody_ok hcbs hcrs, usBody_ok hcbs' hcrs', (hnil.writeBank .cb _).writeBank .cr _⟩
  | recon =>
    obtain ⟨y, cb, cr, ⟨hy, hcb, hcr⟩, hy', hcb', hcr'⟩ := AgreeOn.three_banks hsrc
    exact ⟨_, _, reconBody_ok hy hcb hcr, reconBody_ok hy' hcb' hcr', hnil.writeRecon hcfg.symm _ _ _⟩
  | fwdw =>
    obtain ⟨r, g, b, ⟨hr, hg, hb⟩, hr', hg', hb'⟩ := AgreeOn.three_banks hsrc
    refine ⟨_, _, fwdwBody_ok hr hg hb, fwdwBody_ok hr' hg' hb', ?_⟩
    rw [hcfg]
    exact ((((hnil.writeBank .y _).writeBank .cb _).writeBank .cr _).writeReg _ _).writeReg _ _
  | invw =>
    obtain ⟨y, cbs, crs, ⟨hy, hcbs, hcrs⟩, hy', hcbs', hcrs'⟩ := AgreeOn.three_banks hsrc
    exact ⟨_, _, invwBody_ok hy hcbs hcrs, invwBody_ok hy' hcbs' hcrs',
      ((hnil.writeBank .cb _).writeBank .cr _).writeRecon hcfg.symm _ _ _⟩
  | _ => simp at hi

/-- Settles O45: a command that runs ends where its body does. -/
theorem datapathDependsOnlyOnItsSources : Obligations.DatapathDependsOnlyOnItsSources := by
  intro i s s' t t' hi hcfg herr herr' hsrc ht ht'
  obtain ⟨u, u', hbody, hbody', hagree⟩ := datapath_bodies_agree hi hcfg hsrc
  rw [exec_of_ok herr hbody] at ht
  rw [exec_of_ok herr' hbody'] at ht'
  cases ht
  cases ht'
  exact hagree

/-! ## Uniform chroma (R106) -/

/-- Four equal slots are upsampled to four equal lanes. -/
theorem up4_uniform (v : Byte) : up4 (quadOf fun _ => v) = quadOf fun _ => v := by
  refine Quad.ext_laneOf _ _ fun q => BitVec.eq_of_toNat_eq ?_
  rw [laneOf_up4_toNat, laneOf_quadOf]
  split_ifs <;> omega

/-- Where a chroma plane holds one value everywhere, so do the neighbour slots of any block, clamped or not. -/
theorem State.loadNeighbours_uniform {s : State} {p : Plane} {v : Byte} (hwf : s.cfg.wf = true)
    (h : ∀ a, a < s.cfg.nchr → s.peek p a = v) (br bc : Nat) : s.loadNeighbours p br bc = quadOf fun _ => v :=
  congrArg quadOf (funext fun n => h _ (neighbourAddr_lt hwf br bc n))

/-- Settles O50: the loaded slots are uniform, and `up4` keeps uniform slots. -/
theorem uniformChromaUpsamplesToItself : Obligations.UniformChromaUpsamplesToItself := by
  refine ⟨up4_uniform, fun s br bc u v hwf herr hbr hbc hchroma => ?_⟩
  have hcbs := State.loadNeighbours_uniform hwf (fun a ha => (hchroma a ha).1) br bc
  have hcrs := State.loadNeighbours_uniform hwf (fun a ha => (hchroma a ha).2) br bc
  have hload := ldyccBody_ok (s := s) ⟨hbr, hbc⟩
  rw [hcbs, hcrs] at hload
  refine ⟨_, execAll_two herr hload herr (usBody_ok (cbs := quadOf fun _ => u) (crs := quadOf fun _ => v) ?_ ?_), ?_⟩
  · simp
  · simp
  · simp [up4_uniform]

/-! ## The whole raster (R123, R125) -/

/-- `INVPLN` of a legal raster: every block ends with the inverse results of the state before. -/
theorem exec_invpln {s : State} (hwf : s.cfg.wf = true) (herr : s.err = none) :
    ∃ t, exec .invpln s = .next t ∧
      (∀ br bc, br ≤ s.cfg.brMax → bc ≤ s.cfg.bcMax → ∀ q,
        (t.peek .pr (pixelAddr s.cfg br bc q), t.peek .pg (pixelAddr s.cfg br bc q),
          t.peek .pb (pixelAddr s.cfg br bc q)) = invRgbOf s br bc q) ∧
      (∀ n, t.reg n = none) ∧ t.err = none ∧ t.responses = s.responses ∧ t.inputs = s.inputs := by
  obtain ⟨t, ht, -, -, herr', hinputs, hresp, hrgb⟩ :=
    overBlocks_inv (rasterBlocks s.cfg) s (rasterBlocks_inRaster s.cfg)
  refine ⟨t.invalidateAll, exec_of_ok herr (by simp [bodyOf, invplnBody, ht]), fun br bc hbr hbc => ?_,
    t.invalidateAll_reg, herr'.trans herr, hresp, hinputs⟩
  exact hrgb hwf (nodup_rasterBlocks s.cfg) br bc ((mem_rasterBlocks s.cfg br bc).2 ⟨hbr, hbc⟩)

/-- Settles O57: a pixel is a lane of its block, and its upsampled chroma is the lane of `up4` of the block's clamped
neighbours. -/
theorem invplnConvertsTheWholeRaster : Obligations.InvplnConvertsTheWholeRaster := by
  intro s hwf herr
  obtain ⟨t, ht, hrgb, hregs, herr', hresp, hinputs⟩ := exec_invpln hwf herr
  have hsource := (eachDirectionKeepsItsSourcePlanes .invpln s t ht).2 (by simp) (by simp)
  refine ⟨t, ht, ?_, hsource, hregs, herr', hresp, hinputs⟩
  intro br bc i j hbr hbc hi hj a ha ch hch up hup
  obtain ⟨hrow, hcol⟩ : (2 * i + j) / 2 = i ∧ (2 * i + j) % 2 = j := by omega
  obtain ⟨q, hq⟩ : ∃ q : Fin 4, q.val = 2 * i + j := ⟨⟨2 * i + j, by omega⟩, rfl⟩
  have haddr : a = pixelAddr s.cfg br bc q := by rw [ha, pixelAddr, addrFull, hq, hrow, hcol]
  have hchroma (p : Plane) : laneOf (up4 (s.loadNeighbours p br bc)) q = up p := by
    refine BitVec.eq_of_toNat_eq ?_
    rw [hup, State.loadNeighbours, laneOf_up4_toNat, hq, hrow, hcol]
    simp only [hch]
    rfl
  have hlane := hrgb br bc (Nat.le_sub_one_of_lt hbr) (Nat.le_sub_one_of_lt hbc) q
  simpa only [invRgbOf, hchroma, ← haddr, Prod.mk.injEq] using hlane

end Sys2Proof.Machine
end

section
/-! The statements of window access (43_window_access.md): register access, and the loads and stores of a block. -/

namespace Sys2Proof.Machine

/-! ## The errors of a command that names a block (R134, R136, R137) -/

/-- A block outside the raster is what the command raises, whatever its sources hold: it cannot complete, and
`UNINIT_REG` needs a legal position. -/
theorem raises_badBlock_of_outside {i : Instr} {s : State} {br bc : Nat} (herr : s.err = none)
    (hblock : blockOf i = some (br, bc)) (hout : s.cfg.brMax < br ∨ s.cfg.bcMax < bc) : Raises i s .badBlock := by
  have hillegal : ¬positionLegal s.cfg i := fun hpos => by
    have := hpos br bc hblock
    omega
  rcases bodyOf_cases i s with ⟨t, -, hdone⟩ | ⟨hbody, -⟩ | ⟨-, hpos, -⟩ | ⟨-, csr, rfl, -⟩
  · exact absurd hdone.position hillegal
  · exact exec_of_error herr hbody
  · exact absurd hpos hillegal
  · cases hblock

/-- At a legal position the command raises `UNINIT_REG` on an invalid source: it cannot complete, and `BAD_BLOCK` needs
an illegal one. -/
theorem raises_uninitReg_of_positionLegal {i : Instr} {s : State} (herr : s.err = none)
    (hpos : positionLegal s.cfg i) : ∀ n ∈ sources i, s.reg n = none → Raises i s .uninitReg := by
  intro n hn hinvalid
  rcases bodyOf_cases i s with ⟨t, -, hdone⟩ | ⟨-, hillegal⟩ | ⟨hbody, -⟩ | ⟨-, csr, rfl, -⟩
  · exact absurd hinvalid (hdone.sources n hn)
  · exact absurd hpos hillegal
  · exact exec_of_error herr hbody
  · exact absurd hn List.not_mem_nil

/-! ## Register access (R110 to R113) -/

/-- Settles O28: the running engine runs a body that answers the state itself, and the halted engine discards. -/
theorem nopChangesNothing : Obligations.NopChangesNothing := by
  refine ⟨by decide, fun s => ?_⟩
  by_cases herr : s.err = none
  · exact exec_of_ok herr rfl
  · exact exec_of_halted herr fun _ _ h => nomatch h

/-- Settles O29: the body writes the one register. -/
theorem wrwWritesOneRegister : Obligations.WrwWritesOneRegister := fun s reg v =>
  ⟨rfl, fun herr => ⟨s.writeReg reg v, exec_of_ok herr rfl, by simp, s.frame_writeReg reg v⟩⟩

/-- Settles O30: the response is the sample widened, which keeps its value. -/
theorem rdwRespondsWithTheRegister : Obligations.RdwRespondsWithTheRegister := by
  refine fun s reg => ⟨rfl, fun herr => ⟨fun v hv => ?_, fun hinvalid => ?_⟩⟩
  · have hbody : bodyOf (.rdw reg) s = .ok (s.respond (v.setWidth 32)) := by
      simp [bodyOf, rdwBody, State.readReg_ok hv]
    exact ⟨v.setWidth 32, BitVec.toNat_setWidth_of_le (by decide), exec_of_ok herr hbody⟩
  · exact exec_of_error herr (by simp [bodyOf, rdwBody, State.readReg_error hinvalid])

/-- Settles O22: a number has a CSR exactly when it is listed; without one the body raises, and the halted engine
discards. -/
theorem rdcsrRespondsOrTakesBadCsr : Obligations.RdcsrRespondsOrTakesBadCsr := by
  refine fun csr s => ⟨rfl, fun hdefined => ?_, fun hundefined => ?_⟩
  · obtain ⟨c, hc⟩ := (csrOfNumber_isSome_iff csr).2 hdefined
    exact ⟨c, hc, exec_rdcsr_defined s hc⟩
  · have hnone : csrOfNumber csr = none := (csrOfNumber_none_iff csr).2 hundefined
    refine ⟨fun herr => exec_of_error herr (by simp [bodyOf, hnone, undefinedCsrBody]),
      fun herr => exec_of_halted herr ?_⟩
    rintro _ c ⟨⟩ hc
    cases hnone.symm.trans hc

/-! ## Loads (R114, R115) -/

theorem State.laneOf_loadPixels (s : State) (p : Plane) (br bc : Nat) (q : Fin 4) :
    laneOf (s.loadPixels p br bc) q = s.peek p (pixelAddr s.cfg br bc q) := laneOf_quadOf _ q

theorem State.laneOf_loadNeighbours (s : State) (p : Plane) (br bc : Nat) (n : Fin 4) :
    laneOf (s.loadNeighbours p br bc) n = s.peek p (neighbourAddr s.cfg br bc n) := laneOf_quadOf _ n

/-- Settles O34: the body writes the three loaded bundles, each lane the sample at its pixel address. -/
theorem ldrgbLoadsTheBlock : Obligations.LdrgbLoadsTheBlock := by
  refine fun s br bc herr => ⟨rfl, fun hbr hbc => ?_, raises_badBlock_of_outside herr rfl⟩
  refine ⟨_, exec_of_ok herr (ldrgbBody_ok ⟨hbr, hbc⟩), fun q a ha => ?_,
    ((s.frame_writeBank .r _).trans (State.frame_writeBank _ .g _)).trans (State.frame_writeBank _ .b _)⟩
  have haddr : a = pixelAddr s.cfg br bc q := ha
  simp [haddr, State.laneOf_loadPixels]

/-- The four slots of a block of the raster: its own indices are in range, so only the next ones are clamped (R115). -/
theorem neighbourAddr_of_inside {c : Config} {br bc br1 bc1 : Nat} (hk : br ≤ c.brMax ∧ bc ≤ c.bcMax)
    (hbr1 : br1 = min (br + 1) c.brMax) (hbc1 : bc1 = min (bc + 1) c.bcMax) :
    ∀ x ∈ [(0, br * c.hcols + bc), (1, br * c.hcols + bc1), (2, br1 * c.hcols + bc), (3, br1 * c.hcols + bc1)],
      neighbourAddr c br bc x.1 = x.2 := by
  simp [neighbourAddr, addrChroma, hbr1, hbc1, hk]

/-- Settles O35: the body writes the loaded luma and the two chroma bundles, each slot the sample at its neighbour
address. -/
theorem ldyccLoadsTheBlockAndItsNeighbours : Obligations.LdyccLoadsTheBlockAndItsNeighbours := by
  refine fun s br bc herr => ⟨rfl, fun hbr hbc => ?_, raises_badBlock_of_outside herr rfl⟩
  refine ⟨_, exec_of_ok herr (ldyccBody_ok ⟨hbr, hbc⟩), fun q => ?_, fun br1 bc1 hbr1 hbc1 x hx => ?_,
    ((s.frame_writeBank .y _).trans (State.frame_writeBank _ .cbs _)).trans (State.frame_writeBank _ .crs _)⟩
  · simp [State.laneOf_loadPixels, pixelAddr, addrFull]
  · have haddr := neighbourAddr_of_inside ⟨hbr, hbc⟩ hbr1 hbc1 x hx
    simp [State.laneOf_loadNeighbours, haddr]

/-! ## Stores (R116, R117) -/

/-- Settles O36: the body stores the bundle of the luma bank and the two slots. -/
theorem styccStoresTheBlock : Obligations.StyccStoresTheBlock := by
  refine fun s br bc hwf herr => ⟨rfl, fun hbr hbc => ?_, raises_badBlock_of_outside herr rfl⟩
  have hk : br ≤ s.cfg.brMax ∧ bc ≤ s.cfg.bcMax := ⟨hbr, hbc⟩
  have hpos : positionLegal s.cfg (.stycc br bc) := positionLegal_of_block rfl hk
  refine ⟨fun y u v hy hu hv => ?_, raises_uninitReg_of_positionLegal herr hpos⟩
  obtain ⟨hluma, hcb, hcr⟩ := s.peek_storeYcc br bc (quadOf y) u v
  refine ⟨_, exec_of_ok herr (styccBody_ok hk (State.holds_quadOf hy) hu hv), fun q => ?_, hcb, hcr,
    State.storeYcc_regs .., s.frame_storeYcc br bc _ u v⟩
  exact (hluma hwf hk q).trans (laneOf_quadOf y q)

/-- Settles O37: the body stores the bundles of the three banks. -/
theorem strgbStoresTheBlock : Obligations.StrgbStoresTheBlock := by
  refine fun s br bc hwf herr => ⟨rfl, fun hbr hbc => ?_, raises_badBlock_of_outside herr rfl⟩
  have hk : br ≤ s.cfg.brMax ∧ bc ≤ s.cfg.bcMax := ⟨hbr, hbc⟩
  have hpos : positionLegal s.cfg (.strgb br bc) := positionLegal_of_block rfl hk
  refine ⟨fun r g b hr hg hb => ?_, raises_uninitReg_of_positionLegal herr hpos⟩
  have hbody := strgbBody_ok hk (State.holds_quadOf hr) (State.holds_quadOf hg) (State.holds_quadOf hb)
  refine ⟨_, exec_of_ok herr hbody, fun q a ha => ?_, State.storeRgb_regs .., s.frame_storeRgb br bc _ _ _⟩
  have hlanes := s.peek_storeRgb br bc (quadOf r) (quadOf g) (quadOf b) q hwf hk
  simp only [laneOf_quadOf] at hlanes
  have haddr : a = pixelAddr s.cfg br bc q := ha
  rw [haddr]
  exact hlanes

end Sys2Proof.Machine
end

section
/-! The statements of the block and plane commands (44_block_and_plane.md): each equals its shorter commands, what
`FWDPLN` leaves over the whole raster, what the planes depend on, and the grey round trip. -/

namespace Sys2Proof.Machine

/-! ## The block commands are their three commands (R120, R121) -/

/-- A chain of three bodies that completes is the run of its three commands. -/
theorem execAll_of_bind {i j k : Instr} {s w : State} (herr : s.err = none)
    (h : (bodyOf i s >>= fun t => bodyOf j t >>= bodyOf k) = .ok w) : execAll [i, j, k] s = .next w := by
  obtain ⟨t, hi, hrest⟩ := (except_bind_ok_iff _ _ _).1 h
  obtain ⟨u, hj, hk⟩ := (except_bind_ok_iff _ _ _).1 hrest
  exact execAll_three herr hi hj hk

/-- Every window register is written by `INVBLK` (R121). -/
theorem mem_destinations_invblk (br bc : Nat) (n : Fin 32) : n ∈ destinations (.invblk br bc) := by
  obtain ⟨k, q, rfl⟩ := exists_bankReg n
  cases k <;> simp [destinations]

/-- Settles O53: the body completes on a block of the raster, and it is the three bodies one after the other. -/
theorem fwdblkEqualsItsThreeCommands : Obligations.FwdblkEqualsItsThreeCommands := by
  refine fun s br bc herr => ⟨rfl, fun hbr hbc => ?_, raises_badBlock_of_outside herr rfl⟩
  obtain ⟨t, hbody, hframe, -⟩ := fwdblkBody_spec ⟨hbr, hbc⟩
  exact ⟨t, exec_of_ok herr hbody, execAll_of_bind herr hbody, hframe.error.trans herr⟩

/-- Settles O54: likewise, and a completed command leaves its destinations valid, which are all registers. -/
theorem invblkEqualsItsThreeCommands : Obligations.InvblkEqualsItsThreeCommands := by
  refine fun s br bc herr => ⟨rfl, fun hbr hbc => ?_, raises_badBlock_of_outside herr rfl⟩
  obtain ⟨t, hbody, hdone⟩ := bodyOf_completes (i := .invblk br bc) (s := s)
    (positionLegal_of_block rfl ⟨hbr, hbc⟩) (fun _ h => nomatch h) (by simp [sources])
  exact ⟨t, exec_of_ok herr hbody, execAll_of_bind herr hbody, hdone.error.trans herr,
    fun n => hdone.destinations n (mem_destinations_invblk br bc n)⟩

/-! ## The plane commands are loops of block commands (R122, R123) -/

theorem fwdplnBody_of_loop {s t : State} (h : overBlocks fwdblkBody (rasterBlocks s.cfg) s = .ok t) :
    bodyOf .fwdpln s = .ok t.invalidateAll := by
  simp [bodyOf, fwdplnBody, h]

theorem invplnBody_of_loop {s t : State} (h : overBlocks invblkBody (rasterBlocks s.cfg) s = .ok t) :
    bodyOf .invpln s = .ok t.invalidateAll := by
  simp [bodyOf, invplnBody, h]

/-- Settles O55: the loop over the raster completes, and it is the run of the block commands. -/
theorem planeCommandsEqualTheirBlockCommands : Obligations.PlaneCommandsEqualTheirBlockCommands := by
  refine ⟨by decide, by decide, ?_⟩
  rintro s _ herr rfl
  constructor
  · obtain ⟨t, hloop, -, -, herr', -⟩ := overBlocks_fwd (rasterBlocks s.cfg) s (rasterBlocks_inRaster s.cfg)
    exact ⟨t, execAll_overBlocks (mk := .fwdblk) (fun _ _ _ => rfl) (rasterBlocks s.cfg) herr hloop,
      herr'.trans herr, exec_of_ok herr (fwdplnBody_of_loop hloop)⟩
  · obtain ⟨t, hloop, -, -, herr', -⟩ := overBlocks_inv (rasterBlocks s.cfg) s (rasterBlocks_inRaster s.cfg)
    exact ⟨t, execAll_overBlocks (mk := .invblk) (fun _ _ _ => rfl) (rasterBlocks s.cfg) herr hloop,
      herr'.trans herr, exec_of_ok herr (invplnBody_of_loop hloop)⟩

/-! ## The whole raster forward (R122, R125) -/

/-- `FWDPLN` of a legal raster: every block ends with the forward results of the state before. -/
theorem exec_fwdpln {s : State} (hwf : s.cfg.wf = true) (herr : s.err = none) :
    ∃ t, exec .fwdpln s = .next t ∧
      (∀ br bc, br ≤ s.cfg.brMax → bc ≤ s.cfg.bcMax →
        (∀ q, t.peek .py (pixelAddr s.cfg br bc q) = fwdLumaOf s br bc q) ∧
        t.peek .pcb (addrChroma s.cfg br bc) = fwdCbOf s br bc ∧
        t.peek .pcr (addrChroma s.cfg br bc) = fwdCrOf s br bc) ∧
      t.cfg = s.cfg ∧ (∀ n, t.reg n = none) ∧ t.err = none ∧ t.responses = s.responses ∧ t.inputs = s.inputs := by
  obtain ⟨t, hloop, -, hcfg, herr', hinputs, hresp, hval⟩ :=
    overBlocks_fwd (rasterBlocks s.cfg) s (rasterBlocks_inRaster s.cfg)
  refine ⟨t.invalidateAll, exec_of_ok herr (fwdplnBody_of_loop hloop), fun br bc hbr hbc => ?_,
    hcfg, t.invalidateAll_reg, herr'.trans herr, hresp, hinputs⟩
  exact hval hwf (nodup_rasterBlocks s.cfg) br bc ((mem_rasterBlocks s.cfg br bc).2 ⟨hbr, hbc⟩)

/-- The truncated average, by the numbers of the lanes (R93). -/
theorem down4_toNat_laneOf (c : Quad Byte) :
    (down4 c).toNat =
      ((laneOf c 0).toNat + (laneOf c 1).toNat + (laneOf c 2).toNat + (laneOf c 3).toNat) / 4 := down4_toNat c

/-- Settles O56: a pixel is a lane of its block, and a block's four pixels are the four lanes. -/
theorem fwdplnConvertsTheWholeRaster : Obligations.FwdplnConvertsTheWholeRaster := by
  intro s hwf herr
  obtain ⟨t, ht, hval, -, hregs, herr', hresp, hinputs⟩ := exec_fwdpln hwf herr
  have hsource := (eachDirectionKeepsItsSourcePlanes .fwdpln s t ht).1 (by simp) (by simp)
  obtain ⟨hrows, hcols, hhrows, hhcols⟩ := wf_dims hwf
  refine ⟨t, ht, ?_, ?_, hsource, hregs, herr', hresp, hinputs⟩
  · rintro r c hr hc _ rfl
    obtain ⟨hluma, -⟩ := hval (r / 2) (c / 2) (by omega) (by omega)
    have haddr : r * s.cfg.cols + c = _ := addrFull_eq_pixelAddr s.cfg r c
    rw [haddr, hluma, fwdLumaOf]
  · intro br bc hbr hbc px hpx cb cr hcb hcr
    obtain ⟨-, hpcb, hpcr⟩ := hval br bc (Nat.le_sub_one_of_lt hbr) (Nat.le_sub_one_of_lt hbc)
    have hlane (i j : Nat) (q : Fin 4) (hi : q.val / 2 = i) (hj : q.val % 2 = j) :
        px i j = pixelAddr s.cfg br bc q := by rw [hpx, pixelAddr, addrFull, hi, hj]
    have haddr : addrChroma s.cfg br bc = br * (s.cfg.cols / 2) + bc := rfl
    rw [← haddr, hlane 0 0 0 rfl rfl, hlane 0 1 1 rfl rfl, hlane 1 0 2 rfl rfl, hlane 1 1 3 rfl rfl]
    constructor
    · simp only [hpcb, fwdCbOf, down4_toNat_laneOf, laneOf_lanes3, State.laneOf_loadPixels, hcb]
    · simp only [hpcr, fwdCrOf, down4_toNat_laneOf, laneOf_lanes3, State.laneOf_loadPixels, hcr]

/-! ## What the planes depend on (R124) -/

section
variable {s s' t t' : State} {i : Instr} {l : List (Nat × Nat)}

/-- Two states with the same parameters and RGB planes: the forward loop leaves the same at every location it stores
to. -/
theorem overBlocks_fwd_agree (hcfg : s'.cfg = s.cfg) (hwf : s.cfg.wf = true)
    (hl : ∀ b ∈ l, b.1 ≤ s.cfg.brMax ∧ b.2 ≤ s.cfg.bcMax) (hnodup : l.Nodup)
    (hread : ∀ p, p = .pr ∨ p = .pg ∨ p = .pb → ∀ a, s'.peek p a = s.peek p a)
    (h : overBlocks fwdblkBody l s = .ok t) (h' : overBlocks fwdblkBody l s' = .ok t') :
    ∀ x ∈ l.flatMap fun b => yccLocations s.cfg b.1 b.2, t'.peek x.1 x.2 = t.peek x.1 x.2 := by
  obtain ⟨_, hu, -, -, -, -, -, hval⟩ := overBlocks_fwd l s hl
  obtain ⟨_, hu', -, -, -, -, -, hval'⟩ := overBlocks_fwd l s' (hcfg ▸ hl)
  cases h.symm.trans hu
  cases h'.symm.trans hu'
  rw [hcfg] at hval'
  intro x hx
  obtain ⟨⟨br, bc⟩, hb, hx⟩ := List.mem_flatMap.1 hx
  obtain ⟨hy, hcb, hcr⟩ := hval hwf hnodup br bc hb
  obtain ⟨hy', hcb', hcr'⟩ := hval' hwf hnodup br bc hb
  obtain ⟨ey, ecb, ecr⟩ := fwd_congr hcfg hread br bc
  exact peek_eq_on_yccLocations (fun q => by rw [hy', hy, ey]) (by rw [hcb', hcb, ecb]) (by rw [hcr', hcr, ecr]) x hx

/-- Two states with the same parameters and YCbCr planes: the inverse loop leaves the same at every location it stores
to. -/
theorem overBlocks_inv_agree (hcfg : s'.cfg = s.cfg) (hwf : s.cfg.wf = true)
    (hl : ∀ b ∈ l, b.1 ≤ s.cfg.brMax ∧ b.2 ≤ s.cfg.bcMax) (hnodup : l.Nodup)
    (hread : ∀ p, p = .py ∨ p = .pcb ∨ p = .pcr → ∀ a, s'.peek p a = s.peek p a)
    (h : overBlocks invblkBody l s = .ok t) (h' : overBlocks invblkBody l s' = .ok t') :
    ∀ x ∈ l.flatMap fun b => rgbLocations s.cfg b.1 b.2, t'.peek x.1 x.2 = t.peek x.1 x.2 := by
  obtain ⟨_, hu, -, -, -, -, -, hval⟩ := overBlocks_inv l s hl
  obtain ⟨_, hu', -, -, -, -, -, hval'⟩ := overBlocks_inv l s' (hcfg ▸ hl)
  cases h.symm.trans hu
  cases h'.symm.trans hu'
  rw [hcfg] at hval'
  intro x hx
  obtain ⟨⟨br, bc⟩, hb, hx⟩ := List.mem_flatMap.1 hx
  exact peek_eq_on_rgbLocations
    (fun q => by rw [hval' hwf hnodup br bc hb, hval hwf hnodup br bc hb, inv_congr hcfg hread]) x hx

/-- What the block and the plane command of one direction have in common: where the position is legal the command
completes, and what it leaves in the planes is what the loop of the block body over its blocks leaves. -/
structure IsBlockLoop (body : Nat → Nat → State → Except ErrCode State)
    (locations : Config → Nat → Nat → List (Plane × Nat)) (c : Config) (i : Instr) (l : List (Nat × Nat)) :
    Prop where
  runs     : ∀ s : State, s.cfg = c → positionLegal c i →
    ∃ t u, bodyOf i s = .ok t ∧ overBlocks body l s = .ok u ∧ t.planes = u.planes
  inRaster : positionLegal c i → ∀ b ∈ l, b.1 ≤ c.brMax ∧ b.2 ≤ c.bcMax
  nodup    : l.Nodup
  stored   : storedLocations c i = l.flatMap fun b => locations c b.1 b.2

/-- A forward command is the loop of `FWDBLK` over its one block, or over the raster. -/
theorem isBlockLoop_forward (hi : i = .fwdpln ∨ ∃ br bc, i = .fwdblk br bc) (c : Config) :
    ∃ l, IsBlockLoop fwdblkBody yccLocations c i l := by
  obtain rfl | ⟨br, bc, rfl⟩ := hi
  · refine ⟨rasterBlocks c, ?_, fun _ => rasterBlocks_inRaster c, nodup_rasterBlocks c, rfl⟩
    rintro s rfl -
    obtain ⟨t, hloop, -⟩ := overBlocks_fwd (rasterBlocks s.cfg) s (rasterBlocks_inRaster s.cfg)
    exact ⟨_, t, fwdplnBody_of_loop hloop, hloop, rfl⟩
  · refine ⟨[(br, bc)], ?_, fun hpos => by simpa using hpos br bc rfl, by simp, by simp [storedLocations]⟩
    rintro s rfl hpos
    obtain ⟨t, hbody, -⟩ := fwdblkBody_spec (hpos br bc rfl)
    exact ⟨t, t, hbody, by simp [overBlocks, hbody], rfl⟩

/-- An inverse command is the loop of `INVBLK` over its one block, or over the raster. -/
theorem isBlockLoop_inverse (hi : i = .invpln ∨ ∃ br bc, i = .invblk br bc) (c : Config) :
    ∃ l, IsBlockLoop invblkBody rgbLocations c i l := by
  obtain rfl | ⟨br, bc, rfl⟩ := hi
  · refine ⟨rasterBlocks c, ?_, fun _ => rasterBlocks_inRaster c, nodup_rasterBlocks c, rfl⟩
    rintro s rfl -
    obtain ⟨t, hloop, -⟩ := overBlocks_inv (rasterBlocks s.cfg) s (rasterBlocks_inRaster s.cfg)
    exact ⟨_, t, invplnBody_of_loop hloop, hloop, rfl⟩
  · refine ⟨[(br, bc)], ?_, fun hpos => by simpa using hpos br bc rfl, by simp, by simp [storedLocations]⟩
    rintro s rfl hpos
    obtain ⟨t, hbody, -⟩ := invblkBody_spec (hpos br bc rfl)
    exact ⟨t, t, hbody, by simp [overBlocks, hbody], rfl⟩

/-- A command at an illegal position does not complete, so it leaves the planes. -/
theorem exec_planes_of_illegal (hpos : ¬positionLegal s.cfg i) (herr : s.err = none) (h : exec i s = .next t) :
    t.planes = s.planes := by
  obtain ⟨_, hu, -, -, ⟨-, -, hdone⟩ | ⟨-, code, -, rfl⟩ | ⟨hhalted, -⟩⟩ := exec_next i s
  · exact absurd hdone.position hpos
  · cases h.symm.trans hu
    rfl
  · exact absurd herr hhalted

theorem State.peek_of_planes {p : Plane} {a : Nat} (h : t.planes = s.planes) : t.peek p a = s.peek p a := by
  simp only [State.peek, h]

variable {body : Nat → Nat → State → Except ErrCode State} {locations : Config → Nat → Nat → List (Plane × Nat)}

/-- The planes after such a command at a legal position are those after its loop. -/
theorem IsBlockLoop.exec_planes (hloop : IsBlockLoop body locations s.cfg i l) (hcfg : s'.cfg = s.cfg)
    (hpos : positionLegal s.cfg i) (herr : s'.err = none) (h : exec i s' = .next t) :
    ∃ u, overBlocks body l s' = .ok u ∧ t.planes = u.planes := by
  obtain ⟨_, u, hbody, hu, hplanes⟩ := hloop.runs s' hcfg hpos
  cases h.symm.trans (exec_of_ok herr hbody)
  exact ⟨u, hu, hplanes⟩

/-- Running states with the same parameters and planes end with the same planes, if that is so for the block body. -/
theorem IsBlockLoop.planes_eq (hloop : IsBlockLoop body locations s.cfg i l)
    (hbody : ∀ {s s' t t' : State} {br bc : Nat}, s'.cfg = s.cfg → s'.planes = s.planes →
      body br bc s = .ok t → body br bc s' = .ok t' → t'.cfg = t.cfg ∧ t'.planes = t.planes)
    (hcfg : s'.cfg = s.cfg) (herr : s.err = none) (herr' : s'.err = none) (h : exec i s = .next t)
    (h' : exec i s' = .next t') (hplanes : s'.planes = s.planes) : t'.planes = t.planes := by
  by_cases hpos : positionLegal s.cfg i
  · obtain ⟨u, hu, ht⟩ := hloop.exec_planes rfl hpos herr h
    obtain ⟨u', hu', ht'⟩ := hloop.exec_planes hcfg hpos herr' h'
    rw [ht, ht', overBlocks_same (body := body) hbody l hcfg hplanes hu hu']
  · rw [exec_planes_of_illegal hpos herr h, exec_planes_of_illegal (hcfg.symm ▸ hpos) herr' h', hplanes]

/-- Running states whose loops agree on what they store agree there after the command. -/
theorem IsBlockLoop.peek_eq (hloop : IsBlockLoop body locations s.cfg i l) (hcfg : s'.cfg = s.cfg)
    (herr : s.err = none) (herr' : s'.err = none) (h : exec i s = .next t) (h' : exec i s' = .next t')
    (hpos : positionLegal s.cfg i)
    (hagree : ∀ {u u' : State}, overBlocks body l s = .ok u → overBlocks body l s' = .ok u' →
      ∀ x ∈ l.flatMap fun b => locations s.cfg b.1 b.2, u'.peek x.1 x.2 = u.peek x.1 x.2) :
    ∀ x ∈ storedLocations s.cfg i, t'.peek x.1 x.2 = t.peek x.1 x.2 := by
  obtain ⟨u, hu, ht⟩ := hloop.exec_planes rfl hpos herr h
  obtain ⟨u', hu', ht'⟩ := hloop.exec_planes hcfg hpos herr' h'
  rw [hloop.stored]
  intro x hx
  rw [State.peek_of_planes ht, State.peek_of_planes ht', hagree hu hu' x hx]

end

/-- Settles O59: each of the commands is a loop of its block command, which writes a function of what it reads; the
halted engine discards it. -/
theorem planesDoNotDependOnTheWindow : Obligations.PlanesDoNotDependOnTheWindow := by
  intro i read hi
  constructor
  · intro s s' t t' hcfg herr herr' h h'
    obtain ⟨rfl, hi⟩ | ⟨rfl, hi⟩ := hi
    · obtain ⟨l, hloop⟩ := isBlockLoop_forward hi s.cfg
      refine ⟨fun hp => hloop.planes_eq fwdblkBody_same hcfg.symm herr herr' h h' hp.symm, fun hwf hpos hread => ?_⟩
      exact hloop.peek_eq hcfg.symm herr herr' h h' hpos
        (overBlocks_fwd_agree hcfg.symm hwf (hloop.inRaster hpos) hloop.nodup fun p hp => hread p (by simpa using hp))
    · obtain ⟨l, hloop⟩ := isBlockLoop_inverse hi s.cfg
      refine ⟨fun hp => hloop.planes_eq invblkBody_same hcfg.symm herr herr' h h' hp.symm, fun hwf hpos hread => ?_⟩
      exact hloop.peek_eq hcfg.symm herr herr' h h' hpos
        (overBlocks_inv_agree hcfg.symm hwf (hloop.inRaster hpos) hloop.nodup fun p hp => hread p (by simpa using hp))
  · refine fun s hhalted => exec_of_halted hhalted ?_
    rintro csr c rfl
    simp at hi

/-! ## The grey round trip (R127) -/

section
variable {c : Config} {rows cols : Nat}

theorem sample_126 : sample 126 = 126 := rfl

theorem sample_128 : sample 128 = 128 := rfl

theorem toSample_126 : toSample 126 = 126 := rfl

theorem toSample_128 : toSample 128 = 128 := rfl

/-- `REF601_K8` on a grey pixel, forward: the luma weights sum to 220 of 256, the chroma weights to nothing. -/
theorem forward_grey (hc : c = Config.ref601K8 rows cols) :
    lumaPx c 128 128 128 = 126 ∧ cbPx c 128 128 128 = 128 ∧ crPx c 128 128 128 = 128 := by
  subst hc
  norm_num [lumaPx, cbPx, crPx, Config.ref601K8, sample_128, shl, asr, clamp255, toSample_126, toSample_128]

/-- `REF601_K8` on luma 126 and no chroma, inverse: the three outputs are the scaled luma, rounded. -/
theorem inverse_grey (hc : c = Config.ref601K8 rows cols) :
    reconRed c 126 128 = 128 ∧ reconGreen c 126 128 128 = 128 ∧ reconBlue c 126 128 = 128 := by
  subst hc
  norm_num [reconRed, reconGreen, reconBlue, Config.ref601K8, sample_126, sample_128, rnd_eq_pow, asr, clamp255,
    toSample_128]

end

/-- Where a full-resolution plane holds one value everywhere, so do the four samples of a block of the raster. -/
theorem State.loadPixels_uniform {s : State} {p : Plane} {v : Byte} {br bc : Nat} (hwf : s.cfg.wf = true)
    (hk : br ≤ s.cfg.brMax ∧ bc ≤ s.cfg.bcMax) (h : ∀ a, a < s.cfg.npix → s.peek p a = v) :
    s.loadPixels p br bc = quadOf fun _ => v :=
  congrArg quadOf (funext fun q => h _ (pixelAddr_lt hwf hk q))

/-- `FWDPLN` of a solid 128 image leaves luma 126 and chroma 128. -/
theorem exec_fwdpln_grey {s : State} {rows cols : Nat} (hcfg : s.cfg = Config.ref601K8 rows cols)
    (hwf : s.cfg.wf = true) (herr : s.err = none)
    (hgrey : ∀ a, a < s.cfg.npix → s.peek .pr a = 128 ∧ s.peek .pg a = 128 ∧ s.peek .pb a = 128) :
    ∃ t, exec .fwdpln s = .next t ∧ t.cfg = s.cfg ∧ t.err = none ∧
      (∀ a, a < s.cfg.npix → t.peek .py a = 126) ∧
      (∀ a, a < s.cfg.nchr → t.peek .pcb a = 128 ∧ t.peek .pcr a = 128) := by
  obtain ⟨t, ht, hval, hcfg', -, herr', -⟩ := exec_fwdpln hwf herr
  obtain ⟨hluma, hcb, hcr⟩ := forward_grey hcfg
  refine ⟨t, ht, hcfg', herr', fun a ha => ?_, fun a ha => ?_⟩
  · obtain ⟨br, bc, q, hk, rfl⟩ := exists_pixelAddr hwf ha
    obtain ⟨hr, hg, hb⟩ := hgrey _ ha
    rw [(hval br bc hk.1 hk.2).1, fwdLumaOf, hr, hg, hb, hluma]
  · obtain ⟨br, bc, hk, rfl⟩ := exists_addrChroma hwf ha
    obtain ⟨-, hpcb, hpcr⟩ := hval br bc hk.1 hk.2
    have hr := State.loadPixels_uniform hwf hk fun a ha => (hgrey a ha).1
    have hg := State.loadPixels_uniform hwf hk fun a ha => (hgrey a ha).2.1
    have hb := State.loadPixels_uniform hwf hk fun a ha => (hgrey a ha).2.2
    rw [hpcb, hpcr, fwdCbOf, fwdCrOf, hr, hg, hb, lanes3_uniform, lanes3_uniform, hcb, hcr, down4_uniform]
    exact ⟨rfl, rfl⟩

/-- `INVPLN` of luma 126 and chroma 128 everywhere leaves a solid 128 image. -/
theorem exec_invpln_grey {s : State} {rows cols : Nat} (hcfg : s.cfg = Config.ref601K8 rows cols)
    (hwf : s.cfg.wf = true) (herr : s.err = none) (hluma : ∀ a, a < s.cfg.npix → s.peek .py a = 126)
    (hchroma : ∀ a, a < s.cfg.nchr → s.peek .pcb a = 128 ∧ s.peek .pcr a = 128) :
    ∃ t, exec .invpln s = .next t ∧
      ∀ a, a < s.cfg.npix → t.peek .pr a = 128 ∧ t.peek .pg a = 128 ∧ t.peek .pb a = 128 := by
  obtain ⟨t, ht, hval, -⟩ := exec_invpln hwf herr
  obtain ⟨hred, hgreen, hblue⟩ := inverse_grey hcfg
  refine ⟨t, ht, fun a ha => ?_⟩
  obtain ⟨br, bc, q, hk, rfl⟩ := exists_pixelAddr hwf ha
  have hlane := hval br bc hk.1 hk.2 q
  have hcb := State.loadNeighbours_uniform hwf (fun a ha => (hchroma a ha).1) br bc
  have hcr := State.loadNeighbours_uniform hwf (fun a ha => (hchroma a ha).2) br bc
  simpa only [invRgbOf, hluma _ ha, hcb, hcr, up4_uniform, laneOf_quadOf, hred, hgreen, hblue,
    Prod.mk.injEq] using hlane

/-- Settles O60: the two plane commands on the grey image, one after the other. -/
theorem solidGreyRoundTripIsExact : Obligations.SolidGreyRoundTripIsExact := by
  intro s rows cols hcfg hwf herr hgrey
  have hnpix : s.cfg.npix = rows * cols := by rw [hcfg]; rfl
  have hnchr : s.cfg.nchr = (rows / 2) * (cols / 2) := by rw [hcfg]; rfl
  rw [← hnpix] at hgrey ⊢
  rw [← hnchr]
  obtain ⟨t, ht, hcfg', herr', hluma, hchroma⟩ := exec_fwdpln_grey hcfg hwf herr hgrey
  rw [← hcfg'] at hcfg hwf hluma hchroma ⊢
  obtain ⟨u, hu, hrgb⟩ := exec_invpln_grey hcfg hwf herr' hluma hchroma
  exact ⟨t, u, ht, hu, hluma, hchroma, hrgb⟩

end Sys2Proof.Machine
end

section
/-! The statements of exceptions (60_exceptions.md): how a running engine takes each command error, what the halted
engine does with a word, and the host's moves between commands. -/

namespace Sys2Proof.Machine

/-! ## Error entry (R131 to R137) -/

/-- A word that matches no row decodes to no command, because a decoded word matches the row of its command (R70). -/
theorem decode_ne_ok_of_no_row_match {w : Word} (h : ∀ row ∈ opcodeTable, w &&& row.mask ≠ row.pattern) (i : Instr) :
    decode w ≠ .ok i := by
  intro hdec
  obtain ⟨row, hrow, -, hmatch⟩ := decodeMatchesTheOpcodeMap.1 w i hdec
  exact h row hrow hmatch

/-- Settles O7: of the outcomes of a word at the port, matching no row excludes the decoded command and a running
engine excludes the discard. -/
theorem illegalWordTakesIllegalCmd : Obligations.IllegalWordTakesIllegalCmd := by
  intro s w rest hwf herr hin hrows
  rw [step_move hwf hin]
  rcases runWord_cases w { s with inputs := rest } with ⟨i, hdec, -⟩ | ⟨-, -, hrun⟩ | ⟨-, hhalted, -⟩
  · exact absurd hdec (decode_ne_ok_of_no_row_match hrows i)
  · exact hrun
  · exact absurd herr hhalted

/-- A command that ends a running engine's step in an error had a body that raised it, and the state is that of error
entry (R135): a completed body would have kept the record empty. -/
theorem exec_raised {i : Instr} {s t : State} {e : ErrRecord} (herr : s.err = none) (h : exec i s = .next t)
    (ht : t.err = some e) : bodyOf i s = .error e.code ∧ e.cmd = encode i ∧ t = { s with err := some e } := by
  obtain ⟨u, hu, -, -, hcase⟩ := exec_next i s
  rw [h] at hu
  cases hu
  rcases hcase with ⟨-, -, hdone⟩ | ⟨-, code, hbody, rfl⟩ | ⟨hhalted, -⟩
  · cases (hdone.error.trans herr).symm.trans ht
  · cases ht
    exact ⟨hbody, rfl, rfl⟩
  · exact absurd herr hhalted

/-- A word that ends a running engine's step in an error is the word recorded, and nothing else changes. -/
theorem runWord_raised {w : Word} {s t : State} {e : ErrRecord} (herr : s.err = none) (h : runWord w s = .next t)
    (ht : t.err = some e) : e.cmd = w ∧ t = { s with err := some e } := by
  rcases runWord_cases w s with ⟨i, hdec, hrun⟩ | ⟨-, -, hrun⟩ | ⟨-, hhalted, -⟩
  · obtain ⟨-, hcmd, hstate⟩ := exec_raised herr (hrun.symm.trans h) ht
    exact ⟨hcmd.trans (encode_of_decode hdec), hstate⟩
  · cases hrun.symm.trans h
    cases ht
    exact ⟨rfl, rfl⟩
  · exact absurd herr hhalted

/-- Settles O16: the step is the word at the port, whose error entry `runWord_raised` gives. -/
theorem stepErrorRecordsTheWordItself : Obligations.StepErrorRecordsTheWordItself := by
  intro s t w rest e herr hin h ht
  have hwf : s.cfg.wf = true := (step_cases h).1
  rw [step_move hwf hin] at h
  obtain ⟨hcmd, hstate⟩ := runWord_raised (s := { s with inputs := rest }) herr h ht
  exact ⟨hcmd, hstate, (State.halted_iff t).2 (by simp [ht])⟩

/-- An illegal position is that of a format `B` command whose block lies outside the raster (R62, R134). -/
theorem exists_outside_of_not_positionLegal {c : Config} {i : Instr} (h : ¬positionLegal c i) :
    ∃ br bc, blockOf i = some (br, bc) ∧ (c.brMax < br ∨ c.bcMax < bc) := by
  simp only [positionLegal, not_forall] at h
  obtain ⟨br, bc, hblock, hout⟩ := h
  exact ⟨br, bc, hblock, by omega⟩

/-- A body raises `BAD_BLOCK` for its own position alone. -/
theorem not_positionLegal_of_badBlock {i : Instr} {s : State} (h : bodyOf i s = .error .badBlock) :
    ¬positionLegal s.cfg i := by
  rcases bodyOf_cases i s with ⟨t, hbody, -⟩ | ⟨-, hillegal⟩ | ⟨hbody, -⟩ | ⟨hbody, -⟩
  · cases hbody.symm.trans h
  · exact hillegal
  · cases hbody.symm.trans h
  · cases hbody.symm.trans h

/-- A body raises `UNINIT_REG` for an invalid register among its sources alone. -/
theorem exists_invalid_source_of_uninitReg {i : Instr} {s : State} (h : bodyOf i s = .error .uninitReg) :
    ∃ n ∈ sources i, s.reg n = none := by
  rcases bodyOf_cases i s with ⟨t, hbody, -⟩ | ⟨hbody, -⟩ | ⟨-, -, hinvalid⟩ | ⟨hbody, -⟩
  · cases hbody.symm.trans h
  · cases hbody.symm.trans h
  · exact hinvalid
  · cases hbody.symm.trans h

/-- Settles O20: outside the raster the position check comes first, and the recorded cause tells which check failed. -/
theorem blockOutsideRasterTakesBadBlock : Obligations.BlockOutsideRasterTakesBadBlock := by
  constructor
  · intro i br bc s hblock herr hout
    exact raises_badBlock_of_outside herr hblock hout
  · intro i s t w herr h ht
    obtain ⟨hbody, -⟩ := exec_raised herr h ht
    exact exists_outside_of_not_positionLegal (not_positionLegal_of_badBlock hbody)

/-- Settles O21: at a legal position an invalid source is all that can stop the command, and the recorded cause tells
that there was one. -/
theorem invalidSourceTakesUninitReg : Obligations.InvalidSourceTakesUninitReg := by
  constructor
  · intro i n s herr hpos hn hinvalid
    exact raises_uninitReg_of_positionLegal herr hpos n hn hinvalid
  · intro i s t w herr h ht
    obtain ⟨hbody, -⟩ := exec_raised herr h ht
    exact exists_invalid_source_of_uninitReg hbody

/-! ## The halted engine (R138, R139, R160) -/

/-- A halted engine discards a word that is no `RDCSR` of a defined number, legal or not. -/
theorem runWord_of_halted {w : Word} {s : State} (herr : s.err ≠ none)
    (h : ∀ csr c, decode w = .ok (.rdcsr csr) → csrOfNumber csr ≠ some c) : runWord w s = .next s := by
  rcases runWord_cases w s with ⟨i, hdec, hrun⟩ | ⟨-, hrunning, -⟩ | ⟨-, -, hrun⟩
  · have hno : ∀ csr c, i = .rdcsr csr → csrOfNumber csr ≠ some c := by
      rintro csr c rfl
      exact h csr c hdec
    exact hrun.trans (exec_of_halted herr hno)
  · exact absurd hrunning herr
  · exact hrun

/-- The word of an `RDCSR` of a defined number responds in any state. -/
theorem runWord_rdcsr_defined {w : Word} {csr : Nat} {c : Csr} (s : State) (hdec : decode w = .ok (.rdcsr csr))
    (hc : csrOfNumber csr = some c) : runWord w s = .next (s.respond (csrWord s c)) :=
  (runWord_of_decode hdec s).trans (exec_rdcsr_defined s hc)

/-- Settles O17: the step is the word at the port, and no CSR's word depends on the moves to come. -/
theorem haltedEngineDiscardsWords : Obligations.HaltedEngineDiscardsWords := by
  intro s w rest hwf herr hin
  rw [step_move hwf hin]
  refine ⟨fun csr c hdec hc => ?_, fun hno => ?_, rfl⟩
  · have hword : csrWord { s with inputs := rest } c = csrWord s c := by cases c <;> rfl
    rw [← hword]
    exact runWord_rdcsr_defined { s with inputs := rest } hdec hc
  · exact runWord_of_halted (s := { s with inputs := rest }) herr hno

/-- Settles O18: of the ways a step can change the record, one needs a running engine and the others are resets. -/
theorem onlyResetClearsAnError : Obligations.OnlyResetClearsAnError := by
  intro s t e herr h
  rcases step_err h with hsame | ⟨hrunning, -⟩ | ⟨-, hreset⟩
  · exact .inl (hsame.trans herr)
  · cases herr.symm.trans hrunning
  · exact .inr hreset

/-- Whatever the word, a halted engine changes nothing but the responses, and only adds to them. -/
theorem runWord_halted_responds {w : Word} {s t : State} (herr : s.err ≠ none) (h : runWord w s = .next t) :
    ∃ sent, t = { s with responses := s.responses ++ sent } := by
  by_cases hno : ∀ csr c, decode w = .ok (.rdcsr csr) → csrOfNumber csr ≠ some c
  · cases (runWord_of_halted herr hno).symm.trans h
    exact ⟨[], by rw [List.append_nil]⟩
  · simp only [not_forall, not_not] at hno
    obtain ⟨csr, c, hdec, hc⟩ := hno
    cases (runWord_rdcsr_defined s hdec hc).symm.trans h
    exact ⟨[csrWord s c], rfl⟩

/-- A step of a halted engine that is sent command words alone takes moves off and adds responses. -/
theorem step_halted_responds {s t : State} (herr : s.err ≠ none) (hin : ∀ m ∈ s.inputs, ∃ w, m = .command w)
    (h : step s = .next t) : ∃ rest sent, (∀ m ∈ rest, ∃ w, m = .command w) ∧
      t = { s with inputs := rest, responses := s.responses ++ sent } := by
  have hwf : s.cfg.wf = true := (step_cases h).1
  rcases hs : s.inputs with _ | ⟨m, rest⟩
  · cases (step_idle hwf hs).symm.trans h
    exact ⟨s.inputs, [], hin, by rw [List.append_nil]⟩
  · rw [hs, List.forall_mem_cons] at hin
    obtain ⟨⟨w, rfl⟩, hrest⟩ := hin
    rw [step_move hwf hs] at h
    obtain ⟨sent, rfl⟩ := runWord_halted_responds (s := { s with inputs := rest }) herr h
    exact ⟨rest, sent, hrest, rfl⟩

/-- A run of one more step that reaches a state has made the step. -/
theorem run_succ_next {n : Nat} {s t : State} (h : Host.Core.run Sys2Proof.core (n + 1) s = .next t) :
    ∃ u, step s = .next u ∧ Host.Core.run Sys2Proof.core n u = .next t := by
  simp only [Host.Core.run] at h
  split at h
  · rename_i u hstep
    exact ⟨u, hstep, h⟩
  · cases h
  · cases h

/-- A run of a halted engine that is sent command words alone takes moves off and adds responses, by induction on the
number of its steps. -/
theorem run_halted_responds (n : Nat) {s t : State} (herr : s.err ≠ none)
    (hin : ∀ m ∈ s.inputs, ∃ w, m = .command w) (h : Host.Core.run Sys2Proof.core n s = .next t) :
    ∃ rest sent, t = { s with inputs := rest, responses := s.responses ++ sent } := by
  induction n generalizing s with
  | zero =>
    cases h
    exact ⟨t.inputs, [], by rw [List.append_nil]⟩
  | succ n ih =>
    obtain ⟨u, hstep, hrun⟩ := run_succ_next h
    obtain ⟨rest, sent, hrest, rfl⟩ := step_halted_responds herr hin hstep
    obtain ⟨rest', sent', rfl⟩ :=
      ih (s := { s with inputs := rest, responses := s.responses ++ sent }) herr hrest hrun
    exact ⟨rest', sent ++ sent', by rw [List.append_assoc]⟩

/-- Settles O19: the run's end differs from its start in the moves to come and the responses added. -/
theorem haltedRunOnlyAddsResponses : Obligations.HaltedRunOnlyAddsResponses := by
  intro n s t herr hin h
  obtain ⟨rest, sent, rfl⟩ := run_halted_responds n herr hin h
  exact ⟨rfl, rfl, rfl, rfl, sent, rfl⟩

/-! ## The host between commands (R147, R153) -/

/-- Settles O8: the idle step, and the plane write on either side of the plane's size. -/
theorem hostMovesBetweenCommands : Obligations.HostMovesBetweenCommands := by
  intro s hwf
  refine ⟨step_idle hwf, fun p a v rest hin ha => ?_, fun p a v rest hin ha => ?_⟩
  · have hwrite : step s = .next (State.poke { s with inputs := rest } p a v) :=
      (step_move hwf hin).trans (if_pos ha)
    exact ⟨_, hwrite, by simp, rfl, State.frame_poke { s with inputs := rest } p a v⟩
  · exact (step_move hwf hin).trans (if_neg ha)

end Sys2Proof.Machine
end

section
/-! The statement of reset and hazards (70_reset_and_hazards.md): a reset while a command runs. -/

namespace Sys2Proof.Machine

/-! ## The abandoned command (R150) -/

/-- A command word cut short by a reset lands the listed writes of the state it would have ended in, then resets. -/
theorem runWordThenReset_of_next {w : Word} {s u : State} (landed : List (Plane × Nat)) (h : runWord w s = .next u) :
    runWordThenReset w landed s = .next (State.landWrites u landed s).resetEngine := by
  unfold runWordThenReset
  rw [h]

/-- Settles O10: the step ends in the reset of the landed planes, which `State.landWrites_spec` gives location by
location, and the reset leaves the planes alone (R151). -/
theorem abandonedCommandLandsAnySubset : Obligations.AbandonedCommandLandsAnySubset := by
  intro s u w landed rest hwf hin hrun
  obtain ⟨hcfg, hinputs, hpeek⟩ := State.landWrites_spec u landed { s with inputs := rest }
  have hstep : step s = .next (State.landWrites u landed { s with inputs := rest }).resetEngine :=
    (step_move hwf hin).trans (runWordThenReset_of_next landed hrun)
  exact ⟨_, hstep, State.resetEngine_reg _, rfl, hcfg, hinputs, hpeek⟩

end Sys2Proof.Machine
end
